-- ==== Sys2Proof/Word.lean ====
section
/-! DEFINITION. The word types of the block and the layout of a word as bytes (00_scope.md R10, 20_memory.md R73). -/

namespace Sys2Proof

/-- 8 bits (R10). -/
abbrev Byte := BitVec 8

/-- 32 bits (R10): a register, a command word, the data of a host transaction. -/
abbrev Word := BitVec 32

/-- The 64 bits of an IEEE 754 binary64 value (R11). Registers and COMPRAM hold these bits, so a value is its pattern. -/
abbrev F64 := BitVec 64

/-- One linear colour triple (R15): the three channels R, G, B as binary64 values. -/
structure Triple where
  r : F64
  g : F64
  b : F64
deriving DecidableEq, Repr

/-- A component grid (R15): the DC term and the AC terms in ascending component index. A grid has at least its DC term. -/
structure Grid where
  dc : Triple
  ac : List Triple
deriving DecidableEq, Repr

end Sys2Proof
end

