-- ==== Sys2Proof/Syntax.lean ====
section
/-! DEFINITION. The commands of the block: one constructor per row of spec/opcode_table.json (30_encoding.md R104). -/

namespace Sys2Proof

/-- A command (30_encoding.md R104). Formats B and I carry their fields (R102, R103); format N carries none (R101). -/
inductive Instr where
  /-- 0x00 NOP (R190). -/
  | nop
  /-- 0x01 ENCODE (R176). -/
  | encode
  /-- 0x02 DECODE (R177). -/
  | decode
  /-- 0x03 COMPONENTS (R172). -/
  | components
  /-- 0x10 FDCT (R162). -/
  | fdct
  /-- 0x11 QENC (R173). -/
  | qenc
  /-- 0x12 QDEC (R174). -/
  | qdec
  /-- 0x13 IDCT (R163). -/
  | idct
  /-- 0x20 B83_ENC OFF, LEN (R131). -/
  | b83Enc (off : BitVec 8) (len : BitVec 4)
  /-- 0x21 B83_DEC OFF, LEN (R133). -/
  | b83Dec (off : BitVec 8) (len : BitVec 4)
  /-- 0x30 GAMMA_DEC IMM8 (R142). -/
  | gammaDec (imm : BitVec 8)
  /-- 0x31 GAMMA_ENC (R143). -/
  | gammaEnc
  /-- 0x40 QUANT_MAX (R153). -/
  | quantMax
  /-- 0x41 QUANT_AC (R154). -/
  | quantAc
  /-- 0x42 DEQUANT_AC IMM8 (R155). -/
  | dequantAc (imm : BitVec 8)
deriving DecidableEq, Repr

end Sys2Proof
end

