-- ==== Sys2Proof/WellFormed.lean ====
section
/-! DEFINITION. Which terms of `Instr` are commands: a format B digit count is 0 .. 10 (30_encoding.md R102, R107). -/

namespace Sys2Proof

/-- The legal digit counts of format B (R102). -/
def lenLegal (len : BitVec 4) : Bool := len.toNat ≤ 10

/-- A command some 32-bit word encodes. Every value of the 8-bit fields is legal (R102, R103). -/
def Instr.wellFormed : Instr → Bool
  | .b83Enc _ len => lenLegal len
  | .b83Dec _ len => lenLegal len
  | .nop | .encode | .decode | .components | .fdct | .qenc | .qdec | .idct
  | .gammaDec _ | .gammaEnc | .quantMax | .quantAc | .dequantAc _ => true

end Sys2Proof
end

