-- ==== Sys2Proof/Decode.lean ====
section
/-! DEFINITION. The decoder of command words, total on every word, and the encoder (30_encoding.md R100 to R107). -/

namespace Sys2Proof

/-- Why a word is no command. Each is ILLEGAL_CMD for the block (R107); a byte string that is not one word is no word at all (R109). -/
inductive DecodeError where
  /-- The opcode is not in the map of R104. -/
  | unknownOpcode
  /-- A reserved bit of the format is set. -/
  | reservedBits
  /-- A format B digit count above 10. -/
  | lenOutOfRange
  /-- Not exactly four bytes (R109). -/
  | notOneWord
deriving DecidableEq, Repr

/-- The opcode field `cmd[7:0]` (R100). -/
def opcField (w : Word) : BitVec 8 := w.extractLsb' 0 8

/-- `cmd[15:8]`: OFF of format B (R102), IMM8 of format I (R103). -/
def byteField (w : Word) : BitVec 8 := w.extractLsb' 8 8

/-- `cmd[19:16]`: LEN of format B (R102). -/
def lenField (w : Word) : BitVec 4 := w.extractLsb' 16 4

/-- Format N: `cmd[31:8]` reserved (R101, R105). -/
def decodeN (w : Word) (i : Instr) : Except DecodeError Instr :=
  if w.extractLsb' 8 24 = 0 then .ok i else .error .reservedBits

/-- Format B: `cmd[31:20]` reserved, LEN at most 10 (R102, R105). -/
def decodeB (w : Word) (mk : BitVec 8 → BitVec 4 → Instr) : Except DecodeError Instr :=
  if w.extractLsb' 20 12 = 0 then
    if lenLegal (lenField w) then .ok (mk (byteField w) (lenField w)) else .error .lenOutOfRange
  else .error .reservedBits

/-- Format I: `cmd[31:16]` reserved (R103, R105). -/
def decodeI (w : Word) (mk : BitVec 8 → Instr) : Except DecodeError Instr :=
  if w.extractLsb' 16 16 = 0 then .ok (mk (byteField w)) else .error .reservedBits

/-- The decoder of R105, over the opcode map of R104. -/
def decode (w : Word) : Except DecodeError Instr :=
  match (opcField w).toNat with
  | 0x00 => decodeN w .nop
  | 0x01 => decodeN w .encode
  | 0x02 => decodeN w .decode
  | 0x03 => decodeN w .components
  | 0x10 => decodeN w .fdct
  | 0x11 => decodeN w .qenc
  | 0x12 => decodeN w .qdec
  | 0x13 => decodeN w .idct
  | 0x20 => decodeB w .b83Enc
  | 0x21 => decodeB w .b83Dec
  | 0x30 => decodeI w .gammaDec
  | 0x31 => decodeN w .gammaEnc
  | 0x40 => decodeN w .quantMax
  | 0x41 => decodeN w .quantAc
  | 0x42 => decodeI w .dequantAc
  | _ => .error .unknownOpcode

/-- The word whose bytes are given, least significant byte first (20_memory.md R73). -/
def wordOfBytes (b0 b1 b2 b3 : Byte) : Word := b3 ++ b2 ++ b1 ++ b0

/-- The bytes of a word, least significant byte first (20_memory.md R73). -/
def bytesOfWord (w : Word) : List Byte :=
  [w.extractLsb' 0 8, w.extractLsb' 8 8, w.extractLsb' 16 8, w.extractLsb' 24 8]

/-- Decoding of any bytes: a command is exactly one 32-bit word (R109). -/
def decodeBytes : List Byte → Except DecodeError Instr
  | [b0, b1, b2, b3] => decode (wordOfBytes b0 b1 b2 b3)
  | _ => .error .notOneWord

/-- The command a row's bits stand for: the word laid out as bytes and given to the decoder. -/
def decodeTableWord (nbits w : Nat) : Option Instr :=
  if nbits ≤ 32 ∧ w < 2 ^ nbits then (decodeBytes (bytesOfWord (BitVec.ofNat 32 w))).toOption else none

/-- The opcode of a command (R104). -/
def opcode : Instr → BitVec 8
  | .nop => 0x00
  | .encode => 0x01
  | .decode => 0x02
  | .components => 0x03
  | .fdct => 0x10
  | .qenc => 0x11
  | .qdec => 0x12
  | .idct => 0x13
  | .b83Enc _ _ => 0x20
  | .b83Dec _ _ => 0x21
  | .gammaDec _ => 0x30
  | .gammaEnc => 0x31
  | .quantMax => 0x40
  | .quantAc => 0x41
  | .dequantAc _ => 0x42

/-- A format N word (R100, R101). -/
def wordN (opc : BitVec 8) : Word := (0 : BitVec 24) ++ opc

/-- A format B word (R100, R102). -/
def wordB (opc off : BitVec 8) (len : BitVec 4) : Word := (0 : BitVec 12) ++ len ++ off ++ opc

/-- A format I word (R100, R103). -/
def wordI (opc imm : BitVec 8) : Word := (0 : BitVec 16) ++ imm ++ opc

/-- The word of a command, reserved bits 0 (R100). -/
def encode (i : Instr) : Word :=
  match i with
  | .b83Enc off len => wordB (opcode i) off len
  | .b83Dec off len => wordB (opcode i) off len
  | .gammaDec imm => wordI (opcode i) imm
  | .dequantAc imm => wordI (opcode i) imm
  | .nop | .encode | .decode | .components | .fdct | .qenc | .qdec | .idct
  | .gammaEnc | .quantMax | .quantAc => wordN (opcode i)

/-- The "mask" of the command's row in spec/opcode_table.json: the opcode and the reserved bits (R105). -/
def tableMask : Instr → Word
  | .b83Enc _ _ | .b83Dec _ _ => 0xFFF000FF
  | .gammaDec _ | .dequantAc _ => 0xFFFF00FF
  | .nop | .encode | .decode | .components | .fdct | .qenc | .qdec | .idct
  | .gammaEnc | .quantMax | .quantAc => 0xFFFFFFFF

/-- The "match" of the command's row in spec/opcode_table.json (R105). -/
def tableMatch : Instr → Word
  | .nop => 0x00000000
  | .encode => 0x00000001
  | .decode => 0x00000002
  | .components => 0x00000003
  | .fdct => 0x00000010
  | .qenc => 0x00000011
  | .qdec => 0x00000012
  | .idct => 0x00000013
  | .b83Enc _ _ => 0x00000020
  | .b83Dec _ _ => 0x00000021
  | .gammaDec _ => 0x00000030
  | .gammaEnc => 0x00000031
  | .quantMax => 0x00000040
  | .quantAc => 0x00000041
  | .dequantAc _ => 0x00000042

end Sys2Proof
end

