-- ==== Sys2Proof/Config.lean ====
section
/-! DEFINITION. What an implementation of the block fixes and what the spec leaves free. Every constant here is opaque: no proof
can use its value. -/

namespace Sys2Proof.Config

/-- PIX_CAP - 1 (00_scope.md R7, U5): the parameter's range 1 .. 65536 is its type's range. Log 4. -/
opaque pixCapPred : Fin 65536

/-- PIX_CAP, the number of pixel words (00_scope.md R7), between 1 and 65536. -/
def pixCap : Nat := pixCapPred.val + 1

/-- The raw function behind COS64 (00_scope.md R8, U3): any total function on binary64 patterns. `Machine.cos64` gives it the
properties R8 names. Log 5. -/
opaque cosRaw : F64 → F64

/-- The raw function behind POW64 (00_scope.md R8, U4). `Machine.pow64` gives it the properties R8 names. Log 6. -/
opaque powRaw : F64 → F64 → F64

/-- The free bytes: what a host read returns for a byte the spec gives no value (70_reset_and_hazards.md R242, R244; U9, U10).
The counter of State names a fresh one at each use. Log 7. -/
opaque freeByte : Nat → Byte

/-- The sign and payload bits of a NaN result, which IEEE 754 and U15 leave open. Log 10. -/
opaque nanRaw : F64

/-- What `floor` gives for a NaN, for which 00_scope.md R11 states no integer. Log 11. -/
opaque floorNan : Int

/-- BH83_BASE, the platform's base address of the aperture (20_memory.md R70, U6). Log 22. -/
opaque apertureBase : Nat

end Sys2Proof.Config
end

