-- ==== Sys2Proof/Machine/Float.lean ====
section
/-! DEFINITION. IEEE 754 binary64 arithmetic, round to nearest, ties to even, one rounding an operation (00_scope.md R11), the
clamps of R12 and the parameters COS64 and POW64 of R8. Operands are turned into exact integers, the exact result is computed, and
`fpRoundMag` narrows it once. -/

namespace Sys2Proof.Machine

/-- What a binary64 pattern stands for. A finite value is `(-1)^neg * m * 2^e` in units of `2^-1074`, the least positive binary64
value, so every finite magnitude is the natural number `m * 2^e` of these units. -/
inductive FView where
  | nan
  | inf (neg : Bool)
  | fin (neg : Bool) (m e : Nat)
deriving DecidableEq, Repr

/-- An integer or an infinity: what `floor` gives (R11). -/
inductive ExtInt where
  | negInf
  | int (z : Int)
  | posInf
deriving DecidableEq, Repr

/-! ### Patterns -/

/-- The 63 bits below the sign. Among values that are not NaN they order magnitudes. -/
def fpMag (x : F64) : Nat := x.toNat % 2 ^ 63

/-- The sign bit. -/
def fpSign (x : F64) : Bool := decide (2 ^ 63 ≤ x.toNat)

/-- The magnitude pattern of the infinities. -/
def fpInfMag : Nat := 2047 * 2 ^ 52

/-- NaN: exponent field all ones, fraction not 0. -/
def fpIsNan (x : F64) : Bool := decide (fpInfMag < fpMag x)

/-- Neither NaN nor infinite. -/
def fpIsFinite (x : F64) : Bool := decide (fpMag x < fpInfMag)

/-- A pattern from its sign and its 63 magnitude bits. -/
def fpPack (neg : Bool) (mag : Nat) : F64 := BitVec.ofNat 64 ((if neg then 2 ^ 63 else 0) + mag)

/-- The value of a pattern (IEEE 754 binary64: subnormals at exponent field 0, the hidden bit above it). -/
def fpView (x : F64) : FView :=
  if fpIsNan x then .nan
  else if fpMag x = fpInfMag then .inf (fpSign x)
  else if fpMag x / 2 ^ 52 = 0 then .fin (fpSign x) (fpMag x) 0
  else .fin (fpSign x) (2 ^ 52 + fpMag x % 2 ^ 52) (fpMag x / 2 ^ 52 - 1)

/-- A NaN result: quiet, its sign and its other payload bits free (U15, Log 10). No command stores one (43_transform.md R163). -/
def fpNan : F64 := (Config.nanRaw &&& 0x8007FFFFFFFFFFFF) ||| 0x7FF8000000000000

/-- +0.0. -/
def fpZero : F64 := 0

/-- 1.0. -/
def fpOne : F64 := 0x3FF0000000000000

/-- -1.0. -/
def fpMinusOne : F64 := 0xBFF0000000000000

/-! ### Rounding -/

/-- The exponent of the highest bit of `n < 2^(2^k)`, 0 for 0: each round halves the bits still to be searched. -/
def log2Below : Nat → Nat → Nat
  | 0, _ => 0
  | k + 1, n => if 2 ^ 2 ^ k ≤ n then 2 ^ k + log2Below k (n / 2 ^ 2 ^ k) else log2Below k n

/-- Round to nearest, ties to even, of the magnitude `n / d` units (R11): the 63 magnitude bits of the result, those of infinity
on overflow. `e` is the exponent at which the quotient has 53 bits, or 0 for the subnormals and the least normals (every finite
result lies far below `2^4096` units, the reach of the search); a carry out of the significand moves into the exponent by
addition. -/
def fpRoundMag (n d : Nat) : Nat :=
  let e := log2Below 12 (n / d) - 52
  let den := d * 2 ^ e
  let q := n / den
  let r := n % den
  let up := decide (den < 2 * r) || (decide (2 * r = den) && decide (q % 2 = 1))
  min (e * 2 ^ 52 + q + (if up then 1 else 0)) fpInfMag

/-- `RN` of the real number `(-1)^neg * n / d` units (R11). -/
def fpRound (neg : Bool) (n d : Nat) : F64 := fpPack neg (fpRoundMag n d)

/-- `RN(n / d)`: a decimal literal (R11). -/
def fpLit (n d : Nat) : F64 := fpRound false (n * 2 ^ 1074) d

/-- `f64(z)`, exact for the integers the spec converts (R11). -/
def fpOfInt (z : Int) : F64 := fpRound (decide (z < 0)) (z.natAbs * 2 ^ 1074) 1

/-- `f64(n)` of a natural number (R11). -/
def fpOfNat (n : Nat) : F64 := fpOfInt (n : Int)

/-! ### Sign operations and order -/

/-- `-x`: the sign bit flipped. -/
def fpNeg (x : F64) : F64 := fpPack (!fpSign x) (fpMag x)

/-- `|x|`, exact (R11). -/
def fpAbs (x : F64) : F64 := fpPack false (fpMag x)

/-- A key that orders the values which are not NaN; both zeros have key 0. -/
def fpKey (x : F64) : Int := if fpSign x then -(fpMag x : Int) else (fpMag x : Int)

/-- `x < y`, false if either is NaN. -/
def fpLt (x y : F64) : Bool := !fpIsNan x && !fpIsNan y && decide (fpKey x < fpKey y)

/-- `x <= y`, false if either is NaN. -/
def fpLe (x y : F64) : Bool := !fpIsNan x && !fpIsNan y && decide (fpKey x ≤ fpKey y)

/-! ### The operations -/

/-- A magnitude with its sign as an integer. -/
def fpSigned (neg : Bool) (mag : Nat) : Int := if neg then -(mag : Int) else (mag : Int)

/-- `RN(x + y)`. An exact sum of 0 is -0 only if both operands are negative zeros. -/
def fpAdd (x y : F64) : F64 :=
  match fpView x, fpView y with
  | .nan, _ => fpNan
  | _, .nan => fpNan
  | .inf s, .inf t => if s = t then x else fpNan
  | .inf _, .fin .. => x
  | .fin .., .inf _ => y
  | .fin s m e, .fin t k f =>
    let z := fpSigned s (m * 2 ^ e) + fpSigned t (k * 2 ^ f)
    if z = 0 then fpPack (s && t) 0 else fpRound (decide (z < 0)) z.natAbs 1

/-- `RN(x - y)`. -/
def fpSub (x y : F64) : F64 := fpAdd x (fpNeg y)

/-- `RN(x * y)`. The exact product is in units of `2^-2148`. -/
def fpMul (x y : F64) : F64 :=
  match fpView x, fpView y with
  | .nan, _ => fpNan
  | _, .nan => fpNan
  | .inf s, .inf t => fpPack (s ^^ t) fpInfMag
  | .inf s, .fin t k _ => if k = 0 then fpNan else fpPack (s ^^ t) fpInfMag
  | .fin s m _, .inf t => if m = 0 then fpNan else fpPack (s ^^ t) fpInfMag
  | .fin s m e, .fin t k f => fpRound (s ^^ t) (m * 2 ^ e * (k * 2 ^ f)) (2 ^ 1074)

/-- `RN(x / y)`. -/
def fpDiv (x y : F64) : F64 :=
  match fpView x, fpView y with
  | .nan, _ => fpNan
  | _, .nan => fpNan
  | .inf _, .inf _ => fpNan
  | .inf s, .fin t _ _ => fpPack (s ^^ t) fpInfMag
  | .fin s _ _, .inf t => fpPack (s ^^ t) 0
  | .fin s m e, .fin t k f =>
    if k = 0 then (if m = 0 then fpNan else fpPack (s ^^ t) fpInfMag)
    else fpRound (s ^^ t) (m * 2 ^ e * 2 ^ 1074) (k * 2 ^ f)

/-- One bit a round of the integer square root: `r` is the root found so far, of the bits above `k`. -/
def isqrtLoop (n : Nat) : Nat → Nat → Nat
  | 0, r => r
  | k + 1, r => if (r + 2 ^ k) * (r + 2 ^ k) ≤ n then isqrtLoop n k (r + 2 ^ k) else isqrtLoop n k r

/-- The largest `s` below `2^bits` with `s * s <= n`. -/
def isqrt (bits n : Nat) : Nat := isqrtLoop n bits 0

/-- The square root of the positive magnitude `m * 2^e` units, correctly rounded (R11). The radicand is brought to an even
exponent and 120 more bits, so that its root has at least 60; a bit below the root says whether it was exact, and the rounding
then falls as for the exact root. -/
def fpSqrtMag (m e : Nat) : Nat :=
  let n := m * 2 ^ (e % 2) * 2 ^ 120
  let s := isqrt 88 n
  fpRoundMag ((2 * s + (if s * s = n then 0 else 1)) * 2 ^ (e / 2 + 477)) 2

/-- `SQRT(x)`, the correctly rounded square root (R11): of -0.0 it is -0.0, of a negative value a NaN (IEEE 754). -/
def fpSqrt (x : F64) : F64 :=
  match fpView x with
  | .nan => fpNan
  | .inf s => if s then fpNan else x
  | .fin s m e => if m = 0 then x else if s then fpNan else fpPack false (fpSqrtMag m e)

/-! ### Integers and clamps -/

/-- `floor(x)` (R11): the integer not above a finite value, the infinities themselves. For a NaN R11 states nothing: a free
integer (Log 11). -/
def fpFloor (x : F64) : ExtInt :=
  match fpView x with
  | .nan => .int Config.floorNan
  | .inf s => if s then .negInf else .posInf
  | .fin s m e => .int (fpSigned s (m * 2 ^ e) / ((2 ^ 1074 : Nat) : Int))

/-- `clampi(n, lo, hi)` (R12). -/
def clampi (n : ExtInt) (lo hi : Int) : Int :=
  match n with
  | .negInf => lo
  | .posInf => hi
  | .int z => if z < lo then lo else if hi < z then hi else z

/-- `clampf(x, lo, hi)` (R12): NaN gives `lo`. -/
def clampf (x lo hi : F64) : F64 :=
  if fpIsNan x || fpLt x lo then lo else if fpLt hi x then hi else x

/-! ### The parameters of R8 -/

/-- `-1.0 <= x <= 1.0`. -/
def fpInSymUnit (x : F64) : Bool := fpLe fpMinusOne x && fpLe x fpOne

/-- `0.0 <= x <= 1.0`. -/
def fpInUnit (x : F64) : Bool := fpLe fpZero x && fpLe x fpOne

/-- COS64 (00_scope.md R8): a free function on binary64 patterns among those with `COS64(+0.0) = 1.0` and `-1.0 <= COS64(a) <=
1.0` for finite `a`. Every such function is one value of `Config.cosRaw`. Log 5. -/
def cos64 (a : F64) : F64 :=
  if a = fpZero then fpOne
  else if fpIsFinite a && !fpInSymUnit (Config.cosRaw a) then fpOne
  else Config.cosRaw a

/-- POW64 (00_scope.md R8): a free function among those with `POW64(1.0, y) = 1.0` for finite `y`, and `POW64(x, y)` finite and in
`[0, 1]` for `x` in `[0, 1]` and `y > 0`. Every such function is one value of `Config.powRaw`. Log 6. -/
def pow64 (x y : F64) : F64 :=
  if x = fpOne && fpIsFinite y then fpOne
  else if fpInUnit x && fpLt fpZero y && !fpInUnit (Config.powRaw x y) then fpOne
  else Config.powRaw x y

/-- `PI64` (R11). -/
def pi64 : F64 := 0x400921FB54442D18

end Sys2Proof.Machine
end

