-- ==== Sys2Proof/Machine/State.lean ====
section
/-! DEFINITION. The state of the block (10_state.md), its ports (20_memory.md R71), the reasons a step can stop, and the state
after power-on reset (10_state.md R60, 70_reset_and_hazards.md R230). -/

namespace Sys2Proof.Machine

/-- The error kinds of a command (60_exceptions.md R200). ENCODING_INVARIANT is never raised (R200, U2). -/
inductive ErrCode where
  | invalidParameter
  | invalidLength
  | invalidCharacter
  | invalidHash
  | encodingInvariant
  | illegalCmd
  | invalidDimension
  | bounds
  | dcRange
  | operand
deriving DecidableEq, Repr

/-- How a command's pseudocode can end early: `raise E(info)` (00_scope.md R13), or a read of a never-written location
(20_memory.md R85). -/
inductive Stop where
  | raise (e : ErrCode) (info : Word)
  | uninitRead
deriving DecidableEq, Repr

/-- Why the machine stops with a fault. -/
inductive Fault where
  /-- Raised by a command that reads a never-written byte of HASH, COMPRAM or PIXRAM (20_memory.md R85, 70_reset_and_hazards.md
  R244). Safe: the hardware would go on with whatever its RAM holds. -/
  | uninitRead
deriving DecidableEq, Repr

/-- Why a step has no meaning in the model. -/
inductive Refusal where
  /-- A command without a meaning; no arm of exec raises it. Safe. -/
  | notModelled (mnemonic : String)
  /-- A host transaction while `rst_n` is asserted: outside the model (70_reset_and_hazards.md R230, U13). Raised by the host
  port. Safe: the platform must not issue one. -/
  | hostAccessInReset
deriving DecidableEq, Repr

/-- The engine (10_state.md R41, R55): idle, or running the accepted command word. `STATUS.BUSY` is a view of it. Log 19. -/
inductive Engine where
  | idle
  | running (cmd : Word)
deriving DecidableEq, Repr

/-- One host transaction (20_memory.md R71, R73): a byte offset of the aperture, a size in bytes, and the write data, byte `i` of
the access in bits `[8i+7 : 8i]`. Any size can be asked for (R74). -/
inductive HostTxn where
  | read (off : BitVec 19) (size : Nat)
  | write (off : BitVec 19) (size : Nat) (data : Word)
deriving DecidableEq, Repr

/-- The response of a host transaction (20_memory.md R71): OKAY with read data (0 for a write), or SLVERR, whose read data is 0
(R74). -/
inductive Response where
  | okay (data : Word)
  | slverr
deriving DecidableEq, Repr

/-- One input of the block: a host transaction, the point in time at which the running command completes (70_reset_and_hazards.md
R240), or an edge of `rst_n` (R230). -/
inductive Event where
  | host (t : HostTxn)
  | complete
  | rstAssert
  | rstRelease
deriving DecidableEq, Repr

/-- The byte memory of the three windows, keyed by aperture offset (20_memory.md R72). An unlisted byte is "never written"
(70_reset_and_hazards.md R244). -/
structure Memory where
  cells : List Host.Cell
deriving DecidableEq, Repr

/-- Addresses strictly rising, each at least `lo`. -/
def cellsRising (lo : Nat) : List Host.Cell → Bool
  | [] => true
  | (a, _) :: cs => lo ≤ a && cellsRising (a + 1) cs

/-- The canonical form of a memory: addresses strictly rising. Since a never-written byte has no value, no listed byte can equal
what an unlisted one reads as. -/
def Memory.wf (m : Memory) : Bool := cellsRising 0 m.cells

/-- The registers of the map, each under its own name (10_state.md R23). -/
inductive Reg where
  | id | pixcap | ctrl | status | cmd | errinfo | comp | width | height | punch | hashlen | maxq
  | maxvalLo | maxvalHi | opaLo | opaHi | opbLo | opbHi | resLo | resHi
deriving DecidableEq, Repr

/-- The state of the block (10_state.md R21 to R56) and of its ports. -/
structure State where
  /-- CTRL.IRQ_EN (R26). -/
  irqEn : Bool
  /-- The engine with its accepted command word (R55); STATUS.BUSY (R41). -/
  engine : Engine
  /-- STATUS.DONE (R42). -/
  done : Bool
  /-- STATUS.ERR (R43). -/
  err : Bool
  /-- STATUS.WDROP (R44). -/
  wdrop : Bool
  /-- STATUS.ERRCODE (R27, R200). -/
  errcode : BitVec 4
  /-- ERRINFO (R29). -/
  errinfo : Word
  /-- COMP.XC (R30). -/
  xc : BitVec 4
  /-- COMP.YC (R30). -/
  yc : BitVec 4
  /-- WIDTH.W (R31). -/
  width : BitVec 16
  /-- HEIGHT.H (R32). -/
  height : BitVec 16
  /-- PUNCH (R33). -/
  punch : Word
  /-- HASHLEN (R34). -/
  hashlen : BitVec 9
  /-- MAXQ (R35). -/
  maxq : BitVec 7
  /-- MAXVAL (R36). -/
  maxval : F64
  /-- OPA (R37). -/
  opa : BitVec 64
  /-- OPB (R38). -/
  opb : BitVec 64
  /-- RES (R39). -/
  res : BitVec 64
  /-- HASH, COMPRAM and PIXRAM (R50 to R52). -/
  mem : Memory
  /-- Whether `rst_n` is asserted (20_memory.md R71). -/
  inReset : Bool
  /-- The model's own: the inputs still to arrive, in order of arrival. Log 2. -/
  pending : List Event
  /-- The model's own: the response of the last host transaction. Log 17. -/
  resp : Option Response
  /-- The model's own: the number of the next free byte. Log 7. -/
  freeCtr : Nat
deriving DecidableEq, Repr

/-- The state after power-on reset (10_state.md R60, 70_reset_and_hazards.md R230): every register at its stated value, every
window location never written, the engine idle. The last three fields are the model's own (Log 2, 17, 7). -/
def State.reset : State where
  irqEn := false
  engine := .idle
  done := false
  err := false
  wdrop := false
  errcode := 0
  errinfo := 0
  xc := 0
  yc := 0
  width := 0
  height := 0
  punch := 1
  hashlen := 0
  maxq := 0
  maxval := 0
  opa := 0
  opb := 0
  res := 0
  mem := ⟨[]⟩
  inReset := false
  pending := []
  resp := none
  freeCtr := 0

end Sys2Proof.Machine
end

