-- ==== Sys2Proof/Machine/Flags.lean ====
section
/-! DEFINITION. The status flags, the error codes and the interrupt line (10_state.md R27, R41 to R44, R56; 60_exceptions.md R200,
R210). -/

namespace Sys2Proof.Machine

/-- The number of an error code (60_exceptions.md R200). -/
def errCodeBits : ErrCode → BitVec 4
  | .invalidParameter => 1
  | .invalidLength => 2
  | .invalidCharacter => 3
  | .invalidHash => 4
  | .encodingInvariant => 5
  | .illegalCmd => 6
  | .invalidDimension => 7
  | .bounds => 8
  | .dcRange => 9
  | .operand => 10

/-- STATUS.BUSY (R41): 1 from the acceptance of a command to its completion. -/
def busy (s : State) : Bool :=
  match s.engine with
  | .idle => false
  | .running _ => true

/-- The word a read of STATUS returns (R27): BUSY, DONE, ERR, WDROP in bits 0 to 3, ERRCODE in bits [11:8], the rest 0. -/
def statusWord (s : State) : Word :=
  (0 : BitVec 20) ++ s.errcode ++ (0 : BitVec 4) ++ BitVec.ofBool s.wdrop ++ BitVec.ofBool s.err ++ BitVec.ofBool s.done
    ++ BitVec.ofBool (busy s)

/-- The interrupt output (R56, R210). -/
def irq (s : State) : Bool := s.irqEn && (s.done || s.err)

/-- Acceptance (20_memory.md R77, R41 to R43): BUSY set, DONE, ERR, ERRCODE and ERRINFO cleared; the word is latched. -/
def flagsAccept (w : Word) (s : State) : State :=
  { s with engine := .running w, done := false, err := false, errcode := 0, errinfo := 0 }

/-- Completion without error (R41, R42): BUSY cleared, DONE set. -/
def flagsDone (s : State) : State := { s with engine := .idle, done := true }

/-- Completion with an error (R200): BUSY cleared, ERR, ERRCODE and ERRINFO set; DONE stays. -/
def flagsError (e : ErrCode) (info : Word) (s : State) : State :=
  { s with engine := .idle, err := true, errcode := errCodeBits e, errinfo := info }

/-- Write one to clear (45_system.md R192): DONE, ERR and WDROP, each where the written bit 1, 2, 3 is 1. -/
def flagsClear (v : Word) (s : State) : State :=
  { s with done := s.done && !v.getLsbD 1, err := s.err && !v.getLsbD 2, wdrop := s.wdrop && !v.getLsbD 3 }

/-- A host write dropped because BUSY is 1 (R44, 70_reset_and_hazards.md R241). -/
def flagsDropped (s : State) : State := { s with wdrop := true }

end Sys2Proof.Machine
end

