-- ==== Sys2Proof/Machine/Ops.lean ====
section
/-! DEFINITION. The named operations over memory and registers: the byte memory and its windows (10_state.md R50 to R52), the
register map (R23 to R40), acceptance and completion of a command, and a command's error, the one exception entry of the block
(60_exceptions.md R200, R203, R204). -/

namespace Sys2Proof.Machine

/-! ### Bytes -/

/-- The `n` bytes of a number, least significant first (20_memory.md R73). -/
def leBytes : Nat → Nat → List Byte
  | 0, _ => []
  | n + 1, v => BitVec.ofNat 8 v :: leBytes n (v / 256)

/-- The number whose bytes are given, least significant first (20_memory.md R73). -/
def ofLeBytes : List Byte → Nat
  | [] => 0
  | b :: bs => b.toNat + 256 * ofLeBytes bs

/-! ### The byte memory -/

/-- The byte at address `a`, none if it was never written. -/
def cellRead : List Host.Cell → Nat → Option Byte
  | [], _ => none
  | (k, b) :: cs, a => if k = a then some b else cellRead cs a

/-- The cells with byte `b` at address `a`, in rising order. -/
def cellWrite : List Host.Cell → Nat → Byte → List Host.Cell
  | [], a, b => [(a, b)]
  | (k, c) :: cs, a, b =>
    if a < k then (a, b) :: (k, c) :: cs else if a = k then (a, b) :: cs else (k, c) :: cellWrite cs a b

/-- The byte at aperture offset `a`; none if it is never written (70_reset_and_hazards.md R244). -/
def memRead (m : Memory) (a : Nat) : Option Byte := cellRead m.cells a

/-- Byte `b` stored at aperture offset `a`. -/
def memWrite (m : Memory) (a : Nat) (b : Byte) : Memory := ⟨cellWrite m.cells a b⟩

/-- Consecutive bytes stored from aperture offset `a` on. -/
def memWriteBytes (m : Memory) (a : Nat) : List Byte → Memory
  | [] => m
  | b :: bs => memWriteBytes (memWrite m a b) (a + 1) bs

/-- Whether `a` lies in one of the ranges, each a first offset and a length. -/
def inRanges (rs : List (Nat × Nat)) (a : Nat) : Bool := rs.any fun r => decide (r.1 ≤ a) && decide (a < r.1 + r.2)

/-- The bytes of the ranges made "never written" again (70_reset_and_hazards.md R232). -/
def memForget (m : Memory) (rs : List (Nat × Nat)) : Memory := ⟨m.cells.filter fun c => !inRanges rs c.1⟩

/-- The `n` consecutive bytes from `a` on, none if one of them is never written. -/
def memReadBytes (m : Memory) : Nat → Nat → Option (List Byte)
  | _, 0 => some []
  | a, n + 1 =>
    match memRead m a, memReadBytes m (a + 1) n with
    | some b, some bs => some (b :: bs)
    | _, _ => none

/-! ### The windows (20_memory.md R72) -/

/-- First offset of HASH (R50). -/
def hashBase : Nat := 0x100

/-- First offset of COMPRAM (R51). -/
def compBase : Nat := 0x800

/-- First offset of PIXRAM (R52). -/
def pixBase : Nat := 0x40000

/-- HASH: 256 bytes from 0x100. -/
def inHash (a : Nat) : Bool := decide (hashBase ≤ a) && decide (a < 0x200)

/-- COMPRAM: 81 entries of 24 bytes, 0x800 to 0xF97. -/
def inComp (a : Nat) : Bool := decide (compBase ≤ a) && decide (a < 0xF98)

/-- PIXRAM: `PIX_CAP` words of 4 bytes from 0x40000. -/
def inPix (a : Nat) : Bool := decide (pixBase ≤ a) && decide ((a - pixBase) / 4 < Config.pixCap)

/-- A location of one of the three windows. -/
def inWindow (a : Nat) : Bool := inHash a || inComp a || inPix a

/-- Offset of HASH byte `k` (R50). -/
def hashAddr (k : Nat) : Nat := hashBase + k

/-- Offset of channel `c` of COMPRAM entry `k` (R51). -/
def compAddr (k c : Nat) : Nat := compBase + 8 * (3 * k + c)

/-- Offset of pixel word `k` (R52). -/
def pixAddr (k : Nat) : Nat := pixBase + 4 * k

/-! ### The register map (10_state.md R23) -/

/-- The offset of a register (R23). -/
def regOffset : Reg → Nat
  | .id => 0x000
  | .pixcap => 0x004
  | .ctrl => 0x008
  | .status => 0x00C
  | .cmd => 0x010
  | .errinfo => 0x014
  | .comp => 0x020
  | .width => 0x024
  | .height => 0x028
  | .punch => 0x02C
  | .hashlen => 0x030
  | .maxq => 0x034
  | .maxvalLo => 0x038
  | .maxvalHi => 0x03C
  | .opaLo => 0x040
  | .opaHi => 0x044
  | .opbLo => 0x048
  | .opbHi => 0x04C
  | .resLo => 0x050
  | .resHi => 0x054

/-- The register at an offset of the register region, none at a reserved one (R23, R40). -/
def regAt (a : Nat) : Option Reg :=
  match a with
  | 0x000 => some .id
  | 0x004 => some .pixcap
  | 0x008 => some .ctrl
  | 0x00C => some .status
  | 0x010 => some .cmd
  | 0x014 => some .errinfo
  | 0x020 => some .comp
  | 0x024 => some .width
  | 0x028 => some .height
  | 0x02C => some .punch
  | 0x030 => some .hashlen
  | 0x034 => some .maxq
  | 0x038 => some .maxvalLo
  | 0x03C => some .maxvalHi
  | 0x040 => some .opaLo
  | 0x044 => some .opaHi
  | 0x048 => some .opbLo
  | 0x04C => some .opbHi
  | 0x050 => some .resLo
  | 0x054 => some .resHi
  | _ => none

/-- The low half of a 64-bit register pair (R21). -/
def lo32 (x : BitVec 64) : Word := x.extractLsb' 0 32

/-- The high half of a 64-bit register pair (R21). -/
def hi32 (x : BitVec 64) : Word := x.extractLsb' 32 32

/-- The word a read of a register returns (R24 to R39): reserved bits, SRST and CMD read 0. -/
def regRead (s : State) : Reg → Word
  | .id => 0x42483833
  | .pixcap => BitVec.ofNat 32 Config.pixCap
  | .ctrl => (0 : BitVec 31) ++ BitVec.ofBool s.irqEn
  | .status => statusWord s
  | .cmd => 0
  | .errinfo => s.errinfo
  | .comp => (0 : BitVec 24) ++ s.yc ++ s.xc
  | .width => (0 : BitVec 16) ++ s.width
  | .height => (0 : BitVec 16) ++ s.height
  | .punch => s.punch
  | .hashlen => (0 : BitVec 23) ++ s.hashlen
  | .maxq => (0 : BitVec 25) ++ s.maxq
  | .maxvalLo => lo32 s.maxval
  | .maxvalHi => hi32 s.maxval
  | .opaLo => lo32 s.opa
  | .opaHi => hi32 s.opa
  | .opbLo => lo32 s.opb
  | .opbHi => hi32 s.opb
  | .resLo => lo32 s.res
  | .resHi => hi32 s.res

/-! ### Commands: acceptance, completion, error -/

/-- Acceptance of a command word (20_memory.md R77): every 32-bit word is accepted (30_encoding.md R107). -/
def acceptCommand (w : Word) (s : State) : State := flagsAccept w s

/-- A command's error (60_exceptions.md R200, R203), the block's one exception entry: no vector, no saved program counter, no mode;
BUSY falls, ERR, ERRCODE and ERRINFO are set, and every other register and every window keeps its value from before the command. -/
def raiseError (e : ErrCode) (info : Word) (s : State) : State := flagsError e info s

/-- The return from an error is the host's acknowledge (R204, 45_system.md R192): a write to STATUS. ERRCODE and ERRINFO stay
until the next acceptance (10_state.md R43). -/
def acknowledge (v : Word) (s : State) : State := flagsClear v s

/-- Completion (20_memory.md R78): all results in one step with DONE, or an error with none of them; a read of a never-written
location ends the model's run (R85). `r` is the state with the command's results stored, or how its pseudocode ended. -/
def finish (s : State) (r : Except Stop State) : Host.Outcome State Fault Refusal :=
  match r with
  | .ok t => .next (flagsDone t)
  | .error (.raise e info) => .next (raiseError e info s)
  | .error .uninitRead => .fault .uninitRead

/-- Every register at its value after reset (10_state.md R60), the engine idle. The windows and the ports stay. -/
def resetRegisters (s : State) : State :=
  { s with
    irqEn := false, engine := .idle, done := false, err := false, wdrop := false, errcode := 0, errinfo := 0, xc := 0, yc := 0,
    width := 0, height := 0, punch := 1, hashlen := 0, maxq := 0, maxval := 0, opa := 0, opb := 0, res := 0 }

/-- Power-on reset (70_reset_and_hazards.md R230): every register at its reset value, every window location never written. -/
def powerOnReset (s : State) : State := { resetRegisters s with mem := ⟨[]⟩ }

end Sys2Proof.Machine
end

