-- ==== Sys2Proof/Machine/Operands.lean ====
section
/-! DEFINITION. The operand forms of the commands (30_encoding.md R106): register fields, HASH bytes, COMPRAM channels and entries,
pixel words, and their stores (00_scope.md R13). A read of a never-written location ends the command with `uninitRead`
(20_memory.md R85, 70_reset_and_hazards.md R244). -/

namespace Sys2Proof.Machine

/-- `raise E(info)` (00_scope.md R13). -/
def raise {α : Type} (e : ErrCode) (info : Nat) : Except Stop α := .error (.raise e (BitVec.ofNat 32 info))

/-- A read that must find a value (R244). -/
def initialised {α : Type} (v : Option α) : Except Stop α :=
  match v with
  | some x => .ok x
  | none => .error .uninitRead

/-! ### Register operands -/

/-- CHKCOMP (43_transform.md R161): the counts X and Y, each 1 .. 9. -/
def chkComp (s : State) : Except Stop (Nat × Nat) :=
  if s.xc.toNat < 1 || 9 < s.xc.toNat then raise .invalidParameter (0 * 256 + s.xc.toNat)
  else if s.yc.toNat < 1 || 9 < s.yc.toNat then raise .invalidParameter (1 * 256 + s.yc.toNat)
  else .ok (s.xc.toNat, s.yc.toNat)

/-- CHKDIM (43_transform.md R160): the dimensions W and H, at least 1 each, with W * H within the pixel memory. -/
def chkDim (s : State) : Except Stop (Nat × Nat) :=
  if s.width.toNat = 0 then raise .invalidDimension 0
  else if s.height.toNat = 0 then raise .invalidDimension 1
  else if Config.pixCap < s.width.toNat * s.height.toNat then raise .invalidDimension 2
  else .ok (s.width.toNat, s.height.toNat)

/-- The operand index of OPA in an OPERAND error (60_exceptions.md R201). -/
def opaIndex : Nat := 0

/-- The operand index of OPB (R201). -/
def opbIndex : Nat := 1

/-- The operand index of channel `c` of COMPRAM entry `k` (R201). -/
def compIndex (k c : Nat) : Nat := 0x100 + 3 * k + c

/-- A binary64 operand that must be finite: NaN and the infinities are OPERAND errors (R143, R153 to R155, R163, R173). -/
def finiteOperand (index : Nat) (x : F64) : Except Stop F64 := if fpIsFinite x then .ok x else raise .operand index

/-! ### Window reads -/

/-- HashRead (R13). -/
def hashRead (s : State) (k : Nat) : Except Stop Byte := initialised (memRead s.mem (hashAddr k))

/-- CompRead (R13): the whole channel, least significant byte first (20_memory.md R73). -/
def compRead (s : State) (k c : Nat) : Except Stop F64 := do
  let bs ← initialised (memReadBytes s.mem (compAddr k c) 8)
  .ok (BitVec.ofNat 64 (ofLeBytes bs))

/-- PixRead (R13): the whole pixel word. -/
def pixRead (s : State) (k : Nat) : Except Stop Word := do
  let bs ← initialised (memReadBytes s.mem (pixAddr k) 4)
  .ok (BitVec.ofNat 32 (ofLeBytes bs))

/-- Pixel words `k .. k+n-1`. -/
def pixReads (s : State) : Nat → Nat → Except Stop (List Word)
  | _, 0 => .ok []
  | k, n + 1 => do
    let p ← pixRead s k
    let ps ← pixReads s (k + 1) n
    .ok (p :: ps)

/-- One channel of an entry, which must be finite (R163, R173). -/
def compOperand (s : State) (k c : Nat) : Except Stop F64 := do
  let x ← compRead s k c
  finiteOperand (compIndex k c) x

/-- Entry `k`, its channels read and checked in ascending order (R163, R173). -/
def entryOperand (s : State) (k : Nat) : Except Stop Triple := do
  let r ← compOperand s k 0
  let g ← compOperand s k 1
  let b ← compOperand s k 2
  .ok ⟨r, g, b⟩

/-- Entries `k .. k+n-1`, in ascending order. -/
def entryOperands (s : State) : Nat → Nat → Except Stop (List Triple)
  | _, 0 => .ok []
  | k, n + 1 => do
    let t ← entryOperand s k
    let ts ← entryOperands s (k + 1) n
    .ok (t :: ts)

/-- The component grid in COMPRAM entries `0 .. n-1`, `n` at least 1. -/
def gridOperand (s : State) (n : Nat) : Except Stop Grid := do
  let dc ← entryOperand s 0
  let ac ← entryOperands s 1 (n - 1)
  .ok ⟨dc, ac⟩

/-! ### Window stores -/

/-- HashWrite (R13) of consecutive bytes from byte `k` on. -/
def hashStore (m : Memory) (k : Nat) (bs : List Byte) : Memory := memWriteBytes m (hashAddr k) bs

/-- The 24 bytes of an entry (10_state.md R51). -/
def tripleBytes (t : Triple) : List Byte := leBytes 8 t.r.toNat ++ leBytes 8 t.g.toNat ++ leBytes 8 t.b.toNat

/-- CompWrite (R13) of the entries of a list from entry `k` on. -/
def entriesStore (m : Memory) (k : Nat) (ts : List Triple) : Memory :=
  memWriteBytes m (compAddr k 0) (ts.flatMap tripleBytes)

/-- CompWrite of a whole grid: entries `0 .. n-1`. -/
def gridStore (m : Memory) (g : Grid) : Memory := entriesStore m 0 (g.dc :: g.ac)

/-- PixWrite (R13) of consecutive words from word 0 on. -/
def pixStore (m : Memory) (ps : List Word) : Memory := memWriteBytes m (pixAddr 0) (ps.flatMap fun p => leBytes 4 p.toNat)

end Sys2Proof.Machine
end

