-- ==== Sys2Proof/Machine/Base83.lean ====
section
/-! DEFINITION. The base-83 codec (40_base83.md): the alphabet, the two functions and the commands B83_ENC and B83_DEC. -/

namespace Sys2Proof.Machine

/-- The codes of digits 62 .. 82 (R129). -/
def alphabetMarks : List Byte :=
  [0x23, 0x24, 0x25, 0x2A, 0x2B, 0x2C, 0x2D, 0x2E, 0x3A, 0x3B, 0x3D, 0x3F, 0x40, 0x5B, 0x5D, 0x5E, 0x5F, 0x7B, 0x7C, 0x7D,
    0x7E]

/-- The alphabet (R129): digit value `d` is written as the byte at index `d`. -/
def alphabet : List Byte :=
  (List.range 10).map (fun i => BitVec.ofNat 8 (0x30 + i)) ++ (List.range 26).map (fun i => BitVec.ofNat 8 (0x41 + i))
    ++ (List.range 26).map (fun i => BitVec.ofNat 8 (0x61 + i)) ++ alphabetMarks

/-- `ALPHA[d]` (R129), used for `d < 83`. -/
def alpha (d : Nat) : Byte := alphabet.getD d 0

/-- `DIGIT(b)` (R129): the digit value of a byte, none for a byte outside the alphabet. -/
def digit (b : Byte) : Option Nat := alphabet.findIdx? (fun c => c == b)

/-- The `L` digits of `v`, most significant first (R130): byte `i` is digit `v // 83^(L-1-i) mod 83`. -/
def b83Digits (v L : Nat) : List Byte := (List.range L).map fun i => alpha (v / 83 ^ (L - 1 - i) % 83)

/-- `B83E(v, L)` (R130): the digits, or INVALID_LENGTH with the length where `v` does not fit. -/
def b83e (v L : Nat) : Except Stop (List Byte) := if 83 ^ L ≤ v then raise .invalidLength L else .ok (b83Digits v L)

/-- `B83D(s)` (R132) from index `k` on with the value so far: the value, or the index and byte of the first character outside the
alphabet. -/
def b83dFrom : Nat → Nat → List Byte → Except (Nat × Byte) Nat
  | _, v, [] => .ok v
  | k, v, b :: bs =>
    match digit b with
    | none => .error (k, b)
    | some d => b83dFrom (k + 1) (v * 83 + d) bs

/-- `B83D(s)` (R132). -/
def b83d (s : List Byte) : Except (Nat × Byte) Nat := b83dFrom 0 0 s

/-- The payload of INVALID_CHARACTER (60_exceptions.md R201): offset in [15:8], byte in [7:0]. -/
def charInfo (k : Nat) (b : Byte) : Nat := k * 256 + b.toNat

/-- The digit in HASH byte `k`, or INVALID_CHARACTER (R133, 44_hash_codec.md R171, R174). -/
def hashDigit (s : State) (k : Nat) : Except Stop Nat := do
  let b ← hashRead s k
  match digit b with
  | none => raise .invalidCharacter (charInfo k b)
  | some d => .ok d

/-- `B83D` of HASH bytes `k .. k+L-1` with the value so far (R132, R133): each byte is read and looked up before the next one is
read, so the first bad byte ends it. Log 12. -/
def hashValue (s : State) : Nat → Nat → Nat → Except Stop Nat
  | _, 0, v => .ok v
  | k, L + 1, v => do
    let d ← hashDigit s k
    hashValue s (k + 1) L (v * 83 + d)

/-- The results of B83_ENC (R131). The payload of BOUNDS is the command word (60_exceptions.md R201, Log 18). -/
def b83EncRun (off : BitVec 8) (len : BitVec 4) (s : State) : Except Stop State :=
  if 256 < off.toNat + len.toNat then raise .bounds (Sys2Proof.encode (.b83Enc off len)).toNat
  else do
    let bs ← b83e s.opa.toNat len.toNat
    .ok { s with mem := hashStore s.mem off.toNat bs }

/-- B83_ENC OFF, LEN (R131). -/
def execB83Enc (off : BitVec 8) (len : BitVec 4) (s : State) : Host.Outcome State Fault Refusal :=
  finish s (b83EncRun off len s)

/-- The results of B83_DEC (R133). -/
def b83DecRun (off : BitVec 8) (len : BitVec 4) (s : State) : Except Stop State :=
  if 256 < off.toNat + len.toNat then raise .bounds (Sys2Proof.encode (.b83Dec off len)).toNat
  else do
    let v ← hashValue s off.toNat len.toNat 0
    .ok { s with res := BitVec.ofNat 64 v }

/-- B83_DEC OFF, LEN (R133). -/
def execB83Dec (off : BitVec 8) (len : BitVec 4) (s : State) : Host.Outcome State Fault Refusal :=
  finish s (b83DecRun off len s)

end Sys2Proof.Machine
end

