-- ==== Sys2Proof/Machine/Gamma.lean ====
section
/-! DEFINITION. The gamma unit (41_gamma.md): the look-up table, the encoder and the commands GAMMA_DEC and GAMMA_ENC. -/

namespace Sys2Proof.Machine

/-- `LIN_LUT[v]` (R140). -/
def linLut (v : Byte) : F64 :=
  let x := fpDiv (fpOfNat v.toNat) (fpLit 255 1)
  if fpLe x (fpLit 4045 100000) then fpDiv x (fpLit 1292 100)
  else pow64 (fpDiv (fpAdd x (fpLit 55 1000)) (fpLit 1055 1000)) (fpLit 24 10)

/-- `GENC(x)` (R141), 0 .. 255. The exponent `1/2.4` is `RN(5/12)` (00_scope.md R11). -/
def genc (x : F64) : Nat :=
  let v := clampf x fpZero fpOne
  let u :=
    if fpLe v (fpLit 31308 10000000) then
      fpAdd (fpMul (fpMul v (fpLit 1292 100)) (fpLit 255 1)) (fpLit 1 2)
    else
      fpAdd (fpMul (fpSub (fpMul (fpLit 1055 1000) (pow64 v (fpLit 5 12))) (fpLit 55 1000)) (fpLit 255 1)) (fpLit 1 2)
  (clampi (fpFloor u) 0 255).toNat

/-- The results of GAMMA_DEC (R142). -/
def gammaDecRun (imm : BitVec 8) (s : State) : Except Stop State := .ok { s with res := linLut imm }

/-- GAMMA_DEC IMM8 (R142). -/
def execGammaDec (imm : BitVec 8) (s : State) : Host.Outcome State Fault Refusal := finish s (gammaDecRun imm s)

/-- The results of GAMMA_ENC (R143). -/
def gammaEncRun (s : State) : Except Stop State := do
  let x ← finiteOperand opaIndex s.opa
  .ok { s with res := BitVec.ofNat 64 (genc x) }

/-- GAMMA_ENC (R143). -/
def execGammaEnc (s : State) : Host.Outcome State Fault Refusal := finish s (gammaEncRun s)

end Sys2Proof.Machine
end

