-- ==== Sys2Proof/Machine/Quantizer.lean ====
section
/-! DEFINITION. The quantizer and dequantizer (42_quantizer.md) and the commands QUANT_MAX, QUANT_AC and DEQUANT_AC. -/

namespace Sys2Proof.Machine

/-- `DCQ(r, g, b)` (R150): the three gamma-encoded samples, R in bits [23:16]. -/
def dcq (t : Triple) : Nat := genc t.r * 65536 + genc t.g * 256 + genc t.b

/-- `DCD(v)` (R151). -/
def dcd (v : Nat) : Triple :=
  ⟨linLut (BitVec.ofNat 8 (v / 65536)), linLut (BitVec.ofNat 8 (v / 256)), linLut (BitVec.ofNat 8 v)⟩

/-- `QMAXF(a)` (R152), 0 .. 82. -/
def qmaxf (a : F64) : Nat := (clampi (fpFloor (fpSub (fpMul a (fpLit 166 1)) (fpLit 1 2))) 0 82).toNat

/-- `MAXV(q)` (R152). -/
def maxv (q : Nat) : F64 := fpDiv (fpOfNat (q + 1)) (fpLit 166 1)

/-- `signPow(t, 0.5)` as R154 computes it: the correctly rounded root of the magnitude, with the sign of `t`. -/
def signSqrt (t : F64) : F64 := if fpLt t fpZero then fpNeg (fpSqrt (fpAbs t)) else fpSqrt (fpAbs t)

/-- `QACF(v, m)` (R154), 0 .. 18. -/
def qacf (v m : F64) : Nat :=
  (clampi (fpFloor (fpAdd (fpMul (signSqrt (fpDiv v m)) (fpLit 9 1)) (fpLit 95 10))) 0 18).toNat

/-- `ACQ(r, g, b, m)` (R154), 0 .. 6858. -/
def acq (t : Triple) (m : F64) : Nat := qacf t.r m * 361 + qacf t.g m * 19 + qacf t.b m

/-- `DQF(q, m)` (R155), the inverse signed power `t * |t|` (90_conflicts.md C1). -/
def dqf (q : Nat) (m : F64) : F64 :=
  let t := fpDiv (fpOfInt ((q : Int) - 9)) (fpLit 9 1)
  fpMul (fpMul t (fpAbs t)) m

/-- `ACD(v, m)` (R155). -/
def acd (v : Nat) (m : F64) : Triple := ⟨dqf (v / 361) m, dqf (v / 19 % 19) m, dqf (v % 19) m⟩

/-- The results of QUANT_MAX (R153). -/
def quantMaxRun (s : State) : Except Stop State := do
  let a ← finiteOperand opaIndex s.opa
  .ok { s with res := BitVec.ofNat 64 (qmaxf a) }

/-- QUANT_MAX (R153). -/
def execQuantMax (s : State) : Host.Outcome State Fault Refusal := finish s (quantMaxRun s)

/-- The results of QUANT_AC (R154): OPB must be finite and above 0. -/
def quantAcRun (s : State) : Except Stop State := do
  let v ← finiteOperand opaIndex s.opa
  let m ← finiteOperand opbIndex s.opb
  if fpLe m fpZero then raise .operand opbIndex
  else .ok { s with res := BitVec.ofNat 64 (qacf v m) }

/-- QUANT_AC (R154). -/
def execQuantAc (s : State) : Host.Outcome State Fault Refusal := finish s (quantAcRun s)

/-- The results of DEQUANT_AC (R155). -/
def dequantAcRun (imm : BitVec 8) (s : State) : Except Stop State := do
  let m ← finiteOperand opbIndex s.opb
  .ok { s with res := dqf imm.toNat m }

/-- DEQUANT_AC IMM8 (R155). -/
def execDequantAc (imm : BitVec 8) (s : State) : Host.Outcome State Fault Refusal := finish s (dequantAcRun imm s)

end Sys2Proof.Machine
end

