-- ==== Sys2Proof/Machine/Transform.lean ====
section
/-! DEFINITION. The transform engine (43_transform.md): the forward and inverse sums and the commands FDCT and IDCT. The two basis
functions multiply in the orders R162 and R163 print (90_conflicts.md C5). -/

namespace Sys2Proof.Machine

/-- `COS64(RN(RN(RN(PI64 * f64(u)) * f64(v)) / f64(n)))`: R162 uses it with the component index first, R163 with the pixel
coordinate first. -/
def cosTerm (u v n : Nat) : F64 := cos64 (fpDiv (fpMul (fpMul pi64 (fpOfNat u)) (fpOfNat v)) (fpOfNat n))

/-- The three running sums, each started at +0.0 (R162, R163). -/
def zeroTriple : Triple := ⟨fpZero, fpZero, fpZero⟩

/-- The R, G and B samples of a pixel word (10_state.md R52); A is not read. -/
def pixSample (p : Word) (c : Nat) : Byte := p.extractLsb' (8 * c) 8

/-- The basis product of R162 for component `(i, j)` at pixel `(x, y)` of a `W x H` image. -/
def fdctBasis (i j x y W H : Nat) : F64 := fpMul (cosTerm i x W) (cosTerm j y H)

/-- One pixel added to the sums of R162: `RN(sum + RN(basis * LIN_LUT[sample]))`. -/
def fdctAdd (basis : F64) (p : Word) (t : Triple) : Triple :=
  ⟨fpAdd t.r (fpMul basis (linLut (pixSample p 0))), fpAdd t.g (fpMul basis (linLut (pixSample p 1))),
    fpAdd t.b (fpMul basis (linLut (pixSample p 2)))⟩

/-- The sums of R162 over the pixel words of an image, rows outer and columns inner: word `k` is pixel `(k mod W, k // W)`. -/
def fdctSums (px : List Word) (i j W H : Nat) : Triple :=
  px.zipIdx.foldl (fun t pk => fdctAdd (fdctBasis i j (pk.2 % W) (pk.2 / W) W H) pk.1 t) zeroTriple

/-- The scale of R162: `RN(norm / f64(W * H))`. -/
def fdctScale (i j W H : Nat) : F64 := fpDiv (if i = 0 ∧ j = 0 then fpOne else fpLit 2 1) (fpOfNat (W * H))

/-- Component `(i, j)` (R162). -/
def fdctEntry (px : List Word) (i j W H : Nat) : Triple :=
  let t := fdctSums px i j W H
  let scale := fdctScale i j W H
  ⟨fpMul t.r scale, fpMul t.g scale, fpMul t.b scale⟩

/-- The component grid of an image (R162): entry `k` is component `(k mod X, k // X)`. -/
def fdctGrid (px : List Word) (X Y W H : Nat) : Grid :=
  ⟨fdctEntry px 0 0 W H, (List.range' 1 (X * Y - 1)).map fun k => fdctEntry px (k % X) (k / X) W H⟩

/-- One component added to the sums of R163 at pixel `(x, y)`: `RN(sum + RN(component * basis))`. -/
def idctAdd (basis : F64) (c : Triple) (t : Triple) : Triple :=
  ⟨fpAdd t.r (fpMul c.r basis), fpAdd t.g (fpMul c.g basis), fpAdd t.b (fpMul c.b basis)⟩

/-- The basis product of R163. -/
def idctBasis (i j x y W H : Nat) : F64 := fpMul (cosTerm x i W) (cosTerm y j H)

/-- The sums of R163 at pixel `(x, y)`, components in ascending index. -/
def idctSums (g : Grid) (X x y W H : Nat) : Triple :=
  (g.dc :: g.ac).zipIdx.foldl (fun t ck => idctAdd (idctBasis (ck.2 % X) (ck.2 / X) x y W H) ck.1 t) zeroTriple

/-- The pixel word of a linear colour triple (R163): gamma-encoded samples, A = 0xFF. -/
def pixWord (t : Triple) : Word :=
  (0xFF : Byte) ++ BitVec.ofNat 8 (genc t.b) ++ BitVec.ofNat 8 (genc t.g) ++ BitVec.ofNat 8 (genc t.r)

/-- The pixel grid of a component grid (R163), rows outer and columns inner. -/
def idctPixels (g : Grid) (X W H : Nat) : List Word :=
  (List.range (W * H)).map fun k => pixWord (idctSums g X (k % W) (k / W) W H)

/-- The results of FDCT (R162). The pixel words are read before the sums are formed (Log 13). -/
def fdctRun (s : State) : Except Stop State := do
  let (X, Y) ← chkComp s
  let (W, H) ← chkDim s
  let px ← pixReads s 0 (W * H)
  .ok { s with mem := gridStore s.mem (fdctGrid px X Y W H) }

/-- FDCT (R162). -/
def execFdct (s : State) : Host.Outcome State Fault Refusal := finish s (fdctRun s)

/-- The results of IDCT (R163). -/
def idctRun (s : State) : Except Stop State := do
  let (X, Y) ← chkComp s
  let (W, H) ← chkDim s
  let g ← gridOperand s (X * Y)
  .ok { s with mem := pixStore s.mem (idctPixels g X W H) }

/-- IDCT (R163). -/
def execIdct (s : State) : Host.Outcome State Fault Refusal := finish s (idctRun s)

end Sys2Proof.Machine
end

