-- ==== Sys2Proof/Machine/HashCodec.lean ====
section
/-! DEFINITION. The hash codec (44_hash_codec.md): the header parse, the quantize and dequantize passes and the commands COMPONENTS,
QENC, QDEC, ENCODE and DECODE. -/

namespace Sys2Proof.Machine

/-- What the hash encoder produces (R173): the bytes of the hash, the quantized maximum and the normalisation value. -/
structure HashOut where
  bytes : List Byte
  q : Nat
  m : F64
deriving DecidableEq, Repr

/-- What the hash decoder produces (R174). -/
structure HashIn where
  X : Nat
  Y : Nat
  q : Nat
  m : F64
  grid : Grid
deriving DecidableEq, Repr

/-- The payload of INVALID_HASH (60_exceptions.md R201): HASHLEN in [24:16], the reason in [1:0]. -/
def hashInfo (Lh reason : Nat) : Nat := Lh * 65536 + reason

/-- PARSEHDR (R171): the counts X and Y. -/
def parseHdr (s : State) : Except Stop (Nat × Nat) :=
  let Lh := s.hashlen.toNat
  if Lh < 6 then raise .invalidHash (hashInfo Lh 0)
  else do
    let d ← hashDigit s 0
    if 80 < d then raise .invalidHash (hashInfo Lh 2)
    else if Lh ≠ 4 + 2 * ((d % 9 + 1) * (d / 9 + 1)) then raise .invalidHash (hashInfo Lh 1)
    else .ok (d % 9 + 1, d / 9 + 1)

/-- The counts as the register COMP holds them (10_state.md R30). -/
def storeCounts (X Y : Nat) (s : State) : State := { s with xc := BitVec.ofNat 4 X, yc := BitVec.ofNat 4 Y }

/-- MAXQ and MAXVAL (10_state.md R35, R36). -/
def storeMax (q : Nat) (m : F64) (s : State) : State := { s with maxq := BitVec.ofNat 7 q, maxval := m }

/-! ### Quantizing -/

/-- One channel of the maximum of R173. -/
def maxAbs (a x : F64) : F64 := if fpLt a (fpAbs x) then fpAbs x else a

/-- The largest magnitude of the AC channels (R173), from +0.0 up. -/
def maxAc (ac : List Triple) : F64 := ac.foldl (fun a t => maxAbs (maxAbs (maxAbs a t.r) t.g) t.b) fpZero

/-- The AC fields of R173, two digits each. -/
def acFields (m : F64) : List Triple → Except Stop (List Byte)
  | [] => .ok []
  | t :: ts => do
    let b ← b83e (acq t m) 2
    let bs ← acFields m ts
    .ok (b ++ bs)

/-- The quantized maximum and the normalisation value of R173: 0 and 1.0 where there is no AC term. -/
def acScale (ac : List Triple) : Nat × F64 := if ac.isEmpty then (0, fpOne) else (qmaxf (maxAc ac), maxv (qmaxf (maxAc ac)))

/-- QENCF (R173) on a grid of X x Y components. -/
def qencf (X Y : Nat) (g : Grid) : Except Stop HashOut := do
  let (q, m) := acScale g.ac
  let flag ← b83e ((X - 1) + (Y - 1) * 9) 1
  let qd ← b83e q 1
  let dc ← b83e (dcq g.dc) 4
  let ac ← acFields m g.ac
  .ok ⟨flag ++ qd ++ dc ++ ac, q, m⟩

/-- The stores of QENCF (R173): the hash from HASH byte 0 on, HASHLEN, MAXQ and MAXVAL. -/
def storeHash (X Y : Nat) (h : HashOut) (s : State) : State :=
  storeMax h.q h.m { s with mem := hashStore s.mem 0 h.bytes, hashlen := BitVec.ofNat 9 (4 + 2 * (X * Y)) }

/-! ### Dequantizing -/

/-- The signed PUNCH (R174): 0 acts as 1 (90_conflicts.md C4). -/
def punchValue (s : State) : Int := if s.punch.toInt = 0 then 1 else s.punch.toInt

/-- The AC entries of R174 from component `k` on: the field of component `k` is HASH bytes `4+2k` and `5+2k`. -/
def acEntries (s : State) (m : F64) : Nat → Nat → Except Stop (List Triple)
  | _, 0 => .ok []
  | k, n + 1 => do
    let v ← hashValue s (4 + 2 * k) 2 0
    let ts ← acEntries s m (k + 1) n
    .ok (acd v m :: ts)

/-- QDECF (R174). -/
def qdecf (s : State) : Except Stop HashIn := do
  let (X, Y) ← parseHdr s
  let q ← hashDigit s 1
  let m := fpMul (maxv q) (fpOfInt (punchValue s))
  let dc ← hashValue s 2 4 0
  if 0xFFFFFF < dc then raise .dcRange dc
  else do
    let ac ← acEntries s m 1 (X * Y - 1)
    .ok ⟨X, Y, q, m, ⟨dcd dc, ac⟩⟩

/-- The stores of QDEC (R174): COMP, MAXQ, MAXVAL and the entries. -/
def storeDecoded (h : HashIn) (s : State) : State :=
  storeMax h.q h.m (storeCounts h.X h.Y { s with mem := gridStore s.mem h.grid })

/-! ### The commands -/

/-- The results of COMPONENTS (R172). -/
def componentsRun (s : State) : Except Stop State := do
  let (X, Y) ← parseHdr s
  .ok (storeCounts X Y s)

/-- COMPONENTS (R172). -/
def execComponents (s : State) : Host.Outcome State Fault Refusal := finish s (componentsRun s)

/-- The results of QENC (R173). -/
def qencRun (s : State) : Except Stop State := do
  let (X, Y) ← chkComp s
  let g ← gridOperand s (X * Y)
  let h ← qencf X Y g
  .ok (storeHash X Y h s)

/-- QENC (R173). -/
def execQenc (s : State) : Host.Outcome State Fault Refusal := finish s (qencRun s)

/-- The results of QDEC (R174). -/
def qdecRun (s : State) : Except Stop State := do
  let h ← qdecf s
  .ok (storeDecoded h s)

/-- QDEC (R174). -/
def execQdec (s : State) : Host.Outcome State Fault Refusal := finish s (qdecRun s)

/-- The results of ENCODE (R176): the grid FDCT computes, quantized, and both stored. -/
def encodeRun (s : State) : Except Stop State := do
  let (X, Y) ← chkComp s
  let (W, H) ← chkDim s
  let px ← pixReads s 0 (W * H)
  let g := fdctGrid px X Y W H
  let h ← qencf X Y g
  .ok (storeHash X Y h { s with mem := gridStore s.mem g })

/-- ENCODE (R176). -/
def execEncode (s : State) : Host.Outcome State Fault Refusal := finish s (encodeRun s)

/-- The results of DECODE (R177): the grid QDEC computes and the pixels IDCT computes from it, both stored. -/
def decodeRun (s : State) : Except Stop State := do
  let h ← qdecf s
  let (W, H) ← chkDim s
  let t := storeDecoded h s
  .ok { t with mem := pixStore t.mem (idctPixels h.grid h.X W H) }

/-- DECODE (R177). -/
def execDecode (s : State) : Host.Outcome State Fault Refusal := finish s (decodeRun s)

end Sys2Proof.Machine
end

