-- ==== Sys2Proof/Machine/Dispatch.lean ====
section
/-! DEFINITION. The meaning of each command (30_encoding.md R104), one arm a constructor. -/

namespace Sys2Proof.Machine

def exec (i : Instr) (s : State) : Host.Outcome State Fault Refusal :=
  match i with
  | .nop => Sys2Proof.Machine.execNop s
  | .encode => Sys2Proof.Machine.execEncode s
  | .decode => Sys2Proof.Machine.execDecode s
  | .components => Sys2Proof.Machine.execComponents s
  | .fdct => Sys2Proof.Machine.execFdct s
  | .qenc => Sys2Proof.Machine.execQenc s
  | .qdec => Sys2Proof.Machine.execQdec s
  | .idct => Sys2Proof.Machine.execIdct s
  | .b83Enc off len => Sys2Proof.Machine.execB83Enc off len s
  | .b83Dec off len => Sys2Proof.Machine.execB83Dec off len s
  | .gammaDec imm => Sys2Proof.Machine.execGammaDec imm s
  | .gammaEnc => Sys2Proof.Machine.execGammaEnc s
  | .quantMax => Sys2Proof.Machine.execQuantMax s
  | .quantAc => Sys2Proof.Machine.execQuantAc s
  | .dequantAc imm => Sys2Proof.Machine.execDequantAc imm s

end Sys2Proof.Machine
end

