-- ==== Sys2Proof/Machine/HostPort.lean ====
section
/-! DEFINITION. The host port (20_memory.md): which accesses are accepted, reads and writes of registers, windows and reserved
offsets, the writes with side effects (R76), and what a busy engine changes (70_reset_and_hazards.md R241, R242). Soft reset and the
locations an abandoned command loses (R232). The engine's turn and the edges of `rst_n` (R230, R240). -/

namespace Sys2Proof.Machine

/-! ### Soft reset -/

/-- Whether some legal grid has a hash of this length (44_hash_codec.md R170, R171). -/
def hashLenLegal (Lh : Nat) : Bool := (List.range 81).any fun d => decide (Lh = 4 + 2 * ((d % 9 + 1) * (d / 9 + 1)))

/-- The first `n` entries of COMPRAM. -/
def entriesRange (n : Nat) : Nat × Nat := (compBase, 24 * n)

/-- HASH bytes `k .. k+n-1`. -/
def hashRange (k n : Nat) : Nat × Nat := (hashAddr k, n)

/-- The first `n` pixel words. -/
def pixRange (n : Nat) : Nat × Nat := (pixBase, 4 * n)

/-- The components of the hash in HASH, from HASHLEN (R170). -/
def hashEntries (s : State) : Nat := (s.hashlen.toNat - 4) / 2

/-- The window locations a command writes when it succeeds (10_state.md R57), from the registers it runs on. -/
def footprint (i : Instr) (s : State) : List (Nat × Nat) :=
  let n := s.xc.toNat * s.yc.toNat
  match i with
  | .encode => [entriesRange n, hashRange 0 (4 + 2 * n)]
  | .decode =>
    if hashLenLegal s.hashlen.toNat && (chkDim s).isOk then
      [entriesRange (hashEntries s), pixRange (s.width.toNat * s.height.toNat)]
    else []
  | .fdct => [entriesRange n]
  | .qenc => [hashRange 0 (4 + 2 * n)]
  | .qdec => if hashLenLegal s.hashlen.toNat then [entriesRange (hashEntries s)] else []
  | .idct => [pixRange (s.width.toNat * s.height.toNat)]
  | .b83Enc off len => [hashRange off.toNat len.toNat]
  | .nop | .components | .b83Dec _ _ | .gammaDec _ | .gammaEnc | .quantMax | .quantAc | .dequantAc _ => []

/-- The window locations an abandoned command would have written (70_reset_and_hazards.md R232): none if it would have ended in an
error, which commits nothing (10_state.md R57); those of R57 if it would have succeeded, or would have read a never-written location
and so might have. Log 14. -/
def wouldWrite (w : Word) (s : State) : List (Nat × Nat) :=
  match Sys2Proof.decode w with
  | .error _ => []
  | .ok i =>
    match exec i (acceptCommand w s) with
    | .next t => if t.err then [] else footprint i s
    | .fault _ => footprint i s
    | .refused _ => []

/-- The windows after a soft reset (R232): kept, but for what an abandoned command would have written. -/
def softResetMem (s : State) : Memory :=
  match s.engine with
  | .idle => s.mem
  | .running w => memForget s.mem (wouldWrite w s)

/-- Soft reset (R191, R232), in one step. -/
def softReset (s : State) : State := { resetRegisters s with mem := softResetMem s }

/-! ### Register writes -/

/-- A 64-bit register with its low half replaced. -/
def setLo (x : BitVec 64) (v : Word) : BitVec 64 := hi32 x ++ v

/-- A 64-bit register with its high half replaced. -/
def setHi (x : BitVec 64) (v : Word) : BitVec 64 := v ++ lo32 x

/-- A write to CTRL (10_state.md R26, 45_system.md R191). -/
def ctrlWrite (v : Word) (s : State) : State := if v.getLsbD 1 then softReset s else { s with irqEn := v.getLsbD 0 }

/-- A write to a register of an idle block (10_state.md R23 to R40). Reserved bits ignore what is written; read-only registers
ignore the write. -/
def regWrite (r : Reg) (v : Word) (s : State) : State :=
  match r with
  | .ctrl => ctrlWrite v s
  | .status => acknowledge v s
  | .cmd => acceptCommand v s
  | .comp => { s with xc := v.extractLsb' 0 4, yc := v.extractLsb' 4 4 }
  | .width => { s with width := v.extractLsb' 0 16 }
  | .height => { s with height := v.extractLsb' 0 16 }
  | .punch => { s with punch := v }
  | .hashlen => { s with hashlen := v.extractLsb' 0 9 }
  | .opaLo => { s with opa := setLo s.opa v }
  | .opaHi => { s with opa := setHi s.opa v }
  | .opbLo => { s with opb := setLo s.opb v }
  | .opbHi => { s with opb := setHi s.opb v }
  | .id | .pixcap | .errinfo | .maxq | .maxvalLo | .maxvalHi | .resLo | .resHi => s

/-! ### Host accesses -/

/-- The accesses that get an OKAY response (20_memory.md R74, R75): 32 bits aligned in the register region; 8, 16 or 32 bits
naturally aligned elsewhere. -/
def accessOk (a n : Nat) : Bool :=
  if a < 0x100 then decide (n = 4) && decide (a % 4 = 0)
  else decide (n = 1) || (decide (n = 2) && decide (a % 2 = 0)) || (decide (n = 4) && decide (a % 4 = 0))

/-- The two registers that accept writes while BUSY is 1 (70_reset_and_hazards.md R241). -/
def writableBusy (a : Nat) : Bool := decide (a = regOffset .ctrl) || decide (a = regOffset .status)

/-- An accepted write that is not dropped: to a register, to a window, or to a reserved offset, which ignores it (R75). -/
def storeAccepted (a n : Nat) (v : Word) (s : State) : State :=
  if a < 0x100 then
    match regAt a with
    | some r => regWrite r v s
    | none => s
  else if inWindow a then { s with mem := memWriteBytes s.mem a (leBytes n v.toNat) }
  else s

/-- MemWrite (00_scope.md R13): the state after a host write, and its response. -/
def hostWrite (a n : Nat) (v : Word) (s : State) : State × Response :=
  if !accessOk a n then (s, .slverr)
  else if busy s && !writableBusy a then (flagsDropped s, .okay 0)
  else (storeAccepted a n v s, .okay 0)

/-- The byte a host read of a window gives (70_reset_and_hazards.md R242, R244): free while the engine is busy or where it was never
written. Log 7, 8. -/
def windowByte (s : State) (a j : Nat) : Byte :=
  if busy s then Config.freeByte (s.freeCtr + j)
  else (memRead s.mem (a + j)).getD (Config.freeByte (s.freeCtr + j))

/-- MemRead (00_scope.md R13): the state after a host read, in which only the model's counter of free bytes differs (R76), and its
response. 20_memory.md R73 places the bytes of the access only; that the data bits above them are 0 in a narrow read of a window is
the model's choice (DESIGN CHOICE, Log 26). -/
def hostRead (a n : Nat) (s : State) : State × Response :=
  if !accessOk a n then (s, .slverr)
  else if a < 0x100 then
    match regAt a with
    | some r => (s, .okay (regRead s r))
    | none => (s, .okay 0)
  else if inWindow a then
    ({ s with freeCtr := s.freeCtr + n }, .okay (BitVec.ofNat 32 (ofLeBytes ((List.range n).map (windowByte s a)))))
  else (s, .okay 0)

/-- One host transaction (20_memory.md R71). While `rst_n` is asserted it is outside the model (70_reset_and_hazards.md R230, U13). -/
def hostTurn (t : HostTxn) (s : State) : Host.Outcome State Fault Refusal :=
  if s.inReset then .refused .hostAccessInReset
  else
    match t with
    | .read off n => .next { (hostRead off.toNat n s).1 with resp := some (hostRead off.toNat n s).2 }
    | .write off n v => .next { (hostWrite off.toNat n v s).1 with resp := some (hostWrite off.toNat n v s).2 }

/-! ### The engine and the reset pin -/

/-- The engine's turn (70_reset_and_hazards.md R240): a running command completes, an idle engine waits. A word that is no command
completes with ILLEGAL_CMD and itself as payload (30_encoding.md R107). -/
def engineTurn (s : State) : Host.Outcome State Fault Refusal :=
  if s.inReset then .next s
  else
    match s.engine with
    | .idle => .next s
    | .running w =>
      match Sys2Proof.decode w with
      | .ok i => exec i s
      | .error _ => .next (raiseError .illegalCmd w s)

/-- The next input with the rest still to arrive. With none left, the engine's turn comes: a running command must eventually
complete (R240). -/
def nextInput (s : State) : Event × State :=
  match s.pending with
  | [] => (.complete, s)
  | e :: es => (e, { s with pending := es })

/-- What an input does (70_reset_and_hazards.md R230, R240, 20_memory.md R79). Log 2, 16. -/
def takeEvent (e : Event) (s : State) : Host.Outcome State Fault Refusal :=
  match e with
  | .host t => hostTurn t s
  | .complete => engineTurn s
  | .rstAssert => .next { powerOnReset s with inReset := true }
  | .rstRelease => .next { s with inReset := false }

/-- A command word put where the next step runs it: accepted (20_memory.md R77), the block out of reset, its completion the next
input. Log 1. -/
def placeCommand (w : Word) (s : State) : State :=
  { acceptCommand w s with inReset := false, pending := .complete :: s.pending }

end Sys2Proof.Machine
end

