-- ==== Sys2Proof/Machine/Step.lean ====
section
/-! DEFINITION. One step of the block: its next input. -/

namespace Sys2Proof.Machine

/-- One step: the next input is taken (00_scope.md R14). -/
def step (s : State) : Host.Outcome State Fault Refusal := takeEvent (nextInput s).1 (nextInput s).2

/-- The state whose next step runs the command word `w` of `nbits` bits. -/
def State.withFetchWord (s : State) (nbits w : Nat) : State := placeCommand (BitVec.ofNat 32 (w % 2 ^ nbits)) s

end Sys2Proof.Machine
end

