-- ==== Sys2Proof/Safety.lean ====
section
/-! DEFINITION. What claims speak of: the invariant of the block, runs and safe runs, the locations a window holds, and the words of
the spec's rules as predicates (illegal words, the layout of a hash string). -/

namespace Sys2Proof.Machine

/-! ### The invariant -/

/-- The error codes the block produces, and 0 (60_exceptions.md R200): 5 and 11 .. 15 are never produced (U2, U14). -/
def errcodeLegal (c : BitVec 4) : Bool := decide (c.toNat ≤ 10) && decide (c.toNat ≠ 5)

/-- What holds of the block right after reset and after every step. -/
structure State.Inv (s : State) : Prop where
  /-- The memory keeps its canonical form. -/
  memWf : s.mem.wf = true
  /-- Only window locations hold bytes (20_memory.md R72). -/
  memInWindows : ∀ a, memRead s.mem a ≠ none → inWindow a = true
  /-- DONE and ERR are never both 1 (10_state.md R27). -/
  notDoneAndErr : ¬(s.done = true ∧ s.err = true)
  /-- While a command runs, DONE, ERR, ERRCODE and ERRINFO are 0 (70_reset_and_hazards.md R242). -/
  busyClear : busy s = true → s.done = false ∧ s.err = false ∧ s.errcode = 0 ∧ s.errinfo = 0
  /-- ERRCODE and ERRINFO are 0 after a command that succeeded (10_state.md R27, R29). -/
  doneClear : s.done = true → s.errcode = 0 ∧ s.errinfo = 0
  /-- ERR comes with an error code (60_exceptions.md R200). -/
  errHasCode : s.err = true → s.errcode ≠ 0
  /-- ERRCODE holds a code the block produces (60_exceptions.md R200). -/
  codeLegal : errcodeLegal s.errcode = true
  /-- MAXQ is 0 .. 82 (10_state.md R35). -/
  maxqRange : s.maxq.toNat ≤ 82
  /-- No command runs while the block is held in reset (70_reset_and_hazards.md R230). -/
  resetIdle : s.inReset = true → busy s = false

/-! ### Runs -/

/-- The states a run leads to, one step after another. -/
inductive Reaches : State → State → Prop
  | refl (s : State) : Reaches s s
  | step {s t u : State} : Reaches s t → Machine.step t = .next u → Reaches s u

/-- No run from `s` ends in a fault: no command reads a never-written location (70_reset_and_hazards.md R244). -/
def Safe (s : State) : Prop := ∀ t, Reaches s t → ∀ f, Machine.step t ≠ .fault f

/-! ### What the windows hold -/

/-- The bytes from offset `a` on are `bs`. -/
def HoldsBytes (m : Memory) (a : Nat) (bs : List Byte) : Prop := ∀ k (h : k < bs.length), memRead m (a + k) = some bs[k]

/-- A channel of a triple: 0 is R, 1 is G, 2 is B (00_scope.md R13). -/
def chan (t : Triple) (c : Nat) : F64 := if c = 0 then t.r else if c = 1 then t.g else t.b

/-- COMPRAM entries 0, 1, … are `ts` (10_state.md R51). -/
def HoldsEntries (s : State) (ts : List Triple) : Prop :=
  ∀ k (h : k < ts.length) c, c < 3 → compRead s k c = .ok (chan ts[k] c)

/-- PIXRAM words 0, 1, … are `ps` (10_state.md R52). -/
def HoldsPixels (s : State) (ps : List Word) : Prop := ∀ k (h : k < ps.length), pixRead s k = .ok ps[k]

/-- Every byte outside `n` bytes from `base` on reads as before. -/
def SameOutside (m m' : Memory) (base n : Nat) : Prop := ∀ a, ¬(base ≤ a ∧ a < base + n) → memRead m' a = memRead m a

/-- All channels of a triple are finite. -/
def finiteTriple (t : Triple) : Bool := fpIsFinite t.r && fpIsFinite t.g && fpIsFinite t.b

/-! ### How a command ends -/

/-- `s` after a completion without error that changes nothing but BUSY and DONE (10_state.md R41, R42). -/
def completed (s : State) : State := { s with engine := .idle, done := true }

/-- `s` after a completion with an error: BUSY 0, ERR 1, ERRCODE and ERRINFO as given, all else as before (60_exceptions.md R200,
R203). -/
def failedWith (code : BitVec 4) (info : Nat) (s : State) : State :=
  { s with engine := .idle, err := true, errcode := code, errinfo := BitVec.ofNat 32 info }

/-- The exponent field of a NaN or an infinity. -/
def expAllOnes (x : F64) : Prop := x.toNat / 2 ^ 52 % 2 ^ 11 = 2047

/-! ### Words of the rules -/

/-- The opcodes of 30_encoding.md R104. -/
def opcodes : List Nat := [0x00, 0x01, 0x02, 0x03, 0x10, 0x11, 0x12, 0x13, 0x20, 0x21, 0x30, 0x31, 0x40, 0x41, 0x42]

/-- The illegal encodings as 30_encoding.md R107 lists them, from the fields of R100: an opcode not in R104, a reserved bit set, a
format B command with LEN above 10. -/
def illegalWord (w : Word) : Bool :=
  let opc := w.toNat % 256
  if opc ∈ opcodes then
    if opc = 0x20 ∨ opc = 0x21 then decide (w.toNat / 2 ^ 20 ≠ 0) || decide (10 < w.toNat / 2 ^ 16 % 16)
    else if opc = 0x30 ∨ opc = 0x42 then decide (w.toNat / 2 ^ 16 ≠ 0)
    else decide (w.toNat / 2 ^ 8 ≠ 0)
  else true

/-- The hash string of 44_hash_codec.md R170: size flag, quantized maximum, DC value and AC values, each in its digits. -/
def hashString (X Y q dc : Nat) (acs : List Nat) : List Byte :=
  b83Digits ((X - 1) + (Y - 1) * 9) 1 ++ b83Digits q 1 ++ b83Digits dc 4 ++ acs.flatMap fun v => b83Digits v 2

/-- The error codes a command can end with (60_exceptions.md R202). -/
def errorsOf : Instr → List ErrCode
  | .nop | .gammaDec _ => []
  | .b83Enc _ _ => [.bounds, .invalidLength]
  | .b83Dec _ _ => [.bounds, .invalidCharacter]
  | .gammaEnc | .quantMax | .quantAc | .dequantAc _ => [.operand]
  | .fdct | .encode => [.invalidParameter, .invalidDimension]
  | .qenc => [.invalidParameter, .operand]
  | .idct => [.invalidParameter, .invalidDimension, .operand]
  | .components => [.invalidHash, .invalidCharacter]
  | .qdec => [.invalidHash, .invalidCharacter, .dcRange]
  | .decode => [.invalidHash, .invalidCharacter, .dcRange, .invalidDimension]

/-- The window locations a command reads (30_encoding.md R106); COMPONENTS reads byte 0 only (44_hash_codec.md R171, R172). -/
def operandRanges (i : Instr) (s : State) : List (Nat × Nat) :=
  match i with
  | .encode | .fdct => [(pixBase, 4 * (s.width.toNat * s.height.toNat))]
  | .qenc | .idct => [(compBase, 24 * (s.xc.toNat * s.yc.toNat))]
  | .components => [(hashBase, 1)]
  | .qdec | .decode => [(hashBase, s.hashlen.toNat)]
  | .b83Dec off len => [(hashBase + off.toNat, len.toNat)]
  | .nop | .b83Enc _ _ | .gammaDec _ | .gammaEnc | .quantMax | .quantAc | .dequantAc _ => []

/-- The state of an idle block that has just accepted a command word and runs it. -/
def accepted (i : Instr) (s : State) : State := acceptCommand (Sys2Proof.encode i) s

/-- The finite magnitude of a pattern in units of `2^-1074`, 0 for the others. -/
def fpUnits (x : F64) : Nat :=
  match fpView x with
  | .fin _ m e => m * 2 ^ e
  | .nan | .inf _ => 0

/-- The value of a finite pattern in units of `2^-1074`, with its sign. -/
def fpInt (x : F64) : Int := fpSigned (fpSign x) (fpUnits x)

/-- The units from which rounding overflows: halfway between the largest finite value and `2^1024`, where the tie goes to the even
significand of the latter (IEEE 754). -/
def fpOverflow : Nat := (2 ^ 54 - 1) * 2 ^ 2044

/-- `x` is `RN` of `(-1)^neg * n / d` units (00_scope.md R11), said without the rounding function: infinity on overflow, and else a
finite value than which none lies nearer, with an even significand where another lies as near. -/
def RoundsTo (neg : Bool) (n d : Nat) (x : F64) : Prop :=
  fpSign x = neg ∧ (fpOverflow * d ≤ n → fpMag x = fpInfMag) ∧
    (n < fpOverflow * d →
      fpIsFinite x = true ∧
        ∀ y : F64, fpIsFinite y = true →
          ((fpUnits x * d : Int) - n).natAbs ≤ ((fpUnits y * d : Int) - n).natAbs ∧
            (((fpUnits x * d : Int) - n).natAbs = ((fpUnits y * d : Int) - n).natAbs → fpUnits y = fpUnits x ∨ x.toNat % 2 = 0))

end Sys2Proof.Machine
end

