-- ==== Sys2Proof/Certificates/Slice0/Obligations.lean ====
section
/-! DEFINITION. The statements for the provers. Each docstring names the rule of spec/ it formalises. -/

open Sys2Proof Sys2Proof.Machine

/-! ### Encoding -/

/-- Decode and encode agree: a word decodes to a command exactly if that command is well formed and the word is its encoding, at
every value of its fields, so no bit of a word is dropped (R100 to R105). -/
def Obligations.DecodeAndEncodeAgree : Prop :=
  ∀ (w : Word) (i : Instr), Sys2Proof.decode w = .ok i ↔ i.wellFormed = true ∧ Sys2Proof.encode i = w

/-- The words the decoder rejects are exactly those R107 lists: an opcode not in R104, a reserved bit set, LEN above 10. -/
def Obligations.RejectedWordsAreTheIllegalOnes : Prop :=
  ∀ w : Word, illegalWord w = true ↔ ∃ e, Sys2Proof.decode w = .error e

/-- Words written out from the formats of R100 to R104 decode to the commands they stand for. -/
def Obligations.SampleWordsDecodeRight : Prop :=
  Sys2Proof.decode 0x00000000 = .ok .nop ∧ Sys2Proof.decode 0x00000001 = .ok .encode ∧
    Sys2Proof.decode 0x00000012 = .ok .qdec ∧ Sys2Proof.decode 0x00000013 = .ok .idct ∧
    Sys2Proof.decode 0x00060020 = .ok (.b83Enc 0 6) ∧ Sys2Proof.decode 0x000AF621 = .ok (.b83Dec 0xF6 10) ∧
    Sys2Proof.decode 0x0000BC30 = .ok (.gammaDec 0xBC) ∧ Sys2Proof.decode 0x00000041 = .ok .quantAc ∧
    Sys2Proof.decode 0x00000C42 = .ok (.dequantAc 12)

/-! ### Steps -/

/-- A step runs the decoded command: when the engine runs a word that decodes to `i` and its completion is the next input (or no
input is left), the step is `exec i`; a host transaction that comes first is served instead (R14, R240). The list of inputs is the
model's own (Log 2). -/
def Obligations.StepRunsTheDecodedCommand : Prop :=
  ∀ (s : State) (w : Word) (i : Instr), s.inReset = false → s.engine = .running w → Sys2Proof.decode w = .ok i →
    (s.pending = [] → step s = exec i s) ∧
      (∀ es, s.pending = .complete :: es → step s = exec i { s with pending := es }) ∧
        ∀ t es, s.pending = .host t :: es → step s = hostTurn t { s with pending := es }

/-- A command word written while the block is idle is accepted in the same transaction (R77): the word is latched, BUSY set, DONE,
ERR, ERRCODE and ERRINFO cleared, nothing else changed. -/
def Obligations.CommandWriteIsAccepted : Prop :=
  ∀ (s : State) (w : Word), s.inReset = false → busy s = false →
    hostTurn (.write 0x010 4 w) s =
      .next
        { s with engine := .running w, done := false, err := false, errcode := 0, errinfo := 0, resp := some (.okay 0) }

/-- An illegal command is accepted like any other and completes with ILLEGAL_CMD and the word as ERRINFO; nothing else changes
(R107). The step that runs an illegal word is that completion (the list of inputs is the model's own, Log 2). -/
def Obligations.IllegalCommandIsReported : Prop :=
  (∀ (s : State) (w : Word), s.inReset = false → busy s = false → illegalWord w = true →
      ∃ t, hostTurn (.write 0x010 4 w) s = .next t ∧ busy t = true ∧
        engineTurn t =
          .next
            { s with engine := .idle, done := false, err := true, errcode := 6, errinfo := w, resp := some (.okay 0) }) ∧
    ∀ (s : State) (w : Word), s.inReset = false → s.engine = .running w → illegalWord w = true →
      (s.pending = [] → step s = .next { s with engine := .idle, err := true, errcode := 6, errinfo := w }) ∧
        ∀ es, s.pending = .complete :: es →
          step s = .next { s with pending := es, engine := .idle, err := true, errcode := 6, errinfo := w }

/-- A command that completes after its acceptance leaves BUSY 0 and exactly one of DONE and ERR set (R77, R78). -/
def Obligations.CompletionSetsExactlyOneFlag : Prop :=
  ∀ (i : Instr) (s t : State), exec i (accepted i s) = .next t → busy t = false ∧ t.done = !t.err

/-- A host transaction while the block is held in reset is refused, nothing else is, and no command is (R230, U13; the refusal is
the model's choice, Log 16). -/
def Obligations.OnlyHostAccessInResetIsRefused : Prop :=
  (∀ i s r, exec i s ≠ .refused r) ∧
    (∀ s t, s.inReset = true → hostTurn t s = .refused .hostAccessInReset) ∧
      ∀ s r, step s = .refused r → r = .hostAccessInReset ∧ s.inReset = true ∧ ∃ t es, s.pending = .host t :: es

/-! ### NOP and the base-83 commands -/

/-- NOP completes and changes nothing but BUSY and DONE (R190). -/
def Obligations.NopOnlyCompletes : Prop := ∀ s : State, exec .nop s = .next (completed s)

/-- B83_ENC writes the digits of OPA, most significant first, to HASH bytes OFF .. OFF+LEN-1 and nothing else (R130, R131). The
bytes of the digits 0 to 82 are the 83 codes R129 prints, in its order. -/
def Obligations.B83EncWritesTheDigits : Prop :=
  (∀ (s : State) (off : BitVec 8) (len : BitVec 4), off.toNat + len.toNat ≤ 256 → s.opa.toNat < 83 ^ len.toNat →
      ∃ m, exec (.b83Enc off len) s = .next (completed { s with mem := m }) ∧
        (∀ k, k < len.toNat →
          memRead m (0x100 + (off.toNat + k)) = some (alpha (s.opa.toNat / 83 ^ (len.toNat - 1 - k) % 83))) ∧
        SameOutside s.mem m (0x100 + off.toNat) len.toNat) ∧
    (List.range 83).map alpha =
      [0x30, 0x31, 0x32, 0x33, 0x34, 0x35, 0x36, 0x37, 0x38, 0x39] ++
        [0x41, 0x42, 0x43, 0x44, 0x45, 0x46, 0x47, 0x48, 0x49, 0x4A, 0x4B, 0x4C, 0x4D, 0x4E, 0x4F, 0x50, 0x51, 0x52, 0x53, 0x54,
          0x55, 0x56, 0x57, 0x58, 0x59, 0x5A] ++
        [0x61, 0x62, 0x63, 0x64, 0x65, 0x66, 0x67, 0x68, 0x69, 0x6A, 0x6B, 0x6C, 0x6D, 0x6E, 0x6F, 0x70, 0x71, 0x72, 0x73, 0x74,
          0x75, 0x76, 0x77, 0x78, 0x79, 0x7A] ++
        [0x23, 0x24, 0x25, 0x2A, 0x2B, 0x2C, 0x2D, 0x2E, 0x3A, 0x3B, 0x3D, 0x3F, 0x40, 0x5B, 0x5D, 0x5E, 0x5F, 0x7B, 0x7C, 0x7D,
          0x7E]

/-- B83_ENC fails with BOUNDS past the buffer, and else with INVALID_LENGTH for a value that does not fit (R131). -/
def Obligations.B83EncErrors : Prop :=
  ∀ (s : State) (off : BitVec 8) (len : BitVec 4),
    (256 < off.toNat + len.toNat →
      exec (.b83Enc off len) s = .next (failedWith 8 (Sys2Proof.encode (.b83Enc off len)).toNat s)) ∧
    (off.toNat + len.toNat ≤ 256 → 83 ^ len.toNat ≤ s.opa.toNat →
      exec (.b83Enc off len) s = .next (failedWith 2 len.toNat s))

/-- B83_DEC reads the digits in HASH bytes OFF .. OFF+LEN-1 into RES and changes nothing else; up to 10 digits nothing is lost
(R132, R133). -/
def Obligations.B83DecReadsTheValue : Prop :=
  ∀ (s : State) (off : BitVec 8) (len : BitVec 4) (ds : List Nat), off.toNat + len.toNat ≤ 256 → ds.length = len.toNat →
    (∀ d ∈ ds, d < 83) → HoldsBytes s.mem (0x100 + off.toNat) (ds.map alpha) →
    exec (.b83Dec off len) s = .next (completed { s with res := BitVec.ofNat 64 (ds.foldl (fun v d => v * 83 + d) 0) }) ∧
      (len.toNat ≤ 10 → ds.foldl (fun v d => v * 83 + d) 0 < 2 ^ 64)

/-- B83_DEC fails with BOUNDS past the buffer; else with INVALID_CHARACTER at the lowest byte that is no digit, with its offset
and value; a never-written byte met before that is the fault UninitRead (R133, R85; that the bytes are read one by one is the
model's reading, Log 12). -/
def Obligations.B83DecErrors : Prop :=
  ∀ (s : State) (off : BitVec 8) (len : BitVec 4),
    (256 < off.toNat + len.toNat →
      exec (.b83Dec off len) s = .next (failedWith 8 (Sys2Proof.encode (.b83Dec off len)).toNat s)) ∧
    ∀ ds : List Nat, off.toNat + len.toNat ≤ 256 → ds.length < len.toNat → (∀ d ∈ ds, d < 83) →
      HoldsBytes s.mem (0x100 + off.toNat) (ds.map alpha) →
      (∀ b, memRead s.mem (0x100 + (off.toNat + ds.length)) = some b → (∀ d, d < 83 → alpha d ≠ b) →
        exec (.b83Dec off len) s = .next (failedWith 3 ((off.toNat + ds.length) * 256 + b.toNat) s)) ∧
      (memRead s.mem (0x100 + (off.toNat + ds.length)) = none → exec (.b83Dec off len) s = .fault .uninitRead)

/-- Round trip (R134): decoding the digits of a value gives it back, a string that decodes is the digits of its value, and B83_ENC
followed by B83_DEC of the same slice leaves RES = OPA whenever the first succeeds. -/
def Obligations.Base83RoundTrip : Prop :=
  (∀ v L, v < 83 ^ L → b83e v L = .ok (b83Digits v L) ∧ b83d (b83Digits v L) = .ok v) ∧
    (∀ bs v, b83d bs = .ok v → v < 83 ^ bs.length ∧ b83Digits v bs.length = bs) ∧
    ∀ (s t : State) (off : BitVec 8) (len : BitVec 4), len.toNat ≤ 10 →
      exec (.b83Enc off len) (accepted (.b83Enc off len) s) = .next t → t.done = true →
      ∃ u, exec (.b83Dec off len) (accepted (.b83Dec off len) t) = .next u ∧ u.done = true ∧ u.res = s.opa ∧ u.mem = t.mem

/-! ### The gamma and quantizer commands -/

/-- GAMMA_DEC completes at every sample and leaves LIN_LUT of it in RES, nothing else changed (R142). The entries that IEEE
arithmetic alone fixes are 0 to 10 and 255; the others are the power branch (R140). -/
def Obligations.GammaDecLooksUp : Prop :=
  (∀ (s : State) (imm : BitVec 8), exec (.gammaDec imm) s = .next (completed { s with res := linLut imm })) ∧
    (List.range 11).map (fun v => linLut (BitVec.ofNat 8 v)) =
      [0, 0x3F33E45677C176F7, 0x3F43E45677C176F7, 0x3F4DD681B3A23272, 0x3F53E45677C176F7, 0x3F58DD6C15B1D4B4,
        0x3F5DD681B3A23272, 0x3F6167CBA8C94818, 0x3F63E45677C176F7, 0x3F6660E146B9A5D5, 0x3F68DD6C15B1D4B4] ∧
    linLut 255 = 0x3FF0000000000000 ∧
    ∀ v : Byte, 11 ≤ v.toNat →
      linLut v = pow64 (fpDiv (fpAdd (fpDiv (fpOfNat v.toNat) (fpLit 255 1)) (fpLit 55 1000)) (fpLit 1055 1000)) (fpLit 24 10)

/-- The commands with one operand that must be finite. GAMMA_ENC leaves GENC of OPA in RES, QUANT_MAX leaves QMAXF of OPA, DEQUANT_AC
of any level leaves DQF of the level and OPB, and none changes anything else; a NaN or an infinity is OPERAND(0) for OPA, OPERAND(1)
for OPB (R143, R153, R155). -/
def Obligations.FiniteOperandCommands : Prop :=
  ∀ s : State,
    (¬expAllOnes s.opa →
        exec .gammaEnc s = .next (completed { s with res := BitVec.ofNat 64 (genc s.opa) }) ∧
          exec .quantMax s = .next (completed { s with res := BitVec.ofNat 64 (qmaxf s.opa) })) ∧
      (expAllOnes s.opa →
        exec .gammaEnc s = .next (failedWith 10 0 s) ∧ exec .quantMax s = .next (failedWith 10 0 s)) ∧
      ∀ imm : BitVec 8,
        (¬expAllOnes s.opb → exec (.dequantAc imm) s = .next (completed { s with res := dqf imm.toNat s.opb })) ∧
          (expAllOnes s.opb → exec (.dequantAc imm) s = .next (failedWith 10 1 s))

/-- GENC (R141): 0 .. 255; 0 for a NaN and at or below 0.0, 255 at or above 1.0; between them the linear branch up to 0.0031308, where
it is 10, and the power branch above; it gives back the samples 0 to 10 of LIN_LUT. -/
def Obligations.GencBranches : Prop :=
  (∀ x : F64, genc x ≤ 255 ∧ (fpIsNan x = true → genc x = 0) ∧ (fpLe x fpZero = true → genc x = 0) ∧
      (fpLe fpOne x = true → genc x = 255) ∧
      (fpLt fpZero x = true → fpLe x (fpLit 31308 10000000) = true →
        genc x =
          (clampi (fpFloor (fpAdd (fpMul (fpMul x (fpLit 1292 100)) (fpLit 255 1)) (fpLit 1 2))) 0 255).toNat) ∧
      (fpLt (fpLit 31308 10000000) x = true → fpLt x fpOne = true →
        genc x =
          (clampi
            (fpFloor
              (fpAdd (fpMul (fpSub (fpMul (fpLit 1055 1000) (pow64 x (fpLit 5 12))) (fpLit 55 1000)) (fpLit 255 1))
                (fpLit 1 2)))
            0 255).toNat)) ∧
    genc (fpLit 31308 10000000) = 10 ∧ ∀ v : Byte, v.toNat ≤ 10 → genc (linLut v) = v.toNat

/-- QUANT_AC of a finite OPA and a finite positive OPB leaves QACF of them in RES; a bad OPA is OPERAND(0), checked first, a bad
OPB, not finite or not above zero, OPERAND(1) (R154). -/
def Obligations.QuantAcQuantizes : Prop :=
  ∀ s : State,
    (expAllOnes s.opa → exec .quantAc s = .next (failedWith 10 0 s)) ∧
      (¬expAllOnes s.opa → (expAllOnes s.opb ∨ s.opb = 0 ∨ 2 ^ 63 ≤ s.opb.toNat) →
        exec .quantAc s = .next (failedWith 10 1 s)) ∧
      (¬expAllOnes s.opa → ¬(expAllOnes s.opb ∨ s.opb = 0 ∨ 2 ^ 63 ≤ s.opb.toNat) →
        exec .quantAc s = .next (completed { s with res := BitVec.ofNat 64 (qacf s.opa s.opb) }))

/-- The quantizers keep their ranges, so every field fits its digits and the hash encoder never raises INVALID_LENGTH (R156). -/
def Obligations.QuantizersFitTheirDigits : Prop :=
  (∀ v m, qacf v m ≤ 18) ∧ (∀ t m, acq t m ≤ 6858) ∧ (∀ a, qmaxf a ≤ 82) ∧ (∀ t, dcq t ≤ 0xFFFFFF) ∧ 6858 < 83 ^ 2 ∧
    82 < 83 ^ 1 ∧ 0xFFFFFF < 83 ^ 4 ∧
    ∀ X Y g, 1 ≤ X → X ≤ 9 → 1 ≤ Y → Y ≤ 9 → ∃ h, qencf X Y g = .ok h

/-- The ends and the middle of the dequantizer, exact for every finite `m` (R157): level 18 gives `m`, level 0 gives `-m`, level 9
gives a zero with the sign of `m`. The fields of an AC value and of a DC value come apart as R155 and R151 say. -/
def Obligations.DequantizerGridPoints : Prop :=
  (∀ m : F64, fpIsFinite m = true →
      dqf 18 m = m ∧ dqf 0 m = fpNeg m ∧ dqf 9 m = if fpSign m then 0x8000000000000000 else 0) ∧
    dqf 12 fpOne = 0x3FBC71C71C71C71C ∧ dqf 19 fpOne = 0x3FF3C0CA4587E6B8 ∧
    (∀ (a b c : Nat) (m : F64), b < 19 → c < 19 → acd (a * 361 + b * 19 + c) m = ⟨dqf a m, dqf b m, dqf c m⟩) ∧
    ∀ r g b : Byte, dcd (r.toNat * 65536 + g.toNat * 256 + b.toNat) = ⟨linLut r, linLut g, linLut b⟩

/-- The values R152 and R154 name. The maximum quantizer at its ends and on both sides of its first boundary; the normalisation value
`(q + 1) / 166`, rounded once; the AC quantizer of 0, `m` and `-m` for every finite `m` above 0, and inside its range; the packing
of the fields (R150, R154). -/
def Obligations.QuantizerCornerValues : Prop :=
  (∀ a, fpLt a fpZero = true → qmaxf a = 0) ∧
    [fpZero, fpLit 3 1000, 0x3F82818ACB90F6BE, 0x3F82818ACB90F6BF, 0x3FB999999999999A, 0x3FD0000000000000, 0x3FE0000000000000,
        0x7FE1CCF385EBC8A0].map qmaxf = [0, 0, 0, 1, 16, 41, 82, 82] ∧
    (∀ q, q ≤ 82 → RoundsTo false ((q + 1) * 2 ^ 1074) 166 (maxv q)) ∧
    (∀ m, fpIsFinite m = true → fpLt fpZero m = true →
      qacf fpZero m = 9 ∧ qacf 0x8000000000000000 m = 9 ∧ qacf m m = 18 ∧ qacf (fpNeg m) m = 0) ∧
    [0x3FA999999999999A, 0x3FC0000000000000, 0xBFC0000000000000, 0x3FF0000000000000, 0xBFF0000000000000].map
      (fun v => qacf v 0x3FE0000000000000) = [12, 14, 5, 18, 0] ∧
    (∀ t, dcq t = genc t.r * 2 ^ 16 + genc t.g * 2 ^ 8 + genc t.b) ∧
    ∀ t m, acq t m = qacf t.r m * 19 ^ 2 + qacf t.g m * 19 + qacf t.b m

/-- Quantizing a dequantized level of a normalisation value gives the level back (R157). -/
def Obligations.LevelsComeBack : Prop := ∀ Q q : Nat, Q ≤ 82 → q ≤ 18 → qacf (dqf q (maxv Q)) (maxv Q) = q

/-! ### The transform -/

/-- `RN` rounds to nearest, ties to even, with either sign, and overflows to infinity from halfway above the largest finite value on
(R11). -/
def Obligations.RoundingIsToNearestEven : Prop := ∀ (neg : Bool) (n d : Nat), 0 < d → RoundsTo neg n d (fpRound neg n d)

/-- Every operation is one rounding of the exact result (R11): sum, difference, product and quotient of finite values, and decimal
literals. An exact sum of 0 has the sign both terms have, else `+0.0`. An infinity keeps its value when a finite one is added.
Integers below `2^53` in magnitude convert exactly, and `floor` is the integer not above its argument. -/
def Obligations.OperationsRoundOnce : Prop :=
  (∀ x y : F64, fpIsFinite x = true → fpIsFinite y = true →
      (fpInt x + fpInt y ≠ 0 →
        RoundsTo (decide (fpInt x + fpInt y < 0)) (fpInt x + fpInt y).natAbs 1 (fpAdd x y)) ∧
      (fpInt x + fpInt y = 0 → fpAdd x y = if fpSign x && fpSign y then 0x8000000000000000 else 0) ∧
      (fpInt x - fpInt y ≠ 0 →
        RoundsTo (decide (fpInt x - fpInt y < 0)) (fpInt x - fpInt y).natAbs 1 (fpSub x y)) ∧
      (fpInt x - fpInt y = 0 → fpSub x y = if fpSign x && !fpSign y then 0x8000000000000000 else 0) ∧
      RoundsTo (fpSign x ^^ fpSign y) (fpUnits x * fpUnits y) (2 ^ 1074) (fpMul x y) ∧
      (fpUnits y ≠ 0 → RoundsTo (fpSign x ^^ fpSign y) (fpUnits x * 2 ^ 1074) (fpUnits y) (fpDiv x y))) ∧
    (∀ n d : Nat, 0 < d → RoundsTo false (n * 2 ^ 1074) d (fpLit n d)) ∧
    (∀ x y : F64, fpMag x = fpInfMag → fpIsFinite y = true → fpAdd x y = x ∧ fpAdd y x = x) ∧
    (∀ z : Int, z.natAbs < 2 ^ 53 → fpIsFinite (fpOfInt z) = true ∧ fpInt (fpOfInt z) = z * 2 ^ 1074) ∧
    ∀ x : F64, fpIsFinite x = true →
      ∃ z : Int, fpFloor x = .int z ∧ z * 2 ^ 1074 ≤ fpInt x ∧ fpInt x < (z + 1) * 2 ^ 1074

/-- SQRT is the correctly rounded square root (R11): of a positive finite value it is a positive finite value, and the exact root,
that of `u * 2^1074` units for a value of `u` units, lies on its side of the midpoint to every other finite value. Both zeros are
their own root, a negative value has none, and the integer root behind it is the floor of the root. -/
def Obligations.SquareRootIsCorrectlyRounded : Prop :=
  (∀ x : F64, fpIsFinite x = true → fpUnits x ≠ 0 →
      (fpSign x = false →
        fpIsFinite (fpSqrt x) = true ∧ fpSign (fpSqrt x) = false ∧
          ∀ y : F64, fpIsFinite y = true →
            (fpUnits (fpSqrt x) < fpUnits y →
              4 * (fpUnits x * 2 ^ 1074) < (fpUnits (fpSqrt x) + fpUnits y) * (fpUnits (fpSqrt x) + fpUnits y)) ∧
            (fpUnits y < fpUnits (fpSqrt x) →
              (fpUnits (fpSqrt x) + fpUnits y) * (fpUnits (fpSqrt x) + fpUnits y) < 4 * (fpUnits x * 2 ^ 1074))) ∧
        (fpSign x = true → fpIsNan (fpSqrt x) = true)) ∧
    (∀ x : F64, fpIsFinite x = true → fpUnits x = 0 → fpSqrt x = x) ∧ fpSqrt 0x7FF0000000000000 = 0x7FF0000000000000 ∧
    ∀ bits n : Nat, n < 4 ^ bits → isqrt bits n * isqrt bits n ≤ n ∧ n < (isqrt bits n + 1) * (isqrt bits n + 1)

/-- COS64 and POW64 have the properties R8 names. -/
def Obligations.NamedPropertiesOfCosAndPow : Prop :=
  cos64 fpZero = fpOne ∧ (∀ a, fpIsFinite a = true → fpLe fpMinusOne (cos64 a) = true ∧ fpLe (cos64 a) fpOne = true) ∧
    (∀ y, fpIsFinite y = true → pow64 fpOne y = fpOne) ∧
    ∀ x y, fpLe fpZero x = true → fpLe x fpOne = true → fpLt fpZero y = true →
      fpIsFinite (pow64 x y) = true ∧ fpLe fpZero (pow64 x y) = true ∧ fpLe (pow64 x y) fpOne = true

/-- The basis of the DC component is exactly 1.0 at every pixel, in both directions (R162, R163). -/
def Obligations.DcBasisIsOne : Prop :=
  ∀ x y W H : Nat, x < W → y < H → W < 65536 → H < 65536 →
    fdctBasis 0 0 x y W H = fpOne ∧ idctBasis 0 0 x y W H = fpOne

/-- The transforms follow the loops R162 and R163 print, every operation written out: the forward sums with rows outer and columns
inner, scaled once; the inverse sums with `j` outer and `i` inner; all from +0.0. A pixel word has R, G and B from bit 0 up and A =
0xFF. -/
def Obligations.TransformSumsFollowTheLoops : Prop :=
  (∀ (px : List Word) (i j W H : Nat), px.length = W * H →
      fdctSums px i j W H =
          (List.range H).foldl
            (fun t y =>
              (List.range W).foldl
                (fun t x =>
                  let p := px.getD (y * W + x) 0
                  let cx := cos64 (fpDiv (fpMul (fpMul pi64 (fpOfNat i)) (fpOfNat x)) (fpOfNat W))
                  let cy := cos64 (fpDiv (fpMul (fpMul pi64 (fpOfNat j)) (fpOfNat y)) (fpOfNat H))
                  let basis := fpMul cx cy
                  ⟨fpAdd t.r (fpMul basis (linLut (p.extractLsb' 0 8))), fpAdd t.g (fpMul basis (linLut (p.extractLsb' 8 8))),
                    fpAdd t.b (fpMul basis (linLut (p.extractLsb' 16 8)))⟩)
                t)
            (⟨0, 0, 0⟩ : Triple) ∧
        fdctEntry px i j W H =
          (let t := fdctSums px i j W H
          let scale := fpDiv (if i = 0 ∧ j = 0 then fpOne else fpLit 2 1) (fpOfNat (W * H))
          ⟨fpMul t.r scale, fpMul t.g scale, fpMul t.b scale⟩)) ∧
    (∀ (g : Grid) (X Y x y W H : Nat), g.ac.length + 1 = X * Y →
      idctSums g X x y W H =
        (List.range Y).foldl
          (fun t j =>
            (List.range X).foldl
              (fun t i =>
                let c := (g.dc :: g.ac).getD (i + j * X) ⟨0, 0, 0⟩
                let cx := cos64 (fpDiv (fpMul (fpMul pi64 (fpOfNat x)) (fpOfNat i)) (fpOfNat W))
                let cy := cos64 (fpDiv (fpMul (fpMul pi64 (fpOfNat y)) (fpOfNat j)) (fpOfNat H))
                let basis := fpMul cx cy
                ⟨fpAdd t.r (fpMul c.r basis), fpAdd t.g (fpMul c.g basis), fpAdd t.b (fpMul c.b basis)⟩)
              t)
          (⟨0, 0, 0⟩ : Triple)) ∧
    ∀ t : Triple,
      (pixWord t).extractLsb' 0 8 = BitVec.ofNat 8 (genc t.r) ∧ (pixWord t).extractLsb' 8 8 = BitVec.ofNat 8 (genc t.g) ∧
        (pixWord t).extractLsb' 16 8 = BitVec.ofNat 8 (genc t.b) ∧ (pixWord t).extractLsb' 24 8 = 0xFF

/-- FDCT with legal counts and dimensions and its pixels written stores component `(k mod X, k // X)` in entry `k` and changes
nothing else (R162); where a byte of the pixel words `0 .. W*H-1` is never written it is the fault UninitRead (R85, R244). -/
def Obligations.FdctStoresTheComponents : Prop :=
  ∀ s : State, 1 ≤ s.xc.toNat → s.xc.toNat ≤ 9 → 1 ≤ s.yc.toNat → s.yc.toNat ≤ 9 → 1 ≤ s.width.toNat → 1 ≤ s.height.toNat →
    s.width.toNat * s.height.toNat ≤ Config.pixCap →
    (∀ px : List Word, px.length = s.width.toNat * s.height.toNat → HoldsPixels s px →
      ∃ m, exec .fdct s = .next (completed { s with mem := m }) ∧
        HoldsEntries { s with mem := m }
          ((List.range (s.xc.toNat * s.yc.toNat)).map fun k =>
            fdctEntry px (k % s.xc.toNat) (k / s.xc.toNat) s.width.toNat s.height.toNat) ∧
        SameOutside s.mem m 0x800 (24 * (s.xc.toNat * s.yc.toNat))) ∧
      ∀ a, 0x40000 ≤ a → a < 0x40000 + 4 * (s.width.toNat * s.height.toNat) → memRead s.mem a = none →
        exec .fdct s = .fault .uninitRead

/-- IDCT with legal counts and dimensions and its entries written and finite stores the word of each pixel and changes nothing
else (R163). -/
def Obligations.IdctStoresThePixels : Prop :=
  ∀ (s : State) (g : Grid), 1 ≤ s.xc.toNat → s.xc.toNat ≤ 9 → 1 ≤ s.yc.toNat → s.yc.toNat ≤ 9 → 1 ≤ s.width.toNat →
    1 ≤ s.height.toNat → s.width.toNat * s.height.toNat ≤ Config.pixCap → g.ac.length + 1 = s.xc.toNat * s.yc.toNat →
    HoldsEntries s (g.dc :: g.ac) → (∀ t ∈ g.dc :: g.ac, finiteTriple t = true) →
    ∃ m, exec .idct s = .next (completed { s with mem := m }) ∧
      HoldsPixels { s with mem := m }
        ((List.range (s.width.toNat * s.height.toNat)).map fun k =>
          pixWord (idctSums g s.xc.toNat (k % s.width.toNat) (k / s.width.toNat) s.width.toNat s.height.toNat)) ∧
      SameOutside s.mem m 0x40000 (4 * (s.width.toNat * s.height.toNat))

/-- The commands that take the component counts from COMP check them first, X before Y; those that take dimensions check them
next: W, H, capacity (R160, R161, R202). -/
def Obligations.CountsThenDimensionsAreChecked : Prop :=
  ∀ (s : State) (i : Instr), i ∈ [Instr.fdct, .idct, .qenc, .encode] →
    ((s.xc.toNat < 1 ∨ 9 < s.xc.toNat) → exec i s = .next (failedWith 1 s.xc.toNat s)) ∧
      (1 ≤ s.xc.toNat → s.xc.toNat ≤ 9 → (s.yc.toNat < 1 ∨ 9 < s.yc.toNat) →
        exec i s = .next (failedWith 1 (256 + s.yc.toNat) s)) ∧
      (i ≠ .qenc → 1 ≤ s.xc.toNat → s.xc.toNat ≤ 9 → 1 ≤ s.yc.toNat → s.yc.toNat ≤ 9 →
        (s.width.toNat = 0 → exec i s = .next (failedWith 7 0 s)) ∧
          (1 ≤ s.width.toNat → s.height.toNat = 0 → exec i s = .next (failedWith 7 1 s)) ∧
          (1 ≤ s.width.toNat → 1 ≤ s.height.toNat → Config.pixCap < s.width.toNat * s.height.toNat →
            exec i s = .next (failedWith 7 2 s)))

/-- QENC and IDCT report the first channel, in ascending `3k + c`, that is not finite (R163, R173, R202). -/
def Obligations.FirstBadChannelIsReported : Prop :=
  ∀ (s : State) (i : Instr) (j : Nat) (x : F64), i = .qenc ∨ (i = .idct ∧ chkDim s = .ok (s.width.toNat, s.height.toNat)) →
    1 ≤ s.xc.toNat → s.xc.toNat ≤ 9 → 1 ≤ s.yc.toNat → s.yc.toNat ≤ 9 → j < 3 * (s.xc.toNat * s.yc.toNat) →
    (∀ l, l < j → ∃ y, compRead s (l / 3) (l % 3) = .ok y ∧ ¬expAllOnes y) →
    (compRead s (j / 3) (j % 3) = .ok x → expAllOnes x → exec i s = .next (failedWith 10 (0x100 + j) s)) ∧
      (compRead s (j / 3) (j % 3) = .error .uninitRead → exec i s = .fault .uninitRead)

/-! ### The hash codec -/

/-- COMPONENTS of a legal header writes the counts to COMP and changes nothing else (R171, R172). -/
def Obligations.ComponentsWritesTheCounts : Prop :=
  ∀ (s : State) (X Y : Nat), 1 ≤ X → X ≤ 9 → 1 ≤ Y → Y ≤ 9 → s.hashlen.toNat = 4 + 2 * (X * Y) →
    memRead s.mem 0x100 = some (alpha ((X - 1) + (Y - 1) * 9)) →
    exec .components s = .next (completed { s with xc := BitVec.ofNat 4 X, yc := BitVec.ofNat 4 Y })

/-- The header errors of COMPONENTS, QDEC and DECODE in their order: too short, a byte that is no digit, a flag above 80, a length
that does not match; a never-written flag byte is the fault UninitRead (R171, R202, R85). -/
def Obligations.HeaderErrors : Prop :=
  ∀ (s : State) (i : Instr), i ∈ [Instr.components, .qdec, .decode] →
    (s.hashlen.toNat < 6 → exec i s = .next (failedWith 4 (s.hashlen.toNat * 65536) s)) ∧
      (6 ≤ s.hashlen.toNat →
        (memRead s.mem 0x100 = none → exec i s = .fault .uninitRead) ∧
          (∀ b, memRead s.mem 0x100 = some b → (∀ d, d < 83 → alpha d ≠ b) → exec i s = .next (failedWith 3 b.toNat s)) ∧
          ∀ d, d < 83 → memRead s.mem 0x100 = some (alpha d) →
            (80 < d → exec i s = .next (failedWith 4 (s.hashlen.toNat * 65536 + 2) s)) ∧
              (d ≤ 80 → s.hashlen.toNat ≠ 4 + 2 * ((d % 9 + 1) * (d / 9 + 1)) →
                exec i s = .next (failedWith 4 (s.hashlen.toNat * 65536 + 1) s)))

/-- QENC with legal counts and finite entries writes the hash string of R170, HASHLEN, MAXQ and MAXVAL, and nothing else; a grid
of one component has quantized maximum 0 and normalisation value 1.0. Where there are AC terms the maximum is over every channel of
every AC triple: no finite one has a larger magnitude, and it is +0.0 or the magnitude of one of them (R173). -/
def Obligations.QencWritesTheHash : Prop :=
  (∀ (s : State) (g : Grid), 1 ≤ s.xc.toNat → s.xc.toNat ≤ 9 → 1 ≤ s.yc.toNat → s.yc.toNat ≤ 9 →
      g.ac.length + 1 = s.xc.toNat * s.yc.toNat → HoldsEntries s (g.dc :: g.ac) →
      (∀ t ∈ g.dc :: g.ac, finiteTriple t = true) →
      ∃ m q v, exec .qenc s =
          .next (completed
            { s with
              mem := m, hashlen := BitVec.ofNat 9 (4 + 2 * (s.xc.toNat * s.yc.toNat)), maxq := BitVec.ofNat 7 q,
              maxval := v }) ∧
        (g.ac = [] → q = 0 ∧ v = fpOne) ∧ (g.ac ≠ [] → q = qmaxf (maxAc g.ac) ∧ v = maxv q) ∧
        HoldsBytes m 0x100 (hashString s.xc.toNat s.yc.toNat q (dcq g.dc) (g.ac.map fun t => acq t v)) ∧
        SameOutside s.mem m 0x100 (4 + 2 * (s.xc.toNat * s.yc.toNat))) ∧
    ∀ ac : List Triple,
      (∀ t ∈ ac, ∀ c, c < 3 → fpIsFinite (chan t c) = true → fpLe (fpAbs (chan t c)) (maxAc ac) = true) ∧
        (maxAc ac = fpZero ∨ ∃ t ∈ ac, ∃ c, c < 3 ∧ maxAc ac = fpAbs (chan t c))

/-- QDEC of a hash string of R170 writes the counts, the quantized maximum, its value scaled by PUNCH (0 acting as 1) and the
dequantized entries, and nothing else (R174). -/
def Obligations.QdecReadsTheHash : Prop :=
  ∀ (s : State) (X Y q dc : Nat) (acs : List Nat), 1 ≤ X → X ≤ 9 → 1 ≤ Y → Y ≤ 9 → q < 83 → dc ≤ 0xFFFFFF →
    acs.length + 1 = X * Y → (∀ v ∈ acs, v < 6889) → s.hashlen.toNat = 4 + 2 * (X * Y) →
    HoldsBytes s.mem 0x100 (hashString X Y q dc acs) →
    ∃ m v, v = fpMul (maxv q) (fpOfInt (if s.punch = 0 then 1 else s.punch.toInt)) ∧
      exec .qdec s =
        .next (completed
          { s with mem := m, xc := BitVec.ofNat 4 X, yc := BitVec.ofNat 4 Y, maxq := BitVec.ofNat 7 q, maxval := v }) ∧
      HoldsEntries { s with mem := m } (dcd dc :: acs.map fun a => acd a v) ∧ SameOutside s.mem m 0x800 (24 * (X * Y))

/-- The field errors of QDEC and DECODE. The first byte after the size flag that is no digit is reported with its offset and value,
the DC value being in range where the byte stands in an AC field; a never-written byte met first is the fault UninitRead (R174,
R202, R85; that the bytes are read one by one is the model's reading, Log 12). A DC field above 0xFFFFFF is DC_RANGE with the
value (R174, R202). -/
def Obligations.HashFieldErrors : Prop :=
  (∀ (s : State) (i : Instr) (X Y : Nat) (ds : List Nat), i ∈ [Instr.qdec, .decode] → 1 ≤ X → X ≤ 9 → 1 ≤ Y → Y ≤ 9 →
      s.hashlen.toNat = 4 + 2 * (X * Y) → 1 ≤ ds.length → ds.length < 4 + 2 * (X * Y) → (∀ d ∈ ds, d < 83) →
      ds.getD 0 0 = (X - 1) + (Y - 1) * 9 →
      (6 ≤ ds.length → ((ds.getD 2 0 * 83 + ds.getD 3 0) * 83 + ds.getD 4 0) * 83 + ds.getD 5 0 ≤ 0xFFFFFF) →
      HoldsBytes s.mem 0x100 (ds.map alpha) →
      (∀ b, memRead s.mem (0x100 + ds.length) = some b → (∀ d, d < 83 → alpha d ≠ b) →
        exec i s = .next (failedWith 3 (ds.length * 256 + b.toNat) s)) ∧
        (memRead s.mem (0x100 + ds.length) = none → exec i s = .fault .uninitRead)) ∧
    ∀ (s : State) (i : Instr) (X Y q dc : Nat) (rest : List Byte), i ∈ [Instr.qdec, .decode] → 1 ≤ X → X ≤ 9 → 1 ≤ Y → Y ≤ 9 →
      q < 83 → 0xFFFFFF < dc → dc < 83 ^ 4 → s.hashlen.toNat = 4 + 2 * (X * Y) →
      HoldsBytes s.mem 0x100 (hashString X Y q dc [] ++ rest) → exec i s = .next (failedWith 9 dc s)

/-- ENCODE with legal counts and dimensions and its pixels written stores the components FDCT computes and the hash QENC makes of
them, HASHLEN, MAXQ and MAXVAL, and nothing else (R176), the maximum being that of `QencWritesTheHash` (R173). Where a byte of the pixel
words `0 .. W*H-1` is never written it is the fault UninitRead (R85, R244). -/
def Obligations.EncodeStoresGridAndHash : Prop :=
  ∀ s : State, 1 ≤ s.xc.toNat → s.xc.toNat ≤ 9 → 1 ≤ s.yc.toNat → s.yc.toNat ≤ 9 → 1 ≤ s.width.toNat → 1 ≤ s.height.toNat →
    s.width.toNat * s.height.toNat ≤ Config.pixCap →
    (∀ px : List Word, px.length = s.width.toNat * s.height.toNat → HoldsPixels s px →
      ∃ m g q v, g = fdctGrid px s.xc.toNat s.yc.toNat s.width.toNat s.height.toNat ∧
        exec .encode s =
          .next (completed
            { s with
              mem := m, hashlen := BitVec.ofNat 9 (4 + 2 * (s.xc.toNat * s.yc.toNat)), maxq := BitVec.ofNat 7 q,
              maxval := v }) ∧
        (g.ac = [] → q = 0 ∧ v = fpOne) ∧ (g.ac ≠ [] → q = qmaxf (maxAc g.ac) ∧ v = maxv q) ∧
        HoldsEntries { s with mem := m } (g.dc :: g.ac) ∧
        HoldsBytes m 0x100 (hashString s.xc.toNat s.yc.toNat q (dcq g.dc) (g.ac.map fun t => acq t v)) ∧
        ∀ a, ¬(0x800 ≤ a ∧ a < 0x800 + 24 * (s.xc.toNat * s.yc.toNat)) →
          ¬(0x100 ≤ a ∧ a < 0x100 + (4 + 2 * (s.xc.toNat * s.yc.toNat))) → memRead m a = memRead s.mem a) ∧
      ∀ a, 0x40000 ≤ a → a < 0x40000 + 4 * (s.width.toNat * s.height.toNat) → memRead s.mem a = none →
        exec .encode s = .fault .uninitRead

/-- DECODE of a hash string of R170 with legal dimensions stores what QDEC stores and the pixels IDCT computes from it, and
nothing else (R177). -/
def Obligations.DecodeStoresGridAndPixels : Prop :=
  ∀ (s : State) (X Y q dc : Nat) (acs : List Nat), 1 ≤ X → X ≤ 9 → 1 ≤ Y → Y ≤ 9 → q < 83 → dc ≤ 0xFFFFFF →
    acs.length + 1 = X * Y → (∀ v ∈ acs, v < 6889) → s.hashlen.toNat = 4 + 2 * (X * Y) →
    HoldsBytes s.mem 0x100 (hashString X Y q dc acs) → 1 ≤ s.width.toNat → 1 ≤ s.height.toNat →
    s.width.toNat * s.height.toNat ≤ Config.pixCap →
    ∃ m v g, v = fpMul (maxv q) (fpOfInt (if s.punch = 0 then 1 else s.punch.toInt)) ∧
      g = Grid.mk (dcd dc) (acs.map fun a => acd a v) ∧
      exec .decode s =
        .next (completed
          { s with mem := m, xc := BitVec.ofNat 4 X, yc := BitVec.ofNat 4 Y, maxq := BitVec.ofNat 7 q, maxval := v }) ∧
      HoldsEntries { s with mem := m } (g.dc :: g.ac) ∧
      HoldsPixels { s with mem := m }
        ((List.range (s.width.toNat * s.height.toNat)).map fun k =>
          pixWord (idctSums g X (k % s.width.toNat) (k / s.width.toNat) s.width.toNat s.height.toNat)) ∧
      ∀ a, ¬(0x800 ≤ a ∧ a < 0x800 + 24 * (X * Y)) →
        ¬(0x40000 ≤ a ∧ a < 0x40000 + 4 * (s.width.toNat * s.height.toNat)) → memRead m a = memRead s.mem a

/-- DECODE checks the hash before the dimensions: of a valid hash, W, H and capacity are reported (R177, R202). -/
def Obligations.DecodeChecksDimensionsLast : Prop :=
  ∀ (s : State) (X Y q dc : Nat) (acs : List Nat), 1 ≤ X → X ≤ 9 → 1 ≤ Y → Y ≤ 9 → q < 83 → dc ≤ 0xFFFFFF →
    acs.length + 1 = X * Y → (∀ v ∈ acs, v < 6889) → s.hashlen.toNat = 4 + 2 * (X * Y) →
    HoldsBytes s.mem 0x100 (hashString X Y q dc acs) →
    (s.width.toNat = 0 → exec .decode s = .next (failedWith 7 0 s)) ∧
      (1 ≤ s.width.toNat → s.height.toNat = 0 → exec .decode s = .next (failedWith 7 1 s)) ∧
      (1 ≤ s.width.toNat → 1 ≤ s.height.toNat → Config.pixCap < s.width.toNat * s.height.toNat →
        exec .decode s = .next (failedWith 7 2 s))

/-- ENCODE succeeds with a final state exactly if FDCT succeeds and QENC, with no host access between them, then succeeds with that
final state (R176). Where ENCODE fails it ends as FDCT alone does, so OPERAND cannot occur, and it faults exactly if FDCT does. -/
def Obligations.EncodeIsFdctThenQenc : Prop :=
  ∀ s : State,
    (∀ u, (exec .encode (accepted .encode s) = .next u ∧ u.done = true) ↔
        ∃ t, exec .fdct (accepted .fdct s) = .next t ∧ t.done = true ∧ exec .qenc (accepted .qenc t) = .next u ∧ u.done = true) ∧
      (∀ u, exec .encode (accepted .encode s) = .next u → u.err = true → exec .fdct (accepted .fdct s) = .next u) ∧
      ∀ f, exec .encode (accepted .encode s) = .fault f ↔ exec .fdct (accepted .fdct s) = .fault f

/-- DECODE succeeds with a final state exactly if QDEC succeeds and IDCT, with no host access between them, then succeeds with that
final state (R177). It faults exactly if QDEC does, and where it fails, either QDEC alone ends so, or QDEC succeeds and IDCT then
fails with the same dimension error, never with OPERAND. -/
def Obligations.DecodeIsQdecThenIdct : Prop :=
  ∀ s : State,
    (∀ u, (exec .decode (accepted .decode s) = .next u ∧ u.done = true) ↔
        ∃ t, exec .qdec (accepted .qdec s) = .next t ∧ t.done = true ∧ exec .idct (accepted .idct t) = .next u ∧ u.done = true) ∧
      (∀ u, exec .decode (accepted .decode s) = .next u → u.err = true →
        exec .qdec (accepted .qdec s) = .next u ∨
          (u.errcode = 7 ∧
            ∃ t v, exec .qdec (accepted .qdec s) = .next t ∧ t.done = true ∧ exec .idct (accepted .idct t) = .next v ∧
              v.err = true ∧ v.errcode = 7 ∧ v.errinfo = u.errinfo)) ∧
      ∀ f, exec .decode (accepted .decode s) = .fault f ↔ exec .qdec (accepted .qdec s) = .fault f

/-- After a successful QENC or ENCODE, HASHLEN is 4 + 2XY and a following COMPONENTS succeeds and leaves COMP, and all else, as it
was (R175 law 1). -/
def Obligations.ComponentsAfterEncodingChangesNothing : Prop :=
  ∀ (i : Instr) (s t : State), i ∈ [Instr.qenc, .encode] → exec i (accepted i s) = .next t → t.done = true →
    t.hashlen.toNat = 4 + 2 * (t.xc.toNat * t.yc.toNat) ∧ exec .components (accepted .components t) = .next t

/-- A hash QENC writes is always accepted by QDEC, whatever PUNCH holds, which gives back the counts and MAXQ; with PUNCH = 1 it gives
back MAXVAL too where there is an AC term, and MAXV(0) for QENC's 1.0 where there is none (R175 laws 2 and 3). -/
def Obligations.QdecAcceptsWhatQencWrites : Prop :=
  ∀ s t : State, exec .qenc (accepted .qenc s) = .next t → t.done = true →
    ∃ u, exec .qdec (accepted .qdec t) = .next u ∧ u.done = true ∧ u.maxq = t.maxq ∧ u.xc = t.xc ∧ u.yc = t.yc ∧
      (t.punch = 1 →
        (1 < t.xc.toNat * t.yc.toNat → u.maxval = t.maxval) ∧
          (t.xc.toNat * t.yc.toNat = 1 → t.maxval = fpOne ∧ u.maxval = maxv 0))

/-! ### What commands write, and how they fail -/

/-- A command that succeeds writes every location of its row of R57 and no other window location. -/
def Obligations.SuccessWritesExactlyTheFootprint : Prop :=
  ∀ (i : Instr) (s t : State), exec i (accepted i s) = .next t → t.done = true →
    ∀ a, (inRanges (footprint i s) a = true → (memRead t.mem a).isSome = true ∧ inWindow a = true) ∧
      (inRanges (footprint i s) a = false → memRead t.mem a = memRead s.mem a)

/-- A command that fails commits nothing: only BUSY, ERR, ERRCODE and ERRINFO change, and the error is one of those R202 lists for
the command (R200, R202, R203). -/
def Obligations.FailureCommitsNothing : Prop :=
  ∀ (i : Instr) (s t : State), exec i (accepted i s) = .next t → t.err = true →
    ∃ e info, e ∈ errorsOf i ∧ t = failedWith (errCodeBits e) info (accepted i s)

/-- The only fault of a command is UninitRead, and then a window location that the command reads is never written (R85, R106, R244);
of the commands that read no window there is none. -/
def Obligations.FaultsOnlyOnNeverWritten : Prop :=
  ∀ (i : Instr) (s : State) (f : Fault), exec i s = .fault f →
    f = .uninitRead ∧
      (∃ a, inRanges (operandRanges i s) a = true ∧ inWindow a = true ∧ memRead s.mem a = none) ∧
      i ∉ [Instr.nop, .gammaEnc, .quantMax, .quantAc] ∧ (∀ off len, i ≠ .b83Enc off len) ∧
      (∀ imm, i ≠ .gammaDec imm) ∧ ∀ imm, i ≠ .dequantAc imm

/-! ### The host port -/

/-- An access that is not aligned 32-bit in the register region, or not naturally aligned 8, 16 or 32-bit elsewhere, gets SLVERR
and changes nothing but the response (R74). -/
def Obligations.BusErrorsChangeNothing : Prop :=
  ∀ (s : State) (off : BitVec 19) (n : Nat) (v : Word), s.inReset = false →
    (off.toNat < 0x100 → ¬(n = 4 ∧ off.toNat % 4 = 0)) →
    (0x100 ≤ off.toNat → ¬(n = 1 ∨ (n = 2 ∧ off.toNat % 2 = 0) ∨ (n = 4 ∧ off.toNat % 4 = 0))) →
    hostTurn (.read off n) s = .next { s with resp := some .slverr } ∧
      hostTurn (.write off n v) s = .next { s with resp := some .slverr }

/-- What an aligned 32-bit read at each offset of R23 returns, busy or not (R242): every field at its bits, reserved bits and CMD 0. -/
def Obligations.RegisterReads : Prop :=
  (∀ (s : State) (r : Reg), s.inReset = false →
      hostTurn (.read (BitVec.ofNat 19 (regOffset r)) 4) s = .next { s with resp := some (.okay (regRead s r)) }) ∧
    ∀ s : State, s.inReset = false →
      ∀ p ∈
        ([(0x000, 0x42483833), (0x004, Config.pixCap), (0x008, s.irqEn.toNat),
          (0x00C, (busy s).toNat + 2 * s.done.toNat + 4 * s.err.toNat + 8 * s.wdrop.toNat + 256 * s.errcode.toNat), (0x010, 0),
          (0x014, s.errinfo.toNat), (0x018, 0), (0x01C, 0), (0x020, s.xc.toNat + 16 * s.yc.toNat), (0x024, s.width.toNat),
          (0x028, s.height.toNat), (0x02C, s.punch.toNat), (0x030, s.hashlen.toNat), (0x034, s.maxq.toNat),
          (0x038, s.maxval.toNat % 2 ^ 32), (0x03C, s.maxval.toNat / 2 ^ 32), (0x040, s.opa.toNat % 2 ^ 32),
          (0x044, s.opa.toNat / 2 ^ 32), (0x048, s.opb.toNat % 2 ^ 32), (0x04C, s.opb.toNat / 2 ^ 32),
          (0x050, s.res.toNat % 2 ^ 32), (0x054, s.res.toNat / 2 ^ 32)] : List (BitVec 19 × Nat)),
        p.2 < 2 ^ 32 ∧ hostTurn (.read p.1 4) s = .next { s with resp := some (.okay (BitVec.ofNat 32 p.2)) }

/-- What an idle 32-bit write at each offset of R23 does: the writable fields take their bits of the value, reserved bits are ignored,
a write to a read-only register changes nothing; what the registers then read as (R23 to R39). -/
def Obligations.RegisterWrites : Prop :=
  ∀ (s : State) (v : Word), busy s = false →
    (v.getLsbD 1 = false → hostWrite 0x008 4 v s = ({ s with irqEn := v.getLsbD 0 }, .okay 0)) ∧
      hostWrite 0x020 4 v s = ({ s with xc := v.extractLsb' 0 4, yc := v.extractLsb' 4 4 }, .okay 0) ∧
      hostWrite 0x024 4 v s = ({ s with width := v.extractLsb' 0 16 }, .okay 0) ∧
      hostWrite 0x028 4 v s = ({ s with height := v.extractLsb' 0 16 }, .okay 0) ∧
      hostWrite 0x02C 4 v s = ({ s with punch := v }, .okay 0) ∧
      hostWrite 0x030 4 v s = ({ s with hashlen := v.extractLsb' 0 9 }, .okay 0) ∧
      hostWrite 0x040 4 v s = ({ s with opa := s.opa.extractLsb' 32 32 ++ v }, .okay 0) ∧
      hostWrite 0x044 4 v s = ({ s with opa := v ++ s.opa.extractLsb' 0 32 }, .okay 0) ∧
      hostWrite 0x048 4 v s = ({ s with opb := s.opb.extractLsb' 32 32 ++ v }, .okay 0) ∧
      hostWrite 0x04C 4 v s = ({ s with opb := v ++ s.opb.extractLsb' 0 32 }, .okay 0) ∧
      (∀ a ∈ [0x000, 0x004, 0x014, 0x034, 0x038, 0x03C, 0x050, 0x054], hostWrite a 4 v s = (s, .okay 0)) ∧
      let w (r : Reg) : State := (hostWrite (regOffset r) 4 v s).1
      (v.getLsbD 1 = false → regRead (w .ctrl) .ctrl = v &&& 1) ∧
        regRead (w .comp) .comp = v &&& 0xFF ∧ regRead (w .width) .width = v &&& 0xFFFF ∧
        regRead (w .height) .height = v &&& 0xFFFF ∧ regRead (w .punch) .punch = v ∧
        regRead (w .hashlen) .hashlen = v &&& 0x1FF ∧ regRead (w .opaLo) .opaLo = v ∧ regRead (w .opaHi) .opaHi = v ∧
        regRead (w .opbLo) .opbLo = v ∧ regRead (w .opbHi) .opbHi = v ∧
        ∀ r ∈ [Reg.id, .pixcap, .errinfo, .maxq, .maxvalLo, .maxvalHi, .resLo, .resHi], w r = s

/-- Reserved offsets read 0 and ignore writes with an OKAY response, for every access of a legal width and alignment (R40, R75); a
write while a command runs also sets WDROP (R241). -/
def Obligations.ReservedOffsetsReadZero : Prop :=
  ∀ (s : State) (off : BitVec 19) (n : Nat) (v : Word), s.inReset = false →
    ((n = 4 ∧ off.toNat % 4 = 0 ∧ (off.toNat = 0x018 ∨ off.toNat = 0x01C ∨ (0x058 ≤ off.toNat ∧ off.toNat ≤ 0x0FC))) ∨
      ((n = 1 ∨ (n = 2 ∧ off.toNat % 2 = 0) ∨ (n = 4 ∧ off.toNat % 4 = 0)) ∧
        ((0x200 ≤ off.toNat ∧ off.toNat ≤ 0x7FF) ∨ (0xF98 ≤ off.toNat ∧ off.toNat ≤ 0x3FFFF) ∨
          0x40000 + 4 * Config.pixCap ≤ off.toNat))) →
    hostTurn (.read off n) s = .next { s with resp := some (.okay 0) } ∧
      (busy s = false → hostTurn (.write off n v) s = .next { s with resp := some (.okay 0) }) ∧
      (busy s = true → hostTurn (.write off n v) s = .next { s with wdrop := true, resp := some (.okay 0) })

/-- While a command runs, an accepted write to any offset other than CTRL and STATUS changes only WDROP, which it sets; a write to
CTRL or STATUS takes effect as when idle; a rejected one sets nothing (R241). -/
def Obligations.BusyWritesAreDropped : Prop :=
  ∀ (s : State) (a n : Nat) (v : Word), busy s = true →
    (accessOk a n = true → a ≠ 0x008 → a ≠ 0x00C → hostWrite a n v s = ({ s with wdrop := true }, .okay 0)) ∧
      hostWrite 0x008 4 v s = ((if v.getLsbD 1 then softReset s else { s with irqEn := v.getLsbD 0 }), .okay 0) ∧
      hostWrite 0x00C 4 v s =
        ({ s with
          done := s.done && !v.getLsbD 1, err := s.err && !v.getLsbD 2, wdrop := s.wdrop && !v.getLsbD 3 }, .okay 0) ∧
      (accessOk a n = false → hostWrite a n v s = (s, .slverr))

/-- No read has a side effect: only the model's counter of free bytes and the response can differ (R76). While a command runs, the
response to a window read does not depend on what the windows hold: R242 says only that the value is unspecified, and that it is a
free value of this kind is the model's choice (Log 7). -/
def Obligations.ReadsHaveNoSideEffect : Prop :=
  (∀ (s t : State) (off : BitVec 19) (n : Nat), hostTurn (.read off n) s = .next t →
      t = { s with freeCtr := t.freeCtr, resp := t.resp }) ∧
    ∀ (s : State) (a n : Nat) (m : Memory), busy s = true → (hostRead a n s).2 = (hostRead a n { s with mem := m }).2

/-- An idle window write stores data bits `[8i+7 : 8i]` at byte `a + i` and changes no other byte (R73). An idle window read of bytes
the window holds, written by the host or stored by a command, returns byte `a + i` in data bits `[8i+7 : 8i]` (R73, R79), in a
location that is written in part too (the model's reading, Log 8). The data bits above the bytes of a narrow read are 0 (the model's
choice, Log 26), so a read of the same bytes returns what was written. The engine's reads see that layout: channel `c` of entry `k`
is the 8 bytes from offset `0x800 + 8*(3*k + c)` on and pixel word `k` the 4 bytes from `0x40000 + 4*k` on, least significant byte
first (R51, R52, R73), and each is never written if one of its bytes is (R244). -/
def Obligations.WindowReadsReturnWhatWasWritten : Prop :=
  (∀ (s : State) (a n : Nat) (v : Word), busy s = false → inWindow a = true → accessOk a n = true →
      let t := (hostWrite a n v s).1
      t = { s with mem := t.mem } ∧ (hostWrite a n v s).2 = .okay 0 ∧
        (∀ i, i < n → memRead t.mem (a + i) = some (v.extractLsb' (8 * i) 8)) ∧
        (hostRead a n t).2 = .okay (BitVec.ofNat 32 (v.toNat % 256 ^ n)) ∧ SameOutside s.mem t.mem a n) ∧
    (∀ (s : State) (a n : Nat), busy s = false → inWindow a = true → accessOk a n = true →
      ∃ w : Word, (hostRead a n s).2 = .okay w ∧
        (∀ i b, i < n → memRead s.mem (a + i) = some b → w.extractLsb' (8 * i) 8 = b) ∧ ∀ k, 8 * n ≤ k → w.getLsbD k = false) ∧
    (∀ (s : State) (k c : Nat),
      (∀ x : F64, compRead s k c = .ok x ↔
        ∀ i, i < 8 → memRead s.mem (0x800 + 8 * (3 * k + c) + i) = some (x.extractLsb' (8 * i) 8)) ∧
      (compRead s k c = .error .uninitRead ↔ ∃ i, i < 8 ∧ memRead s.mem (0x800 + 8 * (3 * k + c) + i) = none)) ∧
    ∀ (s : State) (k : Nat),
      (∀ p : Word, pixRead s k = .ok p ↔
        ∀ i, i < 4 → memRead s.mem (0x40000 + 4 * k + i) = some (p.extractLsb' (8 * i) 8)) ∧
      (pixRead s k = .error .uninitRead ↔ ∃ i, i < 4 ∧ memRead s.mem (0x40000 + 4 * k + i) = none)

/-- A write to STATUS, busy or not, clears each of DONE, ERR and WDROP whose written bit is 1 and nothing else; 0x0000000E clears
all three and lowers the interrupt line (R192). -/
def Obligations.StatusIsWriteOneToClear : Prop :=
  ∀ (s : State) (v : Word), s.inReset = false →
    hostTurn (.write 0x00C 4 v) s =
      .next
        { s with
          done := s.done && !v.getLsbD 1, err := s.err && !v.getLsbD 2, wdrop := s.wdrop && !v.getLsbD 3,
          resp := some (.okay 0) } ∧
      ∃ t, hostTurn (.write 0x00C 4 0x0000000E) s = .next t ∧ (t.done = false ∧ t.err = false ∧ t.wdrop = false) ∧ irq t = false

/-- The interrupt line (R210): it follows IRQ_EN, DONE and ERR, is low after acceptance and after a soft reset, and rises at the
completion of a command, with or without error, when IRQ_EN is 1. WDROP does not raise it. -/
def Obligations.InterruptFollowsCompletion : Prop :=
  ∀ s : State,
    (irq s = true ↔ s.irqEn = true ∧ (s.done = true ∨ s.err = true)) ∧
      (∀ w, irq (acceptCommand w s) = false) ∧ irq (softReset s) = false ∧
      (∀ i t, exec i s = .next t → irq t = s.irqEn) ∧ irq { s with wdrop := true } = irq s

/-! ### Reset and the invariant -/

/-- Soft reset (R232), by a write of 1 to bit 1 of CTRL, busy or not: every register takes its reset value; with no command
running the windows are kept; the locations an abandoned command would have written become never written and every other keeps its
byte. What a command would have written is the model's reading (Log 14): nothing where it would have failed or is an illegal word,
the locations of R57 where it would have read a never-written one. -/
def Obligations.SoftResetKeepsTheWindows : Prop :=
  ∀ s : State,
    (∀ v : Word, s.inReset = false → v.getLsbD 1 = true →
        hostTurn (.write 0x008 4 v) s = .next { softReset s with resp := some (.okay 0) }) ∧
      (∀ r, regRead (softReset s) r = regRead State.reset r) ∧ busy (softReset s) = false ∧
      (s.engine = .idle → (softReset s).mem = s.mem) ∧
      (∀ w i t, s.engine = .running w → Sys2Proof.decode w = .ok i → exec i (acceptCommand w s) = .next t →
        ∀ a, memRead (softReset s).mem a =
          if t.done = true ∧ inRanges (footprint i s) a = true then none else memRead s.mem a) ∧
      (∀ w e, s.engine = .running w → Sys2Proof.decode w = .error e → (softReset s).mem = s.mem) ∧
      ∀ w i f, s.engine = .running w → Sys2Proof.decode w = .ok i → exec i (acceptCommand w s) = .fault f →
        ∀ a, memRead (softReset s).mem a = if inRanges (footprint i s) a = true then none else memRead s.mem a

/-- Power-on reset (R60, R230): the registers and the windows after it, and what it does in any state. When `rst_n` is asserted the
block is as after reset, and held there; when it is released it leaves reset. The inputs still to come, the last response and the
model's counter stay (the model's own, Log 15, 16). -/
def Obligations.PowerOnReset : Prop :=
  (∀ r, regRead State.reset r =
      match r with
      | .id => 0x42483833
      | .pixcap => BitVec.ofNat 32 Config.pixCap
      | .punch => 1
      | _ => 0) ∧
    busy State.reset = false ∧ irq State.reset = false ∧ (∀ a, memRead State.reset.mem a = none) ∧ 1 ≤ Config.pixCap ∧
    Config.pixCap ≤ 65536 ∧
    ∀ (s : State) (es : List Event),
      (s.pending = .rstAssert :: es →
        step s = .next { State.reset with inReset := true, pending := es, resp := s.resp, freeCtr := s.freeCtr }) ∧
        (s.pending = .rstRelease :: es → step s = .next { s with inReset := false, pending := es })

/-- The invariant holds right after reset. -/
def Obligations.InvariantHoldsAtReset : Prop := State.reset.Inv

/-- Every step keeps the invariant: the memory stays canonical and within the windows, DONE and ERR are never both 1, a running
command has clear flags, only legal error codes are produced, MAXQ stays 0 .. 82. -/
def Obligations.EveryStepKeepsTheInvariant : Prop := ∀ s t : State, s.Inv → step s = .next t → t.Inv
end

