-- ==== Sys2Proof/Laws/Memory.lean ====
section
/-! SUPPORT. The laws of the byte memory: what a read gives after a write or after locations are made "never written", that every
operation keeps the canonical form, and what the word, channel and entry accesses built on it do. -/

namespace Sys2Proof.Machine

/-! ### Cells -/

theorem cellRead_cellWrite_same (cs : List Host.Cell) (a : Nat) (b : Byte) : cellRead (cellWrite cs a b) a = some b := by
  induction cs with
  | nil => simp [cellWrite, cellRead]
  | cons c cs ih =>
    obtain ⟨k, v⟩ := c
    unfold cellWrite
    split
    · simp [cellRead]
    · split
      · simp [cellRead]
      · rename_i h1 h2
        simp only [cellRead, ih, if_neg (Ne.symm h2)]

theorem cellRead_cellWrite_other (cs : List Host.Cell) {a x : Nat} (b : Byte) (h : x ≠ a) :
    cellRead (cellWrite cs a b) x = cellRead cs x := by
  induction cs with
  | nil => simp [cellWrite, cellRead, Ne.symm h]
  | cons c cs ih =>
    obtain ⟨k, v⟩ := c
    unfold cellWrite
    split
    · simp [cellRead, Ne.symm h]
    · split
      · rename_i _ h2
        subst h2
        simp [cellRead, Ne.symm h]
      · simp only [cellRead, ih]

theorem cellsRising_mono {lo lo' : Nat} {cs : List Host.Cell} (h : lo' ≤ lo) (hs : cellsRising lo cs = true) :
    cellsRising lo' cs = true := by
  cases cs with
  | nil => rfl
  | cons c cs =>
    obtain ⟨k, v⟩ := c
    simp only [cellsRising, Bool.and_eq_true, decide_eq_true_eq] at hs ⊢
    exact ⟨by omega, hs.2⟩

theorem cellsRising_cellWrite {lo a : Nat} {cs : List Host.Cell} (b : Byte) (hs : cellsRising lo cs = true) (h : lo ≤ a) :
    cellsRising lo (cellWrite cs a b) = true := by
  induction cs generalizing lo with
  | nil => simp [cellWrite, cellsRising, h]
  | cons c cs ih =>
    obtain ⟨k, v⟩ := c
    simp only [cellsRising, Bool.and_eq_true, decide_eq_true_eq] at hs
    unfold cellWrite
    split
    · rename_i hk
      simp only [cellsRising, Bool.and_eq_true, decide_eq_true_eq]
      exact ⟨h, by omega, hs.2⟩
    · split
      · rename_i hk
        subst hk
        simp only [cellsRising, Bool.and_eq_true, decide_eq_true_eq]
        exact ⟨h, hs.2⟩
      · simp only [cellsRising, Bool.and_eq_true, decide_eq_true_eq]
        exact ⟨hs.1, ih hs.2 (by omega)⟩

theorem cellsRising_filter {lo : Nat} {cs : List Host.Cell} (p : Host.Cell → Bool) (hs : cellsRising lo cs = true) :
    cellsRising lo (cs.filter p) = true := by
  induction cs generalizing lo with
  | nil => rfl
  | cons c cs ih =>
    obtain ⟨k, v⟩ := c
    simp only [cellsRising, Bool.and_eq_true, decide_eq_true_eq] at hs
    rw [List.filter_cons]
    split
    · simp only [cellsRising, Bool.and_eq_true, decide_eq_true_eq]
      exact ⟨hs.1, ih hs.2⟩
    · exact cellsRising_mono (by omega) (ih hs.2)

theorem cellRead_filter (cs : List Host.Cell) (p : Nat → Bool) (a : Nat) :
    cellRead (cs.filter fun c => p c.1) a = if p a then cellRead cs a else none := by
  induction cs with
  | nil => simp [cellRead]
  | cons c cs ih =>
    obtain ⟨k, v⟩ := c
    rw [List.filter_cons]
    by_cases hk : k = a
    · subst hk
      cases hp : p k <;> simp_all [cellRead]
    · cases hp : p k <;> simp_all [cellRead]

/-! ### The byte memory -/

@[simp] theorem memRead_empty (a : Nat) : memRead ⟨[]⟩ a = none := rfl

@[simp] theorem memRead_memWrite_same (m : Memory) (a : Nat) (b : Byte) : memRead (memWrite m a b) a = some b :=
  cellRead_cellWrite_same _ _ _

theorem memRead_memWrite_other (m : Memory) {a x : Nat} (b : Byte) (h : x ≠ a) : memRead (memWrite m a b) x = memRead m x :=
  cellRead_cellWrite_other _ _ h

/-- What a read gives after a write of consecutive bytes. -/
theorem memRead_memWriteBytes (m : Memory) (a x : Nat) (bs : List Byte) :
    memRead (memWriteBytes m a bs) x = if a ≤ x ∧ x < a + bs.length then bs[x - a]? else memRead m x := by
  induction bs generalizing m a with
  | nil => simp [memWriteBytes]
  | cons b bs ih =>
    rw [memWriteBytes, ih]
    by_cases hx : x = a
    · subst hx
      simp
    · rw [memRead_memWrite_other _ _ hx]
      by_cases h : a ≤ x ∧ x < a + (b :: bs).length
      · rw [if_pos h, if_pos (by simp at h ⊢; omega)]
        obtain ⟨d, rfl⟩ : ∃ d, x = a + 1 + d := ⟨x - (a + 1), by omega⟩
        rw [show a + 1 + d - (a + 1) = d by omega, show a + 1 + d - a = d + 1 by omega, List.getElem?_cons_succ]
      · rw [if_neg h, if_neg (by simp at h ⊢; omega)]

theorem memRead_memWriteBytes_outside (m : Memory) {a x : Nat} (bs : List Byte) (h : ¬(a ≤ x ∧ x < a + bs.length)) :
    memRead (memWriteBytes m a bs) x = memRead m x := by
  rw [memRead_memWriteBytes, if_neg h]

theorem sameOutside_memWriteBytes (m : Memory) (a : Nat) (bs : List Byte) :
    SameOutside m (memWriteBytes m a bs) a bs.length := fun _ h => memRead_memWriteBytes_outside m bs h

theorem holdsBytes_memWriteBytes (m : Memory) (a : Nat) (bs : List Byte) : HoldsBytes (memWriteBytes m a bs) a bs := by
  intro k h
  rw [memRead_memWriteBytes, if_pos (by omega)]
  simp [h]

theorem holdsBytes_of_sameOutside {m m' : Memory} {a base n : Nat} {bs : List Byte} (h : HoldsBytes m a bs)
    (hs : SameOutside m m' base n) (hd : a + bs.length ≤ base ∨ base + n ≤ a) : HoldsBytes m' a bs := by
  intro k hk
  rw [hs _ (by omega), h k hk]

/-- What a read gives after locations are made "never written" (70_reset_and_hazards.md R232). -/
theorem memRead_memForget (m : Memory) (rs : List (Nat × Nat)) (a : Nat) :
    memRead (memForget m rs) a = if inRanges rs a then none else memRead m a := by
  have := cellRead_filter m.cells (fun x => !inRanges rs x) a
  simp only [memRead, memForget, this]
  cases inRanges rs a <;> simp

/-! ### The canonical form is kept -/

theorem memWrite_wf {m : Memory} (a : Nat) (b : Byte) (h : m.wf = true) : (memWrite m a b).wf = true :=
  cellsRising_cellWrite b h (Nat.zero_le a)

theorem memWriteBytes_wf {m : Memory} (a : Nat) (bs : List Byte) (h : m.wf = true) : (memWriteBytes m a bs).wf = true := by
  induction bs generalizing m a with
  | nil => exact h
  | cons b bs ih => exact ih (a + 1) (memWrite_wf a b h)

theorem memForget_wf {m : Memory} (rs : List (Nat × Nat)) (h : m.wf = true) : (memForget m rs).wf = true :=
  cellsRising_filter _ h

theorem empty_wf : (Memory.mk []).wf = true := rfl

theorem reset_mem_wf : State.reset.mem.wf = true := rfl

theorem hashStore_wf {m : Memory} (k : Nat) (bs : List Byte) (h : m.wf = true) : (hashStore m k bs).wf = true :=
  memWriteBytes_wf _ _ h

theorem gridStore_wf {m : Memory} (g : Grid) (h : m.wf = true) : (gridStore m g).wf = true := memWriteBytes_wf _ _ h

theorem pixStore_wf {m : Memory} (ps : List Word) (h : m.wf = true) : (pixStore m ps).wf = true := memWriteBytes_wf _ _ h

theorem softResetMem_wf {s : State} (h : s.mem.wf = true) : (softResetMem s).wf = true := by
  unfold softResetMem
  split
  · exact h
  · exact memForget_wf _ h

/-! ### Little-endian bytes -/

@[simp] theorem leBytes_length (n v : Nat) : (leBytes n v).length = n := by
  induction n generalizing v with
  | zero => rfl
  | succ n ih => simp [leBytes, ih]

theorem ofLeBytes_leBytes (n v : Nat) : ofLeBytes (leBytes n v) = v % 256 ^ n := by
  induction n generalizing v with
  | zero => simp [leBytes, ofLeBytes, Nat.mod_one]
  | succ n ih =>
    simp only [leBytes, ofLeBytes, ih, BitVec.toNat_ofNat]
    rw [show 256 ^ (n + 1) = 256 * 256 ^ n by rw [Nat.pow_succ, Nat.mul_comm], Nat.mod_mul]

theorem leBytes_ofLeBytes (bs : List Byte) : leBytes bs.length (ofLeBytes bs) = bs := by
  induction bs with
  | nil => rfl
  | cons b bs ih =>
    simp only [List.length_cons, leBytes, ofLeBytes]
    have hb := b.isLt
    rw [show (b.toNat + 256 * ofLeBytes bs) / 256 = ofLeBytes bs by omega, ih]
    congr 1
    apply BitVec.eq_of_toNat_eq
    rw [BitVec.toNat_ofNat]
    omega

theorem ofLeBytes_lt (bs : List Byte) : ofLeBytes bs < 256 ^ bs.length := by
  induction bs with
  | nil => simp [ofLeBytes]
  | cons b bs ih =>
    simp only [ofLeBytes, List.length_cons, Nat.pow_succ]
    have hb := b.isLt
    omega

/-! ### Reads of several bytes -/

/-- A read of consecutive bytes gives exactly the bytes the memory holds. -/
theorem memReadBytes_eq_some (m : Memory) (a n : Nat) (bs : List Byte) :
    memReadBytes m a n = some bs ↔ bs.length = n ∧ HoldsBytes m a bs := by
  induction n generalizing a bs with
  | zero =>
    simp only [memReadBytes, Option.some.injEq]
    constructor
    · rintro rfl
      exact ⟨rfl, fun k h => absurd h (by simp)⟩
    · rintro ⟨h, -⟩
      exact (List.length_eq_zero_iff.mp h).symm
  | succ n ih =>
    simp only [memReadBytes]
    cases bs with
    | nil =>
      constructor
      · intro h
        split at h <;> simp at h
      · rintro ⟨h, -⟩
        simp at h
    | cons b bs =>
      have key : HoldsBytes m a (b :: bs) ↔ memRead m a = some b ∧ HoldsBytes m (a + 1) bs := by
        constructor
        · intro h
          refine ⟨h 0 (Nat.zero_lt_succ _), fun k hk => ?_⟩
          have := h (k + 1) (by simpa using hk)
          rwa [show a + (k + 1) = a + 1 + k by omega, List.getElem_cons_succ] at this
        · rintro ⟨h0, h1⟩ k hk
          cases k with
          | zero => simpa using h0
          | succ k =>
            rw [show a + (k + 1) = a + 1 + k by omega, List.getElem_cons_succ]
            exact h1 k (by simpa using hk)
      rw [key]
      constructor
      · intro h
        split at h
        · rename_i b' bs' hb hbs
          simp only [Option.some.injEq, List.cons.injEq] at h
          obtain ⟨rfl, rfl⟩ := h
          obtain ⟨hl, hh⟩ := (ih _ _).mp hbs
          exact ⟨by simp [hl], hb, hh⟩
        · simp at h
      · rintro ⟨hl, hb, hh⟩
        rw [hb, (ih (a + 1) bs).mpr ⟨by simpa using hl, hh⟩]

theorem memReadBytes_eq_none (m : Memory) (a n : Nat) : memReadBytes m a n = none ↔ ∃ k, k < n ∧ memRead m (a + k) = none := by
  induction n generalizing a with
  | zero => simp [memReadBytes]
  | succ n ih =>
    simp only [memReadBytes]
    constructor
    · intro h
      split at h
      · simp at h
      · rename_i hne
        cases hb : memRead m a with
        | none => exact ⟨0, by omega, hb⟩
        | some b =>
          cases hbs : memReadBytes m (a + 1) n with
          | none =>
            obtain ⟨k, hk, hr⟩ := (ih _).mp hbs
            exact ⟨k + 1, by omega, by rwa [show a + (k + 1) = a + 1 + k by omega]⟩
          | some bs => exact absurd hbs (hne b bs hb)
    · rintro ⟨k, hk, hr⟩
      cases k with
      | zero => rw [show a + 0 = a from rfl] at hr; simp [hr]
      | succ k =>
        have : memReadBytes m (a + 1) n = none := (ih _).mpr ⟨k, by omega, by rwa [show a + 1 + k = a + (k + 1) by omega]⟩
        rw [this]
        split <;> simp_all

/-- A read of a number of bytes depends on those bytes alone. -/
theorem memReadBytes_congr {m m' : Memory} {a n : Nat} (h : ∀ k, k < n → memRead m' (a + k) = memRead m (a + k)) :
    memReadBytes m' a n = memReadBytes m a n := by
  induction n generalizing a with
  | zero => rfl
  | succ n ih =>
    simp only [memReadBytes]
    rw [show memRead m' a = memRead m a from h 0 (by omega),
      ih (a := a + 1) fun k hk => by rw [show a + 1 + k = a + (k + 1) by omega]; exact h (k + 1) (by omega)]

/-! ### Channels, entries and pixels -/

theorem hashRead_eq_ok (s : State) (k : Nat) (b : Byte) : hashRead s k = .ok b ↔ memRead s.mem (hashAddr k) = some b := by
  unfold hashRead initialised
  split <;> simp_all

/-- A channel read gives the value whose eight bytes the memory holds. -/
theorem compRead_eq_ok (s : State) (k c : Nat) (x : F64) :
    compRead s k c = .ok x ↔ HoldsBytes s.mem (compAddr k c) (leBytes 8 x.toNat) := by
  unfold compRead initialised
  constructor
  · intro h
    split at h
    · rename_i bs hbs
      obtain ⟨hl, hh⟩ := (memReadBytes_eq_some _ _ _ _).mp hbs
      simp only [Bind.bind, Except.bind, Except.ok.injEq] at h
      subst h
      have hlt := ofLeBytes_lt bs
      rw [BitVec.toNat_ofNat, Nat.mod_eq_of_lt (by rw [hl] at hlt; exact hlt), ← hl, leBytes_ofLeBytes]
      exact hh
    · simp [Bind.bind, Except.bind] at h
  · intro h
    rw [(memReadBytes_eq_some _ _ _ _).mpr ⟨leBytes_length _ _, h⟩]
    simp only [Bind.bind, Except.bind, ofLeBytes_leBytes, Except.ok.injEq]
    rw [Nat.mod_eq_of_lt (by have := x.isLt; simpa using this)]
    simp

/-- A pixel read gives the word whose four bytes the memory holds. -/
theorem pixRead_eq_ok (s : State) (k : Nat) (p : Word) :
    pixRead s k = .ok p ↔ HoldsBytes s.mem (pixAddr k) (leBytes 4 p.toNat) := by
  unfold pixRead initialised
  constructor
  · intro h
    split at h
    · rename_i bs hbs
      obtain ⟨hl, hh⟩ := (memReadBytes_eq_some _ _ _ _).mp hbs
      simp only [Bind.bind, Except.bind, Except.ok.injEq] at h
      subst h
      have hlt := ofLeBytes_lt bs
      rw [BitVec.toNat_ofNat, Nat.mod_eq_of_lt (by rw [hl] at hlt; exact hlt), ← hl, leBytes_ofLeBytes]
      exact hh
    · simp [Bind.bind, Except.bind] at h
  · intro h
    rw [(memReadBytes_eq_some _ _ _ _).mpr ⟨leBytes_length _ _, h⟩]
    simp only [Bind.bind, Except.bind, ofLeBytes_leBytes, Except.ok.injEq]
    rw [Nat.mod_eq_of_lt (by have := p.isLt; simpa using this)]
    simp

theorem holdsBytes_append (m : Memory) (a : Nat) (bs cs : List Byte) :
    HoldsBytes m a (bs ++ cs) ↔ HoldsBytes m a bs ∧ HoldsBytes m (a + bs.length) cs := by
  constructor
  · intro h
    refine ⟨fun k hk => ?_, fun k hk => ?_⟩
    · have := h k (by simp; omega)
      rwa [List.getElem_append_left hk] at this
    · have := h (bs.length + k) (by simp; omega)
      simp only [List.getElem_append_right (Nat.le_add_right _ _), ← Nat.add_assoc, Nat.add_sub_cancel_left] at this
      exact this
  · rintro ⟨h1, h2⟩ k hk
    by_cases hk' : k < bs.length
    · rw [List.getElem_append_left hk']
      exact h1 k hk'
    · rw [List.getElem_append_right (by omega)]
      have := h2 (k - bs.length) (by simp at hk; omega)
      rwa [show a + bs.length + (k - bs.length) = a + k by omega] at this

@[simp] theorem tripleBytes_length (t : Triple) : (tripleBytes t).length = 24 := by simp [tripleBytes]

@[simp] theorem tripleBytes_flatMap_length (ts : List Triple) : (ts.flatMap tripleBytes).length = 24 * ts.length := by
  induction ts with
  | nil => rfl
  | cons t ts ih => simp only [List.flatMap_cons, List.length_append, tripleBytes_length, ih, List.length_cons]; omega

@[simp] theorem pixBytes_length (ps : List Word) : (ps.flatMap fun p => leBytes 4 p.toNat).length = 4 * ps.length := by
  induction ps with
  | nil => rfl
  | cons p ps ih => simp only [List.flatMap_cons, List.length_append, leBytes_length, ih, List.length_cons]; omega

/-- Where the memory holds the bytes of entries, a channel read gives the channel. -/
theorem compRead_of_holdsBytes (s : State) (k0 : Nat) (ts : List Triple)
    (h : HoldsBytes s.mem (compAddr k0 0) (ts.flatMap tripleBytes)) (k : Nat) (hk : k < ts.length) (c : Nat) (hc : c < 3) :
    compRead s (k0 + k) c = .ok (chan ts[k] c) := by
  induction ts generalizing k0 k with
  | nil => simp at hk
  | cons t ts ih =>
    rw [List.flatMap_cons, holdsBytes_append] at h
    cases k with
    | zero =>
      obtain ⟨h, -⟩ := h
      simp only [tripleBytes] at h
      rw [holdsBytes_append, holdsBytes_append] at h
      obtain ⟨⟨hr, hg⟩, hb⟩ := h
      rw [compRead_eq_ok]
      match c, hc with
      | 0, _ => simpa [chan, compAddr] using hr
      | 1, _ => simpa [chan, compAddr, Nat.mul_add, Nat.add_assoc] using hg
      | 2, _ => simpa [chan, compAddr, Nat.mul_add, Nat.add_assoc] using hb
    | succ k =>
      rw [show k0 + (k + 1) = (k0 + 1) + k by omega, List.getElem_cons_succ]
      apply ih
      have := h.2
      rwa [tripleBytes_length, show compAddr k0 0 + 24 = compAddr (k0 + 1) 0 by simp [compAddr]; omega] at this

/-- The entries of a grid are what COMPRAM holds after the grid is stored. -/
theorem holdsEntries_gridStore (s : State) (g : Grid) (m : Memory) (h : s.mem = gridStore m g) : HoldsEntries s (g.dc :: g.ac) := by
  intro k hk c hc
  have hb : HoldsBytes s.mem (compAddr 0 0) ((g.dc :: g.ac).flatMap tripleBytes) := by
    rw [h]
    exact holdsBytes_memWriteBytes _ _ _
  have := compRead_of_holdsBytes s 0 _ hb k hk c hc
  rwa [Nat.zero_add] at this

theorem sameOutside_gridStore (m : Memory) (g : Grid) : SameOutside m (gridStore m g) compBase (24 * (g.ac.length + 1)) := by
  have := sameOutside_memWriteBytes m (compAddr 0 0) ((g.dc :: g.ac).flatMap tripleBytes)
  rw [tripleBytes_flatMap_length] at this
  exact this

theorem pixRead_of_holdsBytes (s : State) (k0 : Nat) (ps : List Word)
    (h : HoldsBytes s.mem (pixAddr k0) (ps.flatMap fun p => leBytes 4 p.toNat)) (k : Nat) (hk : k < ps.length) :
    pixRead s (k0 + k) = .ok ps[k] := by
  induction ps generalizing k0 k with
  | nil => simp at hk
  | cons p ps ih =>
    rw [List.flatMap_cons, holdsBytes_append] at h
    cases k with
    | zero => exact (pixRead_eq_ok _ _ _).mpr h.1
    | succ k =>
      rw [show k0 + (k + 1) = (k0 + 1) + k by omega, List.getElem_cons_succ]
      apply ih
      have := h.2
      rwa [leBytes_length, show pixAddr k0 + 4 = pixAddr (k0 + 1) by simp [pixAddr]; omega] at this

/-- The pixel words are what PIXRAM holds after they are stored. -/
theorem holdsPixels_pixStore (s : State) (ps : List Word) (m : Memory) (h : s.mem = pixStore m ps) : HoldsPixels s ps := by
  intro k hk
  have hb : HoldsBytes s.mem (pixAddr 0) (ps.flatMap fun p => leBytes 4 p.toNat) := by
    rw [h]
    exact holdsBytes_memWriteBytes _ _ _
  have := pixRead_of_holdsBytes s 0 _ hb k hk
  rwa [Nat.zero_add] at this

theorem sameOutside_pixStore (m : Memory) (ps : List Word) : SameOutside m (pixStore m ps) pixBase (4 * ps.length) := by
  have := sameOutside_memWriteBytes m (pixAddr 0) (ps.flatMap fun p => leBytes 4 p.toNat)
  rw [pixBytes_length] at this
  exact this

theorem holdsBytes_hashStore (m : Memory) (k : Nat) (bs : List Byte) : HoldsBytes (hashStore m k bs) (hashAddr k) bs :=
  holdsBytes_memWriteBytes _ _ _

theorem sameOutside_hashStore (m : Memory) (k : Nat) (bs : List Byte) :
    SameOutside m (hashStore m k bs) (hashAddr k) bs.length := sameOutside_memWriteBytes _ _ _

end Sys2Proof.Machine
end

