-- ==== Sys2Proof/Laws/State.lean ====
section
/-! SUPPORT. Each field of the state after each named update: true by definition, so that no later proof unfolds one. -/

namespace Sys2Proof.Machine

/-! ### acceptCommand -/

section acceptCommand

variable (w : Word) (s : State)

@[simp] theorem acceptCommand_irqEn : (acceptCommand w s).irqEn = s.irqEn := rfl
@[simp] theorem acceptCommand_engine : (acceptCommand w s).engine = .running w := rfl
@[simp] theorem acceptCommand_done : (acceptCommand w s).done = false := rfl
@[simp] theorem acceptCommand_err : (acceptCommand w s).err = false := rfl
@[simp] theorem acceptCommand_wdrop : (acceptCommand w s).wdrop = s.wdrop := rfl
@[simp] theorem acceptCommand_errcode : (acceptCommand w s).errcode = 0 := rfl
@[simp] theorem acceptCommand_errinfo : (acceptCommand w s).errinfo = 0 := rfl
@[simp] theorem acceptCommand_xc : (acceptCommand w s).xc = s.xc := rfl
@[simp] theorem acceptCommand_yc : (acceptCommand w s).yc = s.yc := rfl
@[simp] theorem acceptCommand_width : (acceptCommand w s).width = s.width := rfl
@[simp] theorem acceptCommand_height : (acceptCommand w s).height = s.height := rfl
@[simp] theorem acceptCommand_punch : (acceptCommand w s).punch = s.punch := rfl
@[simp] theorem acceptCommand_hashlen : (acceptCommand w s).hashlen = s.hashlen := rfl
@[simp] theorem acceptCommand_maxq : (acceptCommand w s).maxq = s.maxq := rfl
@[simp] theorem acceptCommand_maxval : (acceptCommand w s).maxval = s.maxval := rfl
@[simp] theorem acceptCommand_opa : (acceptCommand w s).opa = s.opa := rfl
@[simp] theorem acceptCommand_opb : (acceptCommand w s).opb = s.opb := rfl
@[simp] theorem acceptCommand_res : (acceptCommand w s).res = s.res := rfl
@[simp] theorem acceptCommand_mem : (acceptCommand w s).mem = s.mem := rfl
@[simp] theorem acceptCommand_inReset : (acceptCommand w s).inReset = s.inReset := rfl
@[simp] theorem acceptCommand_pending : (acceptCommand w s).pending = s.pending := rfl
@[simp] theorem acceptCommand_resp : (acceptCommand w s).resp = s.resp := rfl
@[simp] theorem acceptCommand_freeCtr : (acceptCommand w s).freeCtr = s.freeCtr := rfl

end acceptCommand

/-! ### flagsDone -/

section flagsDone

variable (s : State)

@[simp] theorem flagsDone_irqEn : (flagsDone s).irqEn = s.irqEn := rfl
@[simp] theorem flagsDone_engine : (flagsDone s).engine = .idle := rfl
@[simp] theorem flagsDone_done : (flagsDone s).done = true := rfl
@[simp] theorem flagsDone_err : (flagsDone s).err = s.err := rfl
@[simp] theorem flagsDone_wdrop : (flagsDone s).wdrop = s.wdrop := rfl
@[simp] theorem flagsDone_errcode : (flagsDone s).errcode = s.errcode := rfl
@[simp] theorem flagsDone_errinfo : (flagsDone s).errinfo = s.errinfo := rfl
@[simp] theorem flagsDone_xc : (flagsDone s).xc = s.xc := rfl
@[simp] theorem flagsDone_yc : (flagsDone s).yc = s.yc := rfl
@[simp] theorem flagsDone_width : (flagsDone s).width = s.width := rfl
@[simp] theorem flagsDone_height : (flagsDone s).height = s.height := rfl
@[simp] theorem flagsDone_punch : (flagsDone s).punch = s.punch := rfl
@[simp] theorem flagsDone_hashlen : (flagsDone s).hashlen = s.hashlen := rfl
@[simp] theorem flagsDone_maxq : (flagsDone s).maxq = s.maxq := rfl
@[simp] theorem flagsDone_maxval : (flagsDone s).maxval = s.maxval := rfl
@[simp] theorem flagsDone_opa : (flagsDone s).opa = s.opa := rfl
@[simp] theorem flagsDone_opb : (flagsDone s).opb = s.opb := rfl
@[simp] theorem flagsDone_res : (flagsDone s).res = s.res := rfl
@[simp] theorem flagsDone_mem : (flagsDone s).mem = s.mem := rfl
@[simp] theorem flagsDone_inReset : (flagsDone s).inReset = s.inReset := rfl
@[simp] theorem flagsDone_pending : (flagsDone s).pending = s.pending := rfl
@[simp] theorem flagsDone_resp : (flagsDone s).resp = s.resp := rfl
@[simp] theorem flagsDone_freeCtr : (flagsDone s).freeCtr = s.freeCtr := rfl

end flagsDone

/-! ### raiseError -/

section raiseError

variable (e : ErrCode) (info : Word) (s : State)

@[simp] theorem raiseError_irqEn : (raiseError e info s).irqEn = s.irqEn := rfl
@[simp] theorem raiseError_engine : (raiseError e info s).engine = .idle := rfl
@[simp] theorem raiseError_done : (raiseError e info s).done = s.done := rfl
@[simp] theorem raiseError_err : (raiseError e info s).err = true := rfl
@[simp] theorem raiseError_wdrop : (raiseError e info s).wdrop = s.wdrop := rfl
@[simp] theorem raiseError_errcode : (raiseError e info s).errcode = errCodeBits e := rfl
@[simp] theorem raiseError_errinfo : (raiseError e info s).errinfo = info := rfl
@[simp] theorem raiseError_xc : (raiseError e info s).xc = s.xc := rfl
@[simp] theorem raiseError_yc : (raiseError e info s).yc = s.yc := rfl
@[simp] theorem raiseError_width : (raiseError e info s).width = s.width := rfl
@[simp] theorem raiseError_height : (raiseError e info s).height = s.height := rfl
@[simp] theorem raiseError_punch : (raiseError e info s).punch = s.punch := rfl
@[simp] theorem raiseError_hashlen : (raiseError e info s).hashlen = s.hashlen := rfl
@[simp] theorem raiseError_maxq : (raiseError e info s).maxq = s.maxq := rfl
@[simp] theorem raiseError_maxval : (raiseError e info s).maxval = s.maxval := rfl
@[simp] theorem raiseError_opa : (raiseError e info s).opa = s.opa := rfl
@[simp] theorem raiseError_opb : (raiseError e info s).opb = s.opb := rfl
@[simp] theorem raiseError_res : (raiseError e info s).res = s.res := rfl
@[simp] theorem raiseError_mem : (raiseError e info s).mem = s.mem := rfl
@[simp] theorem raiseError_inReset : (raiseError e info s).inReset = s.inReset := rfl
@[simp] theorem raiseError_pending : (raiseError e info s).pending = s.pending := rfl
@[simp] theorem raiseError_resp : (raiseError e info s).resp = s.resp := rfl
@[simp] theorem raiseError_freeCtr : (raiseError e info s).freeCtr = s.freeCtr := rfl

end raiseError

/-! ### acknowledge -/

section acknowledge

variable (v : Word) (s : State)

@[simp] theorem acknowledge_irqEn : (acknowledge v s).irqEn = s.irqEn := rfl
@[simp] theorem acknowledge_engine : (acknowledge v s).engine = s.engine := rfl
@[simp] theorem acknowledge_done : (acknowledge v s).done = (s.done && !v.getLsbD 1) := rfl
@[simp] theorem acknowledge_err : (acknowledge v s).err = (s.err && !v.getLsbD 2) := rfl
@[simp] theorem acknowledge_wdrop : (acknowledge v s).wdrop = (s.wdrop && !v.getLsbD 3) := rfl
@[simp] theorem acknowledge_errcode : (acknowledge v s).errcode = s.errcode := rfl
@[simp] theorem acknowledge_errinfo : (acknowledge v s).errinfo = s.errinfo := rfl
@[simp] theorem acknowledge_xc : (acknowledge v s).xc = s.xc := rfl
@[simp] theorem acknowledge_yc : (acknowledge v s).yc = s.yc := rfl
@[simp] theorem acknowledge_width : (acknowledge v s).width = s.width := rfl
@[simp] theorem acknowledge_height : (acknowledge v s).height = s.height := rfl
@[simp] theorem acknowledge_punch : (acknowledge v s).punch = s.punch := rfl
@[simp] theorem acknowledge_hashlen : (acknowledge v s).hashlen = s.hashlen := rfl
@[simp] theorem acknowledge_maxq : (acknowledge v s).maxq = s.maxq := rfl
@[simp] theorem acknowledge_maxval : (acknowledge v s).maxval = s.maxval := rfl
@[simp] theorem acknowledge_opa : (acknowledge v s).opa = s.opa := rfl
@[simp] theorem acknowledge_opb : (acknowledge v s).opb = s.opb := rfl
@[simp] theorem acknowledge_res : (acknowledge v s).res = s.res := rfl
@[simp] theorem acknowledge_mem : (acknowledge v s).mem = s.mem := rfl
@[simp] theorem acknowledge_inReset : (acknowledge v s).inReset = s.inReset := rfl
@[simp] theorem acknowledge_pending : (acknowledge v s).pending = s.pending := rfl
@[simp] theorem acknowledge_resp : (acknowledge v s).resp = s.resp := rfl
@[simp] theorem acknowledge_freeCtr : (acknowledge v s).freeCtr = s.freeCtr := rfl

end acknowledge

/-! ### flagsDropped -/

section flagsDropped

variable (s : State)

@[simp] theorem flagsDropped_irqEn : (flagsDropped s).irqEn = s.irqEn := rfl
@[simp] theorem flagsDropped_engine : (flagsDropped s).engine = s.engine := rfl
@[simp] theorem flagsDropped_done : (flagsDropped s).done = s.done := rfl
@[simp] theorem flagsDropped_err : (flagsDropped s).err = s.err := rfl
@[simp] theorem flagsDropped_wdrop : (flagsDropped s).wdrop = true := rfl
@[simp] theorem flagsDropped_errcode : (flagsDropped s).errcode = s.errcode := rfl
@[simp] theorem flagsDropped_errinfo : (flagsDropped s).errinfo = s.errinfo := rfl
@[simp] theorem flagsDropped_xc : (flagsDropped s).xc = s.xc := rfl
@[simp] theorem flagsDropped_yc : (flagsDropped s).yc = s.yc := rfl
@[simp] theorem flagsDropped_width : (flagsDropped s).width = s.width := rfl
@[simp] theorem flagsDropped_height : (flagsDropped s).height = s.height := rfl
@[simp] theorem flagsDropped_punch : (flagsDropped s).punch = s.punch := rfl
@[simp] theorem flagsDropped_hashlen : (flagsDropped s).hashlen = s.hashlen := rfl
@[simp] theorem flagsDropped_maxq : (flagsDropped s).maxq = s.maxq := rfl
@[simp] theorem flagsDropped_maxval : (flagsDropped s).maxval = s.maxval := rfl
@[simp] theorem flagsDropped_opa : (flagsDropped s).opa = s.opa := rfl
@[simp] theorem flagsDropped_opb : (flagsDropped s).opb = s.opb := rfl
@[simp] theorem flagsDropped_res : (flagsDropped s).res = s.res := rfl
@[simp] theorem flagsDropped_mem : (flagsDropped s).mem = s.mem := rfl
@[simp] theorem flagsDropped_inReset : (flagsDropped s).inReset = s.inReset := rfl
@[simp] theorem flagsDropped_pending : (flagsDropped s).pending = s.pending := rfl
@[simp] theorem flagsDropped_resp : (flagsDropped s).resp = s.resp := rfl
@[simp] theorem flagsDropped_freeCtr : (flagsDropped s).freeCtr = s.freeCtr := rfl

end flagsDropped

/-! ### resetRegisters -/

section resetRegisters

variable (s : State)

@[simp] theorem resetRegisters_irqEn : (resetRegisters s).irqEn = false := rfl
@[simp] theorem resetRegisters_engine : (resetRegisters s).engine = .idle := rfl
@[simp] theorem resetRegisters_done : (resetRegisters s).done = false := rfl
@[simp] theorem resetRegisters_err : (resetRegisters s).err = false := rfl
@[simp] theorem resetRegisters_wdrop : (resetRegisters s).wdrop = false := rfl
@[simp] theorem resetRegisters_errcode : (resetRegisters s).errcode = 0 := rfl
@[simp] theorem resetRegisters_errinfo : (resetRegisters s).errinfo = 0 := rfl
@[simp] theorem resetRegisters_xc : (resetRegisters s).xc = 0 := rfl
@[simp] theorem resetRegisters_yc : (resetRegisters s).yc = 0 := rfl
@[simp] theorem resetRegisters_width : (resetRegisters s).width = 0 := rfl
@[simp] theorem resetRegisters_height : (resetRegisters s).height = 0 := rfl
@[simp] theorem resetRegisters_punch : (resetRegisters s).punch = 1 := rfl
@[simp] theorem resetRegisters_hashlen : (resetRegisters s).hashlen = 0 := rfl
@[simp] theorem resetRegisters_maxq : (resetRegisters s).maxq = 0 := rfl
@[simp] theorem resetRegisters_maxval : (resetRegisters s).maxval = 0 := rfl
@[simp] theorem resetRegisters_opa : (resetRegisters s).opa = 0 := rfl
@[simp] theorem resetRegisters_opb : (resetRegisters s).opb = 0 := rfl
@[simp] theorem resetRegisters_res : (resetRegisters s).res = 0 := rfl
@[simp] theorem resetRegisters_mem : (resetRegisters s).mem = s.mem := rfl
@[simp] theorem resetRegisters_inReset : (resetRegisters s).inReset = s.inReset := rfl
@[simp] theorem resetRegisters_pending : (resetRegisters s).pending = s.pending := rfl
@[simp] theorem resetRegisters_resp : (resetRegisters s).resp = s.resp := rfl
@[simp] theorem resetRegisters_freeCtr : (resetRegisters s).freeCtr = s.freeCtr := rfl

end resetRegisters

/-! ### powerOnReset -/

section powerOnReset

variable (s : State)

@[simp] theorem powerOnReset_irqEn : (powerOnReset s).irqEn = false := rfl
@[simp] theorem powerOnReset_engine : (powerOnReset s).engine = .idle := rfl
@[simp] theorem powerOnReset_done : (powerOnReset s).done = false := rfl
@[simp] theorem powerOnReset_err : (powerOnReset s).err = false := rfl
@[simp] theorem powerOnReset_wdrop : (powerOnReset s).wdrop = false := rfl
@[simp] theorem powerOnReset_errcode : (powerOnReset s).errcode = 0 := rfl
@[simp] theorem powerOnReset_errinfo : (powerOnReset s).errinfo = 0 := rfl
@[simp] theorem powerOnReset_xc : (powerOnReset s).xc = 0 := rfl
@[simp] theorem powerOnReset_yc : (powerOnReset s).yc = 0 := rfl
@[simp] theorem powerOnReset_width : (powerOnReset s).width = 0 := rfl
@[simp] theorem powerOnReset_height : (powerOnReset s).height = 0 := rfl
@[simp] theorem powerOnReset_punch : (powerOnReset s).punch = 1 := rfl
@[simp] theorem powerOnReset_hashlen : (powerOnReset s).hashlen = 0 := rfl
@[simp] theorem powerOnReset_maxq : (powerOnReset s).maxq = 0 := rfl
@[simp] theorem powerOnReset_maxval : (powerOnReset s).maxval = 0 := rfl
@[simp] theorem powerOnReset_opa : (powerOnReset s).opa = 0 := rfl
@[simp] theorem powerOnReset_opb : (powerOnReset s).opb = 0 := rfl
@[simp] theorem powerOnReset_res : (powerOnReset s).res = 0 := rfl
@[simp] theorem powerOnReset_mem : (powerOnReset s).mem = ⟨[]⟩ := rfl
@[simp] theorem powerOnReset_inReset : (powerOnReset s).inReset = s.inReset := rfl
@[simp] theorem powerOnReset_pending : (powerOnReset s).pending = s.pending := rfl
@[simp] theorem powerOnReset_resp : (powerOnReset s).resp = s.resp := rfl
@[simp] theorem powerOnReset_freeCtr : (powerOnReset s).freeCtr = s.freeCtr := rfl

end powerOnReset

/-! ### softReset -/

section softReset

variable (s : State)

@[simp] theorem softReset_irqEn : (softReset s).irqEn = false := rfl
@[simp] theorem softReset_engine : (softReset s).engine = .idle := rfl
@[simp] theorem softReset_done : (softReset s).done = false := rfl
@[simp] theorem softReset_err : (softReset s).err = false := rfl
@[simp] theorem softReset_wdrop : (softReset s).wdrop = false := rfl
@[simp] theorem softReset_errcode : (softReset s).errcode = 0 := rfl
@[simp] theorem softReset_errinfo : (softReset s).errinfo = 0 := rfl
@[simp] theorem softReset_xc : (softReset s).xc = 0 := rfl
@[simp] theorem softReset_yc : (softReset s).yc = 0 := rfl
@[simp] theorem softReset_width : (softReset s).width = 0 := rfl
@[simp] theorem softReset_height : (softReset s).height = 0 := rfl
@[simp] theorem softReset_punch : (softReset s).punch = 1 := rfl
@[simp] theorem softReset_hashlen : (softReset s).hashlen = 0 := rfl
@[simp] theorem softReset_maxq : (softReset s).maxq = 0 := rfl
@[simp] theorem softReset_maxval : (softReset s).maxval = 0 := rfl
@[simp] theorem softReset_opa : (softReset s).opa = 0 := rfl
@[simp] theorem softReset_opb : (softReset s).opb = 0 := rfl
@[simp] theorem softReset_res : (softReset s).res = 0 := rfl
@[simp] theorem softReset_mem : (softReset s).mem = softResetMem s := by simp only [softReset]
@[simp] theorem softReset_inReset : (softReset s).inReset = s.inReset := rfl
@[simp] theorem softReset_pending : (softReset s).pending = s.pending := rfl
@[simp] theorem softReset_resp : (softReset s).resp = s.resp := rfl
@[simp] theorem softReset_freeCtr : (softReset s).freeCtr = s.freeCtr := rfl

end softReset

/-! ### storeCounts -/

section storeCounts

variable (X Y : Nat) (s : State)

@[simp] theorem storeCounts_irqEn : (storeCounts X Y s).irqEn = s.irqEn := rfl
@[simp] theorem storeCounts_engine : (storeCounts X Y s).engine = s.engine := rfl
@[simp] theorem storeCounts_done : (storeCounts X Y s).done = s.done := rfl
@[simp] theorem storeCounts_err : (storeCounts X Y s).err = s.err := rfl
@[simp] theorem storeCounts_wdrop : (storeCounts X Y s).wdrop = s.wdrop := rfl
@[simp] theorem storeCounts_errcode : (storeCounts X Y s).errcode = s.errcode := rfl
@[simp] theorem storeCounts_errinfo : (storeCounts X Y s).errinfo = s.errinfo := rfl
@[simp] theorem storeCounts_xc : (storeCounts X Y s).xc = BitVec.ofNat 4 X := rfl
@[simp] theorem storeCounts_yc : (storeCounts X Y s).yc = BitVec.ofNat 4 Y := rfl
@[simp] theorem storeCounts_width : (storeCounts X Y s).width = s.width := rfl
@[simp] theorem storeCounts_height : (storeCounts X Y s).height = s.height := rfl
@[simp] theorem storeCounts_punch : (storeCounts X Y s).punch = s.punch := rfl
@[simp] theorem storeCounts_hashlen : (storeCounts X Y s).hashlen = s.hashlen := rfl
@[simp] theorem storeCounts_maxq : (storeCounts X Y s).maxq = s.maxq := rfl
@[simp] theorem storeCounts_maxval : (storeCounts X Y s).maxval = s.maxval := rfl
@[simp] theorem storeCounts_opa : (storeCounts X Y s).opa = s.opa := rfl
@[simp] theorem storeCounts_opb : (storeCounts X Y s).opb = s.opb := rfl
@[simp] theorem storeCounts_res : (storeCounts X Y s).res = s.res := rfl
@[simp] theorem storeCounts_mem : (storeCounts X Y s).mem = s.mem := rfl
@[simp] theorem storeCounts_inReset : (storeCounts X Y s).inReset = s.inReset := rfl
@[simp] theorem storeCounts_pending : (storeCounts X Y s).pending = s.pending := rfl
@[simp] theorem storeCounts_resp : (storeCounts X Y s).resp = s.resp := rfl
@[simp] theorem storeCounts_freeCtr : (storeCounts X Y s).freeCtr = s.freeCtr := rfl

end storeCounts

/-! ### storeMax -/

section storeMax

variable (q : Nat) (m : F64) (s : State)

@[simp] theorem storeMax_irqEn : (storeMax q m s).irqEn = s.irqEn := rfl
@[simp] theorem storeMax_engine : (storeMax q m s).engine = s.engine := rfl
@[simp] theorem storeMax_done : (storeMax q m s).done = s.done := rfl
@[simp] theorem storeMax_err : (storeMax q m s).err = s.err := rfl
@[simp] theorem storeMax_wdrop : (storeMax q m s).wdrop = s.wdrop := rfl
@[simp] theorem storeMax_errcode : (storeMax q m s).errcode = s.errcode := rfl
@[simp] theorem storeMax_errinfo : (storeMax q m s).errinfo = s.errinfo := rfl
@[simp] theorem storeMax_xc : (storeMax q m s).xc = s.xc := rfl
@[simp] theorem storeMax_yc : (storeMax q m s).yc = s.yc := rfl
@[simp] theorem storeMax_width : (storeMax q m s).width = s.width := rfl
@[simp] theorem storeMax_height : (storeMax q m s).height = s.height := rfl
@[simp] theorem storeMax_punch : (storeMax q m s).punch = s.punch := rfl
@[simp] theorem storeMax_hashlen : (storeMax q m s).hashlen = s.hashlen := rfl
@[simp] theorem storeMax_maxq : (storeMax q m s).maxq = BitVec.ofNat 7 q := rfl
@[simp] theorem storeMax_maxval : (storeMax q m s).maxval = m := rfl
@[simp] theorem storeMax_opa : (storeMax q m s).opa = s.opa := rfl
@[simp] theorem storeMax_opb : (storeMax q m s).opb = s.opb := rfl
@[simp] theorem storeMax_res : (storeMax q m s).res = s.res := rfl
@[simp] theorem storeMax_mem : (storeMax q m s).mem = s.mem := rfl
@[simp] theorem storeMax_inReset : (storeMax q m s).inReset = s.inReset := rfl
@[simp] theorem storeMax_pending : (storeMax q m s).pending = s.pending := rfl
@[simp] theorem storeMax_resp : (storeMax q m s).resp = s.resp := rfl
@[simp] theorem storeMax_freeCtr : (storeMax q m s).freeCtr = s.freeCtr := rfl

end storeMax

/-! ### storeHash -/

section storeHash

variable (X Y : Nat) (h : HashOut) (s : State)

@[simp] theorem storeHash_irqEn : (storeHash X Y h s).irqEn = s.irqEn := rfl
@[simp] theorem storeHash_engine : (storeHash X Y h s).engine = s.engine := rfl
@[simp] theorem storeHash_done : (storeHash X Y h s).done = s.done := rfl
@[simp] theorem storeHash_err : (storeHash X Y h s).err = s.err := rfl
@[simp] theorem storeHash_wdrop : (storeHash X Y h s).wdrop = s.wdrop := rfl
@[simp] theorem storeHash_errcode : (storeHash X Y h s).errcode = s.errcode := rfl
@[simp] theorem storeHash_errinfo : (storeHash X Y h s).errinfo = s.errinfo := rfl
@[simp] theorem storeHash_xc : (storeHash X Y h s).xc = s.xc := rfl
@[simp] theorem storeHash_yc : (storeHash X Y h s).yc = s.yc := rfl
@[simp] theorem storeHash_width : (storeHash X Y h s).width = s.width := rfl
@[simp] theorem storeHash_height : (storeHash X Y h s).height = s.height := rfl
@[simp] theorem storeHash_punch : (storeHash X Y h s).punch = s.punch := rfl
@[simp] theorem storeHash_hashlen : (storeHash X Y h s).hashlen = BitVec.ofNat 9 (4 + 2 * (X * Y)) := rfl
@[simp] theorem storeHash_maxq : (storeHash X Y h s).maxq = BitVec.ofNat 7 h.q := rfl
@[simp] theorem storeHash_maxval : (storeHash X Y h s).maxval = h.m := rfl
@[simp] theorem storeHash_opa : (storeHash X Y h s).opa = s.opa := rfl
@[simp] theorem storeHash_opb : (storeHash X Y h s).opb = s.opb := rfl
@[simp] theorem storeHash_res : (storeHash X Y h s).res = s.res := rfl
@[simp] theorem storeHash_mem : (storeHash X Y h s).mem = hashStore s.mem 0 h.bytes := by simp only [storeHash, storeMax]
@[simp] theorem storeHash_inReset : (storeHash X Y h s).inReset = s.inReset := rfl
@[simp] theorem storeHash_pending : (storeHash X Y h s).pending = s.pending := rfl
@[simp] theorem storeHash_resp : (storeHash X Y h s).resp = s.resp := rfl
@[simp] theorem storeHash_freeCtr : (storeHash X Y h s).freeCtr = s.freeCtr := rfl

end storeHash

/-! ### storeDecoded -/

section storeDecoded

variable (h : HashIn) (s : State)

@[simp] theorem storeDecoded_irqEn : (storeDecoded h s).irqEn = s.irqEn := rfl
@[simp] theorem storeDecoded_engine : (storeDecoded h s).engine = s.engine := rfl
@[simp] theorem storeDecoded_done : (storeDecoded h s).done = s.done := rfl
@[simp] theorem storeDecoded_err : (storeDecoded h s).err = s.err := rfl
@[simp] theorem storeDecoded_wdrop : (storeDecoded h s).wdrop = s.wdrop := rfl
@[simp] theorem storeDecoded_errcode : (storeDecoded h s).errcode = s.errcode := rfl
@[simp] theorem storeDecoded_errinfo : (storeDecoded h s).errinfo = s.errinfo := rfl
@[simp] theorem storeDecoded_xc : (storeDecoded h s).xc = BitVec.ofNat 4 h.X := rfl
@[simp] theorem storeDecoded_yc : (storeDecoded h s).yc = BitVec.ofNat 4 h.Y := rfl
@[simp] theorem storeDecoded_width : (storeDecoded h s).width = s.width := rfl
@[simp] theorem storeDecoded_height : (storeDecoded h s).height = s.height := rfl
@[simp] theorem storeDecoded_punch : (storeDecoded h s).punch = s.punch := rfl
@[simp] theorem storeDecoded_hashlen : (storeDecoded h s).hashlen = s.hashlen := rfl
@[simp] theorem storeDecoded_maxq : (storeDecoded h s).maxq = BitVec.ofNat 7 h.q := rfl
@[simp] theorem storeDecoded_maxval : (storeDecoded h s).maxval = h.m := rfl
@[simp] theorem storeDecoded_opa : (storeDecoded h s).opa = s.opa := rfl
@[simp] theorem storeDecoded_opb : (storeDecoded h s).opb = s.opb := rfl
@[simp] theorem storeDecoded_res : (storeDecoded h s).res = s.res := rfl
@[simp] theorem storeDecoded_mem : (storeDecoded h s).mem = gridStore s.mem h.grid := by simp only [storeDecoded, storeMax, storeCounts]
@[simp] theorem storeDecoded_inReset : (storeDecoded h s).inReset = s.inReset := rfl
@[simp] theorem storeDecoded_pending : (storeDecoded h s).pending = s.pending := rfl
@[simp] theorem storeDecoded_resp : (storeDecoded h s).resp = s.resp := rfl
@[simp] theorem storeDecoded_freeCtr : (storeDecoded h s).freeCtr = s.freeCtr := rfl

end storeDecoded

/-! ### BUSY and IRQ -/

section views

variable (s : State) (w : Word) (e : ErrCode) (info : Word)

theorem busy_of_idle (h : s.engine = .idle) : busy s = false := by simp [busy, h]

theorem busy_of_running (h : s.engine = .running w) : busy s = true := by simp [busy, h]

@[simp] theorem acceptCommand_busy : busy (acceptCommand w s) = true := rfl
@[simp] theorem flagsDone_busy : busy (flagsDone s) = false := rfl
@[simp] theorem raiseError_busy : busy (raiseError e info s) = false := rfl
@[simp] theorem acknowledge_busy : busy (acknowledge w s) = busy s := rfl
@[simp] theorem flagsDropped_busy : busy (flagsDropped s) = busy s := rfl
@[simp] theorem resetRegisters_busy : busy (resetRegisters s) = false := rfl
@[simp] theorem powerOnReset_busy : busy (powerOnReset s) = false := rfl
@[simp] theorem softReset_busy : busy (softReset s) = false := rfl
@[simp] theorem acceptCommand_irq : irq (acceptCommand w s) = false := by simp [irq]
@[simp] theorem flagsDone_irq : irq (flagsDone s) = s.irqEn := by simp [irq]
@[simp] theorem raiseError_irq : irq (raiseError e info s) = s.irqEn := by simp [irq]
@[simp] theorem softReset_irq : irq (softReset s) = false := by simp [irq]
@[simp] theorem powerOnReset_irq : irq (powerOnReset s) = false := by simp [irq]

theorem busy_iff : busy s = true ↔ ∃ w, s.engine = .running w := by
  unfold busy; split <;> simp_all

end views

end Sys2Proof.Machine
end

