-- ==== Sys2Proof/Laws/Ops.lean ====
section
/-! SUPPORT. One lemma for each shared operation of the commands: everything it can answer. Proofs cite these and do not unfold the
operation. -/

namespace Sys2Proof.Machine

/-! ### Sequencing -/

theorem except_bind_eq_ok {α β : Type} (x : Except Stop α) (f : α → Except Stop β) (b : β) :
    (x >>= f) = .ok b ↔ ∃ a, x = .ok a ∧ f a = .ok b := by
  cases x <;> simp [Bind.bind, Except.bind]

theorem except_bind_eq_error {α β : Type} (x : Except Stop α) (f : α → Except Stop β) (e : Stop) :
    (x >>= f) = .error e ↔ x = .error e ∨ ∃ a, x = .ok a ∧ f a = .error e := by
  cases x <;> simp [Bind.bind, Except.bind]

@[simp] theorem ok_bind {α β : Type} (a : α) (f : α → Except Stop β) : ((Except.ok a : Except Stop α) >>= f) = f a := rfl

@[simp] theorem error_bind {α β : Type} (e : Stop) (f : α → Except Stop β) :
    ((Except.error e : Except Stop α) >>= f) = .error e := rfl

@[simp] theorem raise_bind {α β : Type} (e : ErrCode) (i : Nat) (f : α → Except Stop β) :
    ((raise e i : Except Stop α) >>= f) = raise e i := rfl

theorem raise_ne_ok {α : Type} (e : ErrCode) (i : Nat) (a : α) : (raise e i : Except Stop α) ≠ .ok a := nofun

@[simp] theorem raise_eq_ok {α : Type} (e : ErrCode) (i : Nat) (a : α) : (raise e i : Except Stop α) = .ok a ↔ False :=
  iff_false_intro (raise_ne_ok e i a)

/-! ### Completion -/

/-- A command that answers a next state completed, with its results or with an error (20_memory.md R78). -/
theorem finish_eq_next (s : State) (r : Except Stop State) (t : State) :
    finish s r = .next t ↔ (∃ u, r = .ok u ∧ t = flagsDone u) ∨ (∃ e info, r = .error (.raise e info) ∧ t = raiseError e info s) := by
  unfold finish
  split <;> simp_all [eq_comm]

theorem finish_eq_fault (s : State) (r : Except Stop State) (f : Fault) :
    finish s r = .fault f ↔ r = .error .uninitRead := by
  cases f
  unfold finish
  split <;> simp_all

theorem finish_ne_refused (s : State) (r : Except Stop State) (x : Refusal) : finish s r ≠ .refused x := by
  unfold finish
  split <;> simp

@[simp] theorem finish_ok (s t : State) : finish s (.ok t) = .next (flagsDone t) := rfl

@[simp] theorem finish_raise (s : State) (e : ErrCode) (i : Nat) :
    finish s (raise e i) = .next (raiseError e (BitVec.ofNat 32 i) s) := rfl

@[simp] theorem finish_error (s : State) (e : ErrCode) (i : Word) :
    finish s (.error (.raise e i)) = .next (raiseError e i s) := rfl

/-! ### Register operands -/

/-- CHKCOMP answers the counts exactly where both are legal (43_transform.md R161). -/
theorem chkComp_eq_ok (s : State) (X Y : Nat) :
    chkComp s = .ok (X, Y) ↔ (s.xc.toNat = X ∧ s.yc.toNat = Y) ∧ (1 ≤ X ∧ X ≤ 9) ∧ 1 ≤ Y ∧ Y ≤ 9 := by
  unfold chkComp
  split
  · rename_i h
    simp only [Bool.or_eq_true, decide_eq_true_eq] at h
    simp only [raise_eq_ok, false_iff]
    omega
  · split
    · rename_i h
      simp only [Bool.or_eq_true, decide_eq_true_eq] at h
      simp only [raise_eq_ok, false_iff]
      omega
    · rename_i h1 h2
      simp only [Bool.or_eq_true, decide_eq_true_eq, not_or, Nat.not_lt] at h1 h2
      simp only [Except.ok.injEq, Prod.mk.injEq]
      omega

/-- CHKDIM answers the dimensions exactly where they are legal (43_transform.md R160). -/
theorem chkDim_eq_ok (s : State) (W H : Nat) :
    chkDim s = .ok (W, H) ↔ (s.width.toNat = W ∧ s.height.toNat = H) ∧ 1 ≤ W ∧ 1 ≤ H ∧ W * H ≤ Config.pixCap := by
  unfold chkDim
  split
  · simp only [raise_eq_ok, false_iff]; omega
  · split
    · simp only [raise_eq_ok, false_iff]; omega
    · split
      · rename_i h
        simp only [raise_eq_ok, false_iff]
        rintro ⟨⟨rfl, rfl⟩, -, -, hle⟩
        omega
      · rename_i h1 h2 h3
        simp only [Except.ok.injEq, Prod.mk.injEq]
        constructor
        · rintro ⟨rfl, rfl⟩
          exact ⟨⟨rfl, rfl⟩, by omega, by omega, by omega⟩
        · rintro ⟨h, -⟩
          exact h

theorem finiteOperand_eq_ok (i : Nat) (x y : F64) : finiteOperand i x = .ok y ↔ fpIsFinite x = true ∧ y = x := by
  unfold finiteOperand
  cases fpIsFinite x
  · simp only [Bool.false_eq_true, if_false, raise_eq_ok, false_and]
  · simp only [if_true, Except.ok.injEq, true_and, eq_comm]

theorem finiteOperand_of_finite {x : F64} (i : Nat) (h : fpIsFinite x = true) : finiteOperand i x = .ok x := by
  simp [finiteOperand, h]

theorem finiteOperand_of_not {x : F64} (i : Nat) (h : fpIsFinite x = false) : finiteOperand i x = raise .operand i := by
  simp [finiteOperand, h]

/-! ### Window operands -/

theorem pixReads_eq_ok (s : State) (k n : Nat) (ps : List Word) :
    pixReads s k n = .ok ps ↔ ps.length = n ∧ ∀ j (h : j < ps.length), pixRead s (k + j) = .ok ps[j] := by
  induction n generalizing k ps with
  | zero =>
    simp only [pixReads, Except.ok.injEq]
    constructor
    · rintro rfl
      exact ⟨rfl, fun j h => absurd h (by simp)⟩
    · rintro ⟨h, -⟩
      exact (List.length_eq_zero_iff.mp h).symm
  | succ n ih =>
    simp only [pixReads, except_bind_eq_ok, Except.ok.injEq]
    constructor
    · rintro ⟨p, hp, qs, hq, rfl⟩
      obtain ⟨hl, hh⟩ := (ih _ _).mp hq
      refine ⟨by simp [hl], fun j h => ?_⟩
      cases j with
      | zero => exact hp
      | succ j =>
        rw [show k + (j + 1) = k + 1 + j by omega, List.getElem_cons_succ]
        exact hh j (by simpa using h)
    · rintro ⟨hl, hh⟩
      cases ps with
      | nil => simp at hl
      | cons p ps =>
        refine ⟨p, hh 0 (Nat.zero_lt_succ _), ps, (ih _ _).mpr ⟨by simpa using hl, fun j h => ?_⟩, rfl⟩
        have := hh (j + 1) (by simpa using h)
        rwa [show k + (j + 1) = k + 1 + j by omega, List.getElem_cons_succ] at this

theorem compOperand_eq_ok (s : State) (k c : Nat) (x : F64) :
    compOperand s k c = .ok x ↔ compRead s k c = .ok x ∧ fpIsFinite x = true := by
  unfold compOperand
  rw [except_bind_eq_ok]
  constructor
  · rintro ⟨a, ha, hf⟩
    obtain ⟨h1, rfl⟩ := (finiteOperand_eq_ok _ _ _).mp hf
    exact ⟨ha, h1⟩
  · rintro ⟨h1, h2⟩
    exact ⟨x, h1, finiteOperand_of_finite _ h2⟩

theorem entryOperand_eq_ok (s : State) (k : Nat) (t : Triple) :
    entryOperand s k = .ok t ↔ (∀ c, c < 3 → compRead s k c = .ok (chan t c)) ∧ finiteTriple t = true := by
  unfold entryOperand
  simp only [except_bind_eq_ok, compOperand_eq_ok, Except.ok.injEq]
  constructor
  · rintro ⟨r, ⟨hr, fr⟩, g, ⟨hg, fg⟩, b, ⟨hb, fb⟩, rfl⟩
    refine ⟨fun c hc => ?_, by simp [finiteTriple, fr, fg, fb]⟩
    match c, hc with
    | 0, _ => simpa [chan] using hr
    | 1, _ => simpa [chan] using hg
    | 2, _ => simpa [chan] using hb
  · rintro ⟨h, hf⟩
    simp only [finiteTriple, Bool.and_eq_true] at hf
    exact ⟨t.r, ⟨by simpa [chan] using h 0 (by omega), hf.1.1⟩, t.g, ⟨by simpa [chan] using h 1 (by omega), hf.1.2⟩, t.b,
      ⟨by simpa [chan] using h 2 (by omega), hf.2⟩, rfl⟩

theorem entryOperands_eq_ok (s : State) (k n : Nat) (ts : List Triple) :
    entryOperands s k n = .ok ts ↔
      ts.length = n ∧ ∀ j (h : j < ts.length), (∀ c, c < 3 → compRead s (k + j) c = .ok (chan ts[j] c)) ∧ finiteTriple ts[j] = true := by
  induction n generalizing k ts with
  | zero =>
    simp only [entryOperands, Except.ok.injEq]
    constructor
    · rintro rfl
      exact ⟨rfl, fun j h => absurd h (by simp)⟩
    · rintro ⟨h, -⟩
      exact (List.length_eq_zero_iff.mp h).symm
  | succ n ih =>
    simp only [entryOperands, except_bind_eq_ok, Except.ok.injEq]
    constructor
    · rintro ⟨p, hp, qs, hq, rfl⟩
      obtain ⟨hl, hh⟩ := (ih _ _).mp hq
      refine ⟨by simp [hl], fun j h => ?_⟩
      cases j with
      | zero => exact (entryOperand_eq_ok _ _ _).mp hp
      | succ j =>
        rw [show k + (j + 1) = k + 1 + j by omega]
        simp only [List.getElem_cons_succ]
        exact hh j (by simpa using h)
    · rintro ⟨hl, hh⟩
      cases ts with
      | nil => simp at hl
      | cons p ps =>
        refine ⟨p, (entryOperand_eq_ok _ _ _).mpr (hh 0 (Nat.zero_lt_succ _)), ps,
          (ih _ _).mpr ⟨by simpa using hl, fun j h => ?_⟩, rfl⟩
        have := hh (j + 1) (by simpa using h)
        rw [show k + (j + 1) = k + 1 + j by omega] at this
        simpa only [List.getElem_cons_succ] using this

/-- The grid operand is what COMPRAM holds, every channel finite (43_transform.md R163, 44_hash_codec.md R173). -/
theorem gridOperand_eq_ok (s : State) (n : Nat) (g : Grid) :
    gridOperand s n = .ok g ↔
      g.ac.length = n - 1 ∧ HoldsEntries s (g.dc :: g.ac) ∧ finiteTriple g.dc = true ∧ ∀ t ∈ g.ac, finiteTriple t = true := by
  unfold gridOperand
  simp only [except_bind_eq_ok, Except.ok.injEq, entryOperand_eq_ok, entryOperands_eq_ok]
  constructor
  · rintro ⟨dc, ⟨hd, fd⟩, ac, ⟨hl, ha⟩, rfl⟩
    refine ⟨hl, fun k hk c hc => ?_, fd, fun t ht => ?_⟩
    · cases k with
      | zero => exact hd c hc
      | succ k =>
        have := (ha k (by simpa using hk)).1 c hc
        rwa [Nat.add_comm 1 k] at this
    · obtain ⟨j, hj, rfl⟩ := List.getElem_of_mem ht
      exact (ha j hj).2
  · rintro ⟨hl, hh, fd, fa⟩
    refine ⟨g.dc, ⟨fun c hc => hh 0 (Nat.zero_lt_succ _) c hc, fd⟩, g.ac, ⟨hl, fun j hj => ⟨fun c hc => ?_, fa _ (List.getElem_mem hj)⟩⟩, rfl⟩
    have := hh (j + 1) (by simpa using hj) c hc
    rwa [Nat.add_comm 1 j]

/-! ### Digits of the hash buffer -/

theorem hashDigit_eq_ok (s : State) (k d : Nat) :
    hashDigit s k = .ok d ↔ ∃ b, memRead s.mem (hashAddr k) = some b ∧ digit b = some d := by
  unfold hashDigit
  rw [except_bind_eq_ok]
  constructor
  · rintro ⟨b, hb, h⟩
    refine ⟨b, (hashRead_eq_ok _ _ _).mp hb, ?_⟩
    split at h
    · exact absurd h (raise_ne_ok _ _ _)
    · rename_i h'
      rw [h']
      simpa using h
  · rintro ⟨b, hb, hd⟩
    exact ⟨b, (hashRead_eq_ok _ _ _).mpr hb, by simp [hd]⟩

/-- A value read from HASH is that of its digits, the first the most significant (40_base83.md R132). -/
theorem hashValue_eq_ok (s : State) (k L v w : Nat) :
    hashValue s k L v = .ok w ↔
      ∃ ds : List Nat, ds.length = L ∧ (∀ j (h : j < ds.length), hashDigit s (k + j) = .ok ds[j]) ∧ w = ds.foldl (fun a d => a * 83 + d) v := by
  induction L generalizing k v with
  | zero =>
    simp only [hashValue, Except.ok.injEq]
    constructor
    · rintro rfl
      exact ⟨[], rfl, fun j h => absurd h (by simp), rfl⟩
    · rintro ⟨ds, hl, -, rfl⟩
      rw [List.length_eq_zero_iff.mp hl]
      rfl
  | succ L ih =>
    simp only [hashValue, except_bind_eq_ok]
    constructor
    · rintro ⟨d, hd, h⟩
      obtain ⟨ds, hl, hh, rfl⟩ := (ih _ _).mp h
      refine ⟨d :: ds, by simp [hl], fun j hj => ?_, rfl⟩
      cases j with
      | zero => exact hd
      | succ j =>
        rw [show k + (j + 1) = k + 1 + j by omega, List.getElem_cons_succ]
        exact hh j (by simpa using hj)
    · rintro ⟨ds, hl, hh, rfl⟩
      cases ds with
      | nil => simp at hl
      | cons d ds =>
        refine ⟨d, hh 0 (Nat.zero_lt_succ _), (ih _ _).mpr ⟨ds, by simpa using hl, fun j hj => ?_, rfl⟩⟩
        have := hh (j + 1) (by simpa using hj)
        rwa [show k + (j + 1) = k + 1 + j by omega, List.getElem_cons_succ] at this

theorem b83e_eq_ok (v L : Nat) (bs : List Byte) : b83e v L = .ok bs ↔ v < 83 ^ L ∧ bs = b83Digits v L := by
  unfold b83e
  split
  · rename_i h
    simp only [raise_eq_ok, false_iff]
    omega
  · rename_i h
    simp only [Except.ok.injEq]
    constructor
    · rintro rfl
      exact ⟨by omega, rfl⟩
    · rintro ⟨-, rfl⟩
      rfl

@[simp] theorem b83Digits_length (v L : Nat) : (b83Digits v L).length = L := by simp [b83Digits]

/-! ### Clamps -/

/-- A clamp keeps its bounds (00_scope.md R12). -/
theorem clampi_bounds (n : ExtInt) {lo hi : Int} (h : lo ≤ hi) : lo ≤ clampi n lo hi ∧ clampi n lo hi ≤ hi := by
  unfold clampi
  split
  · omega
  · omega
  · split
    · omega
    · split <;> omega

/-! ### The engine and the inputs -/

/-- A step takes the next input (00_scope.md R14). -/
theorem step_of_pending (s : State) (e : Event) (es : List Event) (h : s.pending = e :: es) :
    step s = takeEvent e { s with pending := es } := by
  simp only [step, nextInput, h]

theorem step_of_no_pending (s : State) (h : s.pending = []) : step s = engineTurn s := by
  simp only [step, nextInput, h, takeEvent]

theorem engineTurn_of_command (s : State) (w : Word) (i : Instr) (hr : s.inReset = false) (he : s.engine = .running w)
    (hd : Sys2Proof.decode w = .ok i) : engineTurn s = exec i s := by
  simp [engineTurn, hr, he, hd]

/-- Everything the engine's turn can do. -/
theorem engineTurn_cases (s : State) :
    (engineTurn s = .next s ∧ (s.inReset = true ∨ s.engine = .idle)) ∨
      (∃ w i, s.inReset = false ∧ s.engine = .running w ∧ Sys2Proof.decode w = .ok i ∧ engineTurn s = exec i s) ∨
        ∃ w e, s.inReset = false ∧ s.engine = .running w ∧ Sys2Proof.decode w = .error e ∧
          engineTurn s = .next (raiseError .illegalCmd w s) := by
  unfold engineTurn
  cases hr : s.inReset
  · cases he : s.engine with
    | idle => simp
    | running w =>
      cases hd : Sys2Proof.decode w with
      | ok i => exact .inr (.inl ⟨w, i, rfl, rfl, hd, by simp [hd]⟩)
      | error e => exact .inr (.inr ⟨w, e, rfl, rfl, hd, by simp [hd]⟩)
  · simp

end Sys2Proof.Machine
end

