-- ==== Sys2Proof/Laws/Commands.lean ====
section
/-! SUPPORT. What each command's results are: one lemma a command says everything its results can be when it succeeds. Proofs cite
these and do not unfold a command. -/

namespace Sys2Proof.Machine

/-- The results of a command: the state with its results stored, or how its pseudocode ended. -/
def runOf (i : Instr) (s : State) : Except Stop State :=
  match i with
  | .nop => .ok s
  | .encode => encodeRun s
  | .decode => decodeRun s
  | .components => componentsRun s
  | .fdct => fdctRun s
  | .qenc => qencRun s
  | .qdec => qdecRun s
  | .idct => idctRun s
  | .b83Enc off len => b83EncRun off len s
  | .b83Dec off len => b83DecRun off len s
  | .gammaDec imm => gammaDecRun imm s
  | .gammaEnc => gammaEncRun s
  | .quantMax => quantMaxRun s
  | .quantAc => quantAcRun s
  | .dequantAc imm => dequantAcRun imm s

/-- Every command completes by `finish` (20_memory.md R78). -/
theorem exec_eq_finish (i : Instr) (s : State) : exec i s = finish s (runOf i s) := by cases i <;> rfl

/-- No command is refused. -/
theorem exec_ne_refused (i : Instr) (s : State) (r : Refusal) : exec i s ≠ .refused r := by
  rw [exec_eq_finish]
  exact finish_ne_refused _ _ _

/-- What a command that answers a next state answers. -/
theorem exec_eq_next (i : Instr) (s t : State) :
    exec i s = .next t ↔
      (∃ u, runOf i s = .ok u ∧ t = flagsDone u) ∨ ∃ e info, runOf i s = .error (.raise e info) ∧ t = raiseError e info s := by
  rw [exec_eq_finish]
  exact finish_eq_next _ _ _

theorem exec_eq_fault (i : Instr) (s : State) (f : Fault) : exec i s = .fault f ↔ runOf i s = .error .uninitRead := by
  rw [exec_eq_finish]
  exact finish_eq_fault _ _ _

/-! ### The alphabet (40_base83.md R129) -/

theorem alphabet_length : alphabet.length = 83 := by decide

theorem digit_lt {b : Byte} {d : Nat} (h : digit b = some d) : d < 83 := by
  unfold digit at h
  rw [List.findIdx?_eq_some_iff_getElem] at h
  obtain ⟨hd, -⟩ := h
  rw [alphabet_length] at hd
  exact hd

theorem digit_alpha {d : Nat} (h : d < 83) : digit (alpha d) = some d := by
  have : ∀ d : Fin 83, digit (alpha d) = some d.val := by decide
  exact this ⟨d, h⟩

theorem alpha_of_digit {b : Byte} {d : Nat} (h : digit b = some d) : alpha d = b := by
  unfold digit at h
  rw [List.findIdx?_eq_some_iff_getElem] at h
  obtain ⟨hd, hb, -⟩ := h
  unfold alpha
  rw [List.getD_eq_getElem?_getD, List.getElem?_eq_getElem hd]
  simpa using hb

/-- A byte is no digit exactly if no digit is written as it. -/
theorem digit_eq_none (b : Byte) : digit b = none ↔ ∀ d, d < 83 → alpha d ≠ b := by
  constructor
  · rintro h d hd rfl
    rw [digit_alpha hd] at h
    cases h
  · intro h
    cases hd : digit b with
    | none => rfl
    | some d => exact absurd (alpha_of_digit hd) (h d (digit_lt hd))

/-! ### The hash codec -/

/-- The header parse answers the counts of a legal header (44_hash_codec.md R171). -/
theorem parseHdr_eq_ok (s : State) (X Y : Nat) :
    parseHdr s = .ok (X, Y) ↔
      ∃ d, 6 ≤ s.hashlen.toNat ∧ hashDigit s 0 = .ok d ∧ d ≤ 80 ∧ s.hashlen.toNat = 4 + 2 * ((d % 9 + 1) * (d / 9 + 1)) ∧
        X = d % 9 + 1 ∧ Y = d / 9 + 1 := by
  unfold parseHdr
  simp only
  split
  · simp only [raise_eq_ok, false_iff]
    rintro ⟨d, h, -⟩
    omega
  · rename_i h6
    rw [except_bind_eq_ok]
    constructor
    · rintro ⟨d, hd, h⟩
      split at h
      · exact absurd h (raise_ne_ok _ _ _)
      · split at h
        · exact absurd h (raise_ne_ok _ _ _)
        · rename_i h1 h2
          simp only [Except.ok.injEq, Prod.mk.injEq] at h
          exact ⟨d, by omega, hd, by omega, by omega, h.1.symm, h.2.symm⟩
    · rintro ⟨d, h0, hd, h1, h2, rfl, rfl⟩
      exact ⟨d, hd, by rw [if_neg (by omega), if_neg (by omega)]⟩

/-- The AC fields, where they are answered (44_hash_codec.md R173). -/
theorem acFields_eq_ok (m : F64) (ts : List Triple) (bs : List Byte) :
    acFields m ts = .ok bs ↔ (∀ t ∈ ts, acq t m < 83 ^ 2) ∧ bs = ts.flatMap fun t => b83Digits (acq t m) 2 := by
  induction ts generalizing bs with
  | nil => simp [acFields, eq_comm]
  | cons t ts ih =>
    simp only [acFields, except_bind_eq_ok, b83e_eq_ok, ih, Except.ok.injEq, List.forall_mem_cons, List.flatMap_cons]
    constructor
    · rintro ⟨_, ⟨h1, rfl⟩, _, ⟨h2, rfl⟩, rfl⟩
      exact ⟨⟨h1, h2⟩, rfl⟩
    · rintro ⟨⟨h1, h2⟩, rfl⟩
      exact ⟨_, ⟨h1, rfl⟩, _, ⟨h2, rfl⟩, rfl⟩

/-- The hash encoder answers the hash string of R170 with the scale of the AC entries, where every field fits its digits
(44_hash_codec.md R173). -/
theorem qencf_eq_ok (X Y : Nat) (g : Grid) (h : HashOut) :
    qencf X Y g = .ok h ↔
      ((X - 1) + (Y - 1) * 9 < 83 ^ 1 ∧ (acScale g.ac).1 < 83 ^ 1 ∧ dcq g.dc < 83 ^ 4 ∧
        ∀ t ∈ g.ac, acq t (acScale g.ac).2 < 83 ^ 2) ∧
      h = ⟨hashString X Y (acScale g.ac).1 (dcq g.dc) (g.ac.map fun t => acq t (acScale g.ac).2), (acScale g.ac).1,
        (acScale g.ac).2⟩ := by
  unfold qencf
  simp only [except_bind_eq_ok, b83e_eq_ok, acFields_eq_ok, Except.ok.injEq, hashString, List.flatMap_map]
  constructor
  · rintro ⟨_, ⟨h1, rfl⟩, _, ⟨h2, rfl⟩, _, ⟨h3, rfl⟩, _, ⟨h4, rfl⟩, rfl⟩
    exact ⟨⟨h1, h2, h3, h4⟩, rfl⟩
  · rintro ⟨⟨h1, h2, h3, h4⟩, rfl⟩
    exact ⟨_, ⟨h1, rfl⟩, _, ⟨h2, rfl⟩, _, ⟨h3, rfl⟩, _, ⟨h4, rfl⟩, rfl⟩

/-- What the hash decoder answers (44_hash_codec.md R174). -/
theorem qdecf_eq_ok (s : State) (h : HashIn) :
    qdecf s = .ok h ↔
      parseHdr s = .ok (h.X, h.Y) ∧ hashDigit s 1 = .ok h.q ∧ h.m = fpMul (maxv h.q) (fpOfInt (punchValue s)) ∧
        ∃ dc, hashValue s 2 4 0 = .ok dc ∧ dc ≤ 0xFFFFFF ∧ h.grid.dc = dcd dc ∧
          acEntries s h.m 1 (h.X * h.Y - 1) = .ok h.grid.ac := by
  unfold qdecf
  simp only [except_bind_eq_ok]
  constructor
  · rintro ⟨⟨X, Y⟩, hp, q, hq, dc, hdc, h'⟩
    split at h'
    · exact absurd h' (raise_ne_ok _ _ _)
    · rw [except_bind_eq_ok] at h'
      obtain ⟨ac, hac, h'⟩ := h'
      generalize hm : fpMul (maxv q) (fpOfInt (punchValue s)) = m at hac h'
      generalize hd : dcd dc = d at h'
      simp only [Except.ok.injEq] at h'
      subst h'
      exact ⟨hp, hq, hm.symm, dc, hdc, by omega, hd.symm, hac⟩
  · rintro ⟨hp, hq, hm, dc, hdc, hle, hg, hac⟩
    refine ⟨(h.X, h.Y), hp, h.q, hq, dc, hdc, ?_⟩
    rw [if_neg (by omega), except_bind_eq_ok, ← hm, ← hg]
    exact ⟨h.grid.ac, hac, rfl⟩

theorem acEntries_length (s : State) (m : F64) (k n : Nat) (ts : List Triple) (h : acEntries s m k n = .ok ts) :
    ts.length = n := by
  induction n generalizing k ts with
  | zero =>
    simp only [acEntries, Except.ok.injEq] at h
    subst h
    rfl
  | succ n ih =>
    simp only [acEntries, except_bind_eq_ok, Except.ok.injEq] at h
    obtain ⟨v, -, us, hu, rfl⟩ := h
    simp [ih _ _ hu]

/-! ### Results of a command that succeeds -/

theorem fdctRun_eq_ok (s t : State) :
    fdctRun s = .ok t ↔
      ∃ X Y W H px, chkComp s = .ok (X, Y) ∧ chkDim s = .ok (W, H) ∧ pixReads s 0 (W * H) = .ok px ∧
        t = { s with mem := gridStore s.mem (fdctGrid px X Y W H) } := by
  unfold fdctRun
  simp only [except_bind_eq_ok, Prod.exists, Except.ok.injEq]
  constructor
  · rintro ⟨X, Y, h1, W, H, h2, px, h3, rfl⟩
    exact ⟨X, Y, W, H, px, h1, h2, h3, rfl⟩
  · rintro ⟨X, Y, W, H, px, h1, h2, h3, rfl⟩
    exact ⟨X, Y, h1, W, H, h2, px, h3, rfl⟩

theorem idctRun_eq_ok (s t : State) :
    idctRun s = .ok t ↔
      ∃ X Y W H g, chkComp s = .ok (X, Y) ∧ chkDim s = .ok (W, H) ∧ gridOperand s (X * Y) = .ok g ∧
        t = { s with mem := pixStore s.mem (idctPixels g X W H) } := by
  unfold idctRun
  simp only [except_bind_eq_ok, Prod.exists, Except.ok.injEq]
  constructor
  · rintro ⟨X, Y, h1, W, H, h2, g, h3, rfl⟩
    exact ⟨X, Y, W, H, g, h1, h2, h3, rfl⟩
  · rintro ⟨X, Y, W, H, g, h1, h2, h3, rfl⟩
    exact ⟨X, Y, h1, W, H, h2, g, h3, rfl⟩

theorem componentsRun_eq_ok (s t : State) :
    componentsRun s = .ok t ↔ ∃ X Y, parseHdr s = .ok (X, Y) ∧ t = storeCounts X Y s := by
  unfold componentsRun
  simp only [except_bind_eq_ok, Prod.exists, Except.ok.injEq]
  constructor
  · rintro ⟨X, Y, h, rfl⟩
    exact ⟨X, Y, h, rfl⟩
  · rintro ⟨X, Y, h, rfl⟩
    exact ⟨X, Y, h, rfl⟩

theorem qencRun_eq_ok (s t : State) :
    qencRun s = .ok t ↔
      ∃ X Y g h, chkComp s = .ok (X, Y) ∧ gridOperand s (X * Y) = .ok g ∧ qencf X Y g = .ok h ∧ t = storeHash X Y h s := by
  unfold qencRun
  simp only [except_bind_eq_ok, Prod.exists, Except.ok.injEq]
  constructor
  · rintro ⟨X, Y, h1, g, h2, h, h3, rfl⟩
    exact ⟨X, Y, g, h, h1, h2, h3, rfl⟩
  · rintro ⟨X, Y, g, h, h1, h2, h3, rfl⟩
    exact ⟨X, Y, h1, g, h2, h, h3, rfl⟩

theorem qdecRun_eq_ok (s t : State) : qdecRun s = .ok t ↔ ∃ h, qdecf s = .ok h ∧ t = storeDecoded h s := by
  unfold qdecRun
  simp only [except_bind_eq_ok, Except.ok.injEq]
  constructor
  · rintro ⟨h, h1, rfl⟩
    exact ⟨h, h1, rfl⟩
  · rintro ⟨h, h1, rfl⟩
    exact ⟨h, h1, rfl⟩

theorem encodeRun_eq_ok (s t : State) :
    encodeRun s = .ok t ↔
      ∃ X Y W H px h, chkComp s = .ok (X, Y) ∧ chkDim s = .ok (W, H) ∧ pixReads s 0 (W * H) = .ok px ∧
        qencf X Y (fdctGrid px X Y W H) = .ok h ∧
        t = storeHash X Y h { s with mem := gridStore s.mem (fdctGrid px X Y W H) } := by
  unfold encodeRun
  simp only [except_bind_eq_ok, Prod.exists, Except.ok.injEq]
  constructor
  · rintro ⟨X, Y, h1, W, H, h2, px, h3, h, h4, rfl⟩
    exact ⟨X, Y, W, H, px, h, h1, h2, h3, h4, rfl⟩
  · rintro ⟨X, Y, W, H, px, h, h1, h2, h3, h4, rfl⟩
    exact ⟨X, Y, h1, W, H, h2, px, h3, h, h4, rfl⟩

theorem decodeRun_eq_ok (s t : State) :
    decodeRun s = .ok t ↔
      ∃ h W H, qdecf s = .ok h ∧ chkDim s = .ok (W, H) ∧
        t = { storeDecoded h s with mem := pixStore (storeDecoded h s).mem (idctPixels h.grid h.X W H) } := by
  unfold decodeRun
  simp only [except_bind_eq_ok, Prod.exists, Except.ok.injEq]
  constructor
  · rintro ⟨h, h1, W, H, h2, rfl⟩
    exact ⟨h, W, H, h1, h2, rfl⟩
  · rintro ⟨h, W, H, h1, h2, rfl⟩
    exact ⟨h, h1, W, H, h2, rfl⟩

theorem b83EncRun_eq_ok (off : BitVec 8) (len : BitVec 4) (s t : State) :
    b83EncRun off len s = .ok t ↔
      off.toNat + len.toNat ≤ 256 ∧ s.opa.toNat < 83 ^ len.toNat ∧
        t = { s with mem := hashStore s.mem off.toNat (b83Digits s.opa.toNat len.toNat) } := by
  unfold b83EncRun
  split
  · simp only [raise_eq_ok, false_iff]
    omega
  · simp only [except_bind_eq_ok, b83e_eq_ok, Except.ok.injEq]
    constructor
    · rintro ⟨bs, ⟨h1, rfl⟩, rfl⟩
      exact ⟨by omega, h1, rfl⟩
    · rintro ⟨-, h1, rfl⟩
      exact ⟨_, ⟨h1, rfl⟩, rfl⟩

theorem b83DecRun_eq_ok (off : BitVec 8) (len : BitVec 4) (s t : State) :
    b83DecRun off len s = .ok t ↔
      off.toNat + len.toNat ≤ 256 ∧ ∃ v, hashValue s off.toNat len.toNat 0 = .ok v ∧ t = { s with res := BitVec.ofNat 64 v } := by
  unfold b83DecRun
  split
  · simp only [raise_eq_ok, false_iff]
    omega
  · simp only [except_bind_eq_ok, Except.ok.injEq]
    constructor
    · rintro ⟨v, h, rfl⟩
      exact ⟨by omega, v, h, rfl⟩
    · rintro ⟨-, v, h, rfl⟩
      exact ⟨v, h, rfl⟩

theorem gammaEncRun_eq_ok (s t : State) :
    gammaEncRun s = .ok t ↔ fpIsFinite s.opa = true ∧ t = { s with res := BitVec.ofNat 64 (genc s.opa) } := by
  unfold gammaEncRun
  simp only [except_bind_eq_ok, finiteOperand_eq_ok, Except.ok.injEq]
  constructor
  · rintro ⟨x, ⟨h, rfl⟩, rfl⟩
    exact ⟨h, rfl⟩
  · rintro ⟨h, rfl⟩
    exact ⟨_, ⟨h, rfl⟩, rfl⟩

theorem quantMaxRun_eq_ok (s t : State) :
    quantMaxRun s = .ok t ↔ fpIsFinite s.opa = true ∧ t = { s with res := BitVec.ofNat 64 (qmaxf s.opa) } := by
  unfold quantMaxRun
  simp only [except_bind_eq_ok, finiteOperand_eq_ok, Except.ok.injEq]
  constructor
  · rintro ⟨x, ⟨h, rfl⟩, rfl⟩
    exact ⟨h, rfl⟩
  · rintro ⟨h, rfl⟩
    exact ⟨_, ⟨h, rfl⟩, rfl⟩

theorem quantAcRun_eq_ok (s t : State) :
    quantAcRun s = .ok t ↔
      fpIsFinite s.opa = true ∧ fpIsFinite s.opb = true ∧ fpLe s.opb fpZero = false ∧
        t = { s with res := BitVec.ofNat 64 (qacf s.opa s.opb) } := by
  unfold quantAcRun
  simp only [except_bind_eq_ok, finiteOperand_eq_ok]
  constructor
  · rintro ⟨x, ⟨h1, rfl⟩, y, ⟨h2, rfl⟩, h⟩
    split at h
    · exact absurd h (raise_ne_ok _ _ _)
    · rename_i h3
      simp only [Except.ok.injEq] at h
      exact ⟨h1, h2, by simpa using h3, h.symm⟩
  · rintro ⟨h1, h2, h3, rfl⟩
    exact ⟨_, ⟨h1, rfl⟩, _, ⟨h2, rfl⟩, by simp [h3]⟩

theorem dequantAcRun_eq_ok (imm : BitVec 8) (s t : State) :
    dequantAcRun imm s = .ok t ↔ fpIsFinite s.opb = true ∧ t = { s with res := dqf imm.toNat s.opb } := by
  unfold dequantAcRun
  simp only [except_bind_eq_ok, finiteOperand_eq_ok, Except.ok.injEq]
  constructor
  · rintro ⟨x, ⟨h, rfl⟩, rfl⟩
    exact ⟨h, rfl⟩
  · rintro ⟨h, rfl⟩
    exact ⟨_, ⟨h, rfl⟩, rfl⟩

end Sys2Proof.Machine
end

