-- ==== Sys2Proof/Laws/Float.lean ====
section
/-! SUPPORT. Patterns, views and the exponent search of the binary64 arithmetic: what each helper of Machine/Float.lean answers. -/

namespace Sys2Proof.Machine

/-! ### Patterns -/

theorem fpMag_lt (x : F64) : fpMag x < 2 ^ 63 := Nat.mod_lt _ (by decide)

theorem fpPack_toNat (neg : Bool) {mag : Nat} (h : mag < 2 ^ 63) : (fpPack neg mag).toNat = (if neg then 2 ^ 63 else 0) + mag := by
  unfold fpPack
  rw [BitVec.toNat_ofNat]
  apply Nat.mod_eq_of_lt
  cases neg
  · simp only [Bool.false_eq_true, if_false]; omega
  · simp only [if_true]; omega

theorem fpMag_fpPack (neg : Bool) {mag : Nat} (h : mag < 2 ^ 63) : fpMag (fpPack neg mag) = mag := by
  unfold fpMag
  rw [fpPack_toNat neg h]
  cases neg
  · simp only [Bool.false_eq_true, if_false]; omega
  · simp only [if_true]; omega

theorem fpSign_fpPack (neg : Bool) {mag : Nat} (h : mag < 2 ^ 63) : fpSign (fpPack neg mag) = neg := by
  unfold fpSign
  rw [fpPack_toNat neg h]
  cases neg
  · simp only [Bool.false_eq_true, if_false, decide_eq_false_iff_not]; omega
  · simp only [if_true, decide_eq_true_eq]; omega

/-- A pattern is its sign and its magnitude bits. -/
theorem fpPack_sign_mag (x : F64) : fpPack (fpSign x) (fpMag x) = x := by
  apply BitVec.eq_of_toNat_eq
  rw [fpPack_toNat _ (fpMag_lt x)]
  have := x.isLt
  unfold fpSign fpMag
  by_cases h : 2 ^ 63 ≤ x.toNat
  · simp only [h, decide_true, if_true]; omega
  · simp only [h, decide_false, Bool.false_eq_true, if_false]; omega

theorem fpIsFinite_fpPack (neg : Bool) {mag : Nat} (h : mag < 2 ^ 63) : fpIsFinite (fpPack neg mag) = decide (mag < fpInfMag) := by
  unfold fpIsFinite
  rw [fpMag_fpPack neg h]

/-- A finite pattern's view: the magnitude bits themselves below the normals, the significand with its hidden bit above. -/
theorem fpView_of_finite {x : F64} (h : fpIsFinite x = true) :
    fpView x =
      if fpMag x / 2 ^ 52 = 0 then .fin (fpSign x) (fpMag x) 0
      else .fin (fpSign x) (2 ^ 52 + fpMag x % 2 ^ 52) (fpMag x / 2 ^ 52 - 1) := by
  unfold fpIsFinite at h
  rw [decide_eq_true_eq] at h
  unfold fpView fpIsNan
  rw [decide_eq_false (Nat.not_lt.mpr (Nat.le_of_lt h))]
  rw [if_neg Bool.false_ne_true, if_neg (Nat.ne_of_lt h)]

/-- The units of a finite pattern, from its magnitude bits. -/
theorem fpUnits_of_finite {x : F64} (h : fpIsFinite x = true) :
    fpUnits x =
      if fpMag x / 2 ^ 52 = 0 then fpMag x else (2 ^ 52 + fpMag x % 2 ^ 52) * 2 ^ (fpMag x / 2 ^ 52 - 1) := by
  unfold fpUnits
  rw [fpView_of_finite h]
  by_cases hm : fpMag x / 2 ^ 52 = 0
  · rw [if_pos hm, if_pos hm]; simp
  · rw [if_neg hm, if_neg hm]

/-- The view of a finite pattern holds its sign and its units. -/
theorem fpView_units {x : F64} (h : fpIsFinite x = true) : ∃ m e, fpView x = .fin (fpSign x) m e ∧ fpUnits x = m * 2 ^ e := by
  by_cases hm : fpMag x / 2 ^ 52 = 0
  · exact ⟨fpMag x, 0, by rw [fpView_of_finite h, if_pos hm], by rw [fpUnits_of_finite h, if_pos hm]; simp⟩
  · exact ⟨_, _, by rw [fpView_of_finite h, if_neg hm], by rw [fpUnits_of_finite h, if_neg hm]⟩

/-! ### Rounding -/

/-- The exponent search finds the highest bit. -/
theorem log2Below_spec (k n : Nat) (h : n < 2 ^ 2 ^ k) (h0 : 0 < n) : 2 ^ log2Below k n ≤ n ∧ n < 2 ^ (log2Below k n + 1) := by
  induction k generalizing n with
  | zero =>
    simp only [log2Below]
    simp only [Nat.pow_zero, Nat.pow_one] at h
    omega
  | succ k ih =>
    unfold log2Below
    split
    · rename_i hle
      have hp : 0 < 2 ^ 2 ^ k := Nat.two_pow_pos _
      have hlt : n / 2 ^ 2 ^ k < 2 ^ 2 ^ k := by
        rw [Nat.div_lt_iff_lt_mul hp, ← Nat.pow_add, ← Nat.two_mul, ← Nat.pow_succ']
        exact h
      obtain ⟨h1, h2⟩ := ih _ hlt (Nat.div_pos hle hp)
      constructor
      · rw [Nat.pow_add, Nat.mul_comm]
        exact (Nat.le_div_iff_mul_le hp).mp h1
      · rw [Nat.add_assoc, Nat.pow_add, Nat.mul_comm]
        exact (Nat.div_lt_iff_lt_mul hp).mp h2
    · rename_i hlt
      exact ih n (Nat.not_le.mp hlt) h0

theorem fpRoundMag_le (n d : Nat) : fpRoundMag n d ≤ fpInfMag := Nat.min_le_right _ _

theorem fpInfMag_lt : fpInfMag < 2 ^ 63 := by decide

@[simp] theorem fpMag_fpRound (neg : Bool) (n d : Nat) : fpMag (fpRound neg n d) = fpRoundMag n d :=
  fpMag_fpPack neg (Nat.lt_of_le_of_lt (fpRoundMag_le n d) fpInfMag_lt)

@[simp] theorem fpSign_fpRound (neg : Bool) (n d : Nat) : fpSign (fpRound neg n d) = neg :=
  fpSign_fpPack neg (Nat.lt_of_le_of_lt (fpRoundMag_le n d) fpInfMag_lt)

end Sys2Proof.Machine
end

