-- ==== Sys2Proof/Laws/HostPort.lean ====
section
/-! SUPPORT. One lemma for each operation of the host port and of reset: everything it can do. -/

namespace Sys2Proof.Machine

/-! ### Host writes -/

/-- A rejected write changes nothing (20_memory.md R74). -/
theorem hostWrite_rejected {a n : Nat} (v : Word) (s : State) (h : accessOk a n = false) : hostWrite a n v s = (s, .slverr) := by
  simp [hostWrite, h]

/-- A write dropped while busy sets WDROP only (70_reset_and_hazards.md R241). -/
theorem hostWrite_dropped {a n : Nat} (v : Word) {s : State} (h : accessOk a n = true) (hb : busy s = true)
    (hw : writableBusy a = false) : hostWrite a n v s = (flagsDropped s, .okay 0) := by
  simp [hostWrite, h, hb, hw]

/-- A write that is performed (20_memory.md R73, R79). -/
theorem hostWrite_performed {a n : Nat} (v : Word) {s : State} (h : accessOk a n = true)
    (hb : busy s = false ∨ writableBusy a = true) : hostWrite a n v s = (storeAccepted a n v s, .okay 0) := by
  rcases hb with hb | hb <;> simp [hostWrite, h, hb]

/-- Everything a host write can do. -/
theorem hostWrite_cases (a n : Nat) (v : Word) (s : State) :
    (accessOk a n = false ∧ hostWrite a n v s = (s, .slverr)) ∨
      (accessOk a n = true ∧ busy s = true ∧ writableBusy a = false ∧ hostWrite a n v s = (flagsDropped s, .okay 0)) ∨
        accessOk a n = true ∧ (busy s = false ∨ writableBusy a = true) ∧
          hostWrite a n v s = (storeAccepted a n v s, .okay 0) := by
  cases h : accessOk a n
  · exact .inl ⟨rfl, hostWrite_rejected v s h⟩
  · cases hb : busy s
    · exact .inr (.inr ⟨rfl, .inl rfl, hostWrite_performed v h (.inl hb)⟩)
    · cases hw : writableBusy a
      · exact .inr (.inl ⟨rfl, rfl, rfl, hostWrite_dropped v h hb hw⟩)
      · exact .inr (.inr ⟨rfl, .inr rfl, hostWrite_performed v h (.inr hw)⟩)

/-- Where a performed write goes (20_memory.md R72, R75). -/
theorem storeAccepted_cases (a n : Nat) (v : Word) (s : State) :
    (∃ r, a < 0x100 ∧ regAt a = some r ∧ storeAccepted a n v s = regWrite r v s) ∨
      (0x100 ≤ a ∧ inWindow a = true ∧ storeAccepted a n v s = { s with mem := memWriteBytes s.mem a (leBytes n v.toNat) }) ∨
        ((a < 0x100 → regAt a = none) ∧ (0x100 ≤ a → inWindow a = false) ∧ storeAccepted a n v s = s) := by
  unfold storeAccepted
  by_cases ha : a < 0x100
  · cases hr : regAt a with
    | none => exact .inr (.inr ⟨fun _ => rfl, fun h => absurd ha (by omega), by simp [ha]⟩)
    | some r => exact .inl ⟨r, ha, rfl, by simp [ha]⟩
  · cases hw : inWindow a
    · exact .inr (.inr ⟨fun h => absurd h ha, fun _ => rfl, by simp [ha]⟩)
    · exact .inr (.inl ⟨by omega, rfl, by simp [ha]⟩)

/-- The offset of a register names it (10_state.md R23). -/
theorem regAt_regOffset (r : Reg) : regAt (regOffset r) = some r := by cases r <;> rfl

theorem regOffset_lt (r : Reg) : regOffset r < 0x100 := by cases r <;> decide

theorem accessOk_regOffset (r : Reg) : accessOk (regOffset r) 4 = true := by cases r <;> decide

/-- A performed 32-bit write at the offset of a register. -/
theorem storeAccepted_register (r : Reg) (n : Nat) (v : Word) (s : State) :
    storeAccepted (regOffset r) n v s = regWrite r v s := by
  simp [storeAccepted, regAt_regOffset, regOffset_lt]

/-! ### Host reads -/

theorem hostRead_rejected {a n : Nat} (s : State) (h : accessOk a n = false) : hostRead a n s = (s, .slverr) := by
  simp [hostRead, h]

theorem hostRead_register (r : Reg) (s : State) : hostRead (regOffset r) 4 s = (s, .okay (regRead s r)) := by
  simp [hostRead, accessOk_regOffset, regAt_regOffset, regOffset_lt]

/-- A host read changes nothing but the model's counter of free bytes (20_memory.md R76). -/
theorem hostRead_state (a n : Nat) (s : State) : (hostRead a n s).1 = { s with freeCtr := (hostRead a n s).1.freeCtr } := by
  unfold hostRead
  split
  · rfl
  · split
    · split <;> rfl
    · split <;> rfl

/-! ### Reset -/

/-- A soft reset of an idle block keeps every window (70_reset_and_hazards.md R232). -/
theorem softReset_idle {s : State} (h : s.engine = .idle) : softReset s = resetRegisters s := by
  simp [softReset, softResetMem, h, resetRegisters]

theorem softReset_running {s : State} {w : Word} (h : s.engine = .running w) :
    softReset s = { resetRegisters s with mem := memForget s.mem (wouldWrite w s) } := by
  simp [softReset, softResetMem, h]

end Sys2Proof.Machine
end

