-- ==== Sys2Proof/Laws/PerInstr.lean ====
section
/-! SUPPORT. The bits of a command word, and statements made for each command in turn: the encoding of a command matches its row of
spec/opcode_table.json (30_encoding.md R105). -/

namespace Sys2Proof

/-- The bits of a format B word (R102). -/
theorem wordB_getLsbD (opc off : BitVec 8) (len : BitVec 4) (k : Nat) :
    (wordB opc off len).getLsbD k =
      if k < 8 then opc.getLsbD k else if k < 16 then off.getLsbD (k - 8) else if k < 20 then len.getLsbD (k - 16) else false := by
  unfold wordB
  erw [BitVec.getLsbD_append, BitVec.getLsbD_append, BitVec.getLsbD_append]
  split
  · rfl
  · split <;> split <;> first | rfl | omega | skip
    all_goals (try split) <;> (try split) <;> first | rfl | omega | simp

/-- The bits of a format I word (R103). -/
theorem wordI_getLsbD (opc imm : BitVec 8) (k : Nat) :
    (wordI opc imm).getLsbD k = if k < 8 then opc.getLsbD k else if k < 16 then imm.getLsbD (k - 8) else false := by
  unfold wordI
  erw [BitVec.getLsbD_append, BitVec.getLsbD_append]
  split
  · rfl
  · split <;> split <;> first | rfl | omega | simp

end Sys2Proof

namespace Sys2Proof.Laws.TableRow

/-- The word of a command has its row's `match` under its row's `mask` (R105). -/
def Statement (i : Instr) : Prop := Sys2Proof.encode i &&& tableMask i = tableMatch i

theorem nop : Statement .nop := rfl

theorem encode : Statement .encode := rfl

theorem decode : Statement .decode := rfl

theorem components : Statement .components := rfl

theorem fdct : Statement .fdct := rfl

theorem qenc : Statement .qenc := rfl

theorem qdec : Statement .qdec := rfl

theorem idct : Statement .idct := rfl

theorem b83Enc (off : BitVec 8) (len : BitVec 4) : Statement (.b83Enc off len) := by
  simp only [Statement, Sys2Proof.encode, tableMask, tableMatch, opcode]
  apply BitVec.eq_of_getLsbD_eq
  intro k hk
  rw [BitVec.getLsbD_and, wordB_getLsbD]
  interval_cases k <;> simp

theorem b83Dec (off : BitVec 8) (len : BitVec 4) : Statement (.b83Dec off len) := by
  simp only [Statement, Sys2Proof.encode, tableMask, tableMatch, opcode]
  apply BitVec.eq_of_getLsbD_eq
  intro k hk
  rw [BitVec.getLsbD_and, wordB_getLsbD]
  interval_cases k <;> simp

theorem gammaDec (imm : BitVec 8) : Statement (.gammaDec imm) := by
  simp only [Statement, Sys2Proof.encode, tableMask, tableMatch, opcode]
  apply BitVec.eq_of_getLsbD_eq
  intro k hk
  rw [BitVec.getLsbD_and, wordI_getLsbD]
  interval_cases k <;> simp

theorem gammaEnc : Statement .gammaEnc := rfl

theorem quantMax : Statement .quantMax := rfl

theorem quantAc : Statement .quantAc := rfl

theorem dequantAc (imm : BitVec 8) : Statement (.dequantAc imm) := by
  simp only [Statement, Sys2Proof.encode, tableMask, tableMatch, opcode]
  apply BitVec.eq_of_getLsbD_eq
  intro k hk
  rw [BitVec.getLsbD_and, wordI_getLsbD]
  interval_cases k <;> simp

end Sys2Proof.Laws.TableRow
end

