-- ==== Sys2Proof/Machine/HostScript.lean ====
section
/-! DEFINITION. Host scripts (30_encoding.md R110, R111): what each line issues on the host port, the pseudo-instructions, and the
host's own control flow over labels. The host is outside the block (Log 23). -/

namespace Sys2Proof.Machine

/-- The platform address of an aperture offset (20_memory.md R70). -/
def busAddress (off : BitVec 19) : Nat := Config.apertureBase + off.toNat

/-- A line of a host script (R110). A label is a number; `bnz mask l` and `bz mask l` test the last read value under the mask.
R110 gives the operands no ranges: offsets of 19 bits, data of the access's width and command operands of their fields' widths are
the model's (DESIGN CHOICE, Log 28). -/
inductive HostLine where
  | wr (r : Reg) (v : Word)
  | rd (r : Reg)
  | wrb (off : BitVec 19) (v : Byte)
  | wrh (off : BitVec 19) (v : BitVec 16)
  | ww (off : BitVec 19) (v : Word)
  | rdb (off : BitVec 19)
  | rdh (off : BitVec 19)
  | rw (off : BitVec 19)
  | cmd (i : Instr)
  | label (l : Nat)
  | bnz (mask : Word) (l : Nat)
  | bz (mask : Word) (l : Nat)
deriving DecidableEq, Repr

/-- The offset of a register as a port offset. -/
def regPort (r : Reg) : BitVec 19 := BitVec.ofNat 19 (regOffset r)

/-- The transaction a line issues (R110); none for the host's own control flow. -/
def lineTxn : HostLine → Option HostTxn
  | .wr r v => some (.write (regPort r) 4 v)
  | .rd r => some (.read (regPort r) 4)
  | .wrb off v => some (.write off 1 (v.setWidth 32))
  | .wrh off v => some (.write off 2 (v.setWidth 32))
  | .ww off v => some (.write off 4 v)
  | .rdb off => some (.read off 1)
  | .rdh off => some (.read off 2)
  | .rw off => some (.read off 4)
  | .cmd i => some (.write (regPort .cmd) 4 (Sys2Proof.encode i))
  | .label _ => none
  | .bnz _ _ => none
  | .bz _ _ => none

/-- Where the host stands in its script: the next line and the last value it read. -/
structure HostPos where
  line : Nat
  last : Word
deriving DecidableEq, Repr

/-- The line after a label: of two lines that define it the first, and the end of the script where none does. 30_encoding.md R110
says neither (DESIGN CHOICE, Log 27). -/
def labelLine (script : List HostLine) (l : Nat) : Nat :=
  match script.findIdx? (fun x => x == HostLine.label l) with
  | some k => k + 1
  | none => script.length

/-- One line of a script (R110): the position after it, and the transaction it issues. -/
def hostLineStep (script : List HostLine) (p : HostPos) : HostPos × Option HostTxn :=
  match script[p.line]? with
  | none => (p, none)
  | some (.bnz mask l) => ({ p with line := if p.last &&& mask ≠ 0 then labelLine script l else p.line + 1 }, none)
  | some (.bz mask l) => ({ p with line := if p.last &&& mask = 0 then labelLine script l else p.line + 1 }, none)
  | some x => ({ p with line := p.line + 1 }, lineTxn x)

/-- The position once the response of a read is known: its value is what the next branch tests. -/
def hostGotRead (p : HostPos) (r : Response) : HostPos :=
  match r with
  | .okay v => { p with last := v }
  | .slverr => { p with last := 0 }

/-! ### Pseudo-instructions (R111)

R111 prints the expansions and gives the operands no ranges. The operand widths below, and that an offset past the aperture wraps,
are the model's (DESIGN CHOICE, Log 28). -/

/-- `wait`, with a label of the script's. -/
def pseudoWait (l : Nat) : List HostLine := [.label l, .rd .status, .bnz 1 l]

/-- `run C`. -/
def pseudoRun (i : Instr) (l : Nat) : List HostLine := .cmd i :: pseudoWait l

/-- `ack`. -/
def pseudoAck : List HostLine := [.wr .status 0x0000000E]

/-- `ld64 OPA, v`; `ldf64 OPA, x` with the bits of `x`. The value has 64 bits (DESIGN CHOICE, Log 28). -/
def pseudoLdOpa (v : BitVec 64) : List HostLine := [.wr .opaLo (lo32 v), .wr .opaHi (hi32 v)]

/-- `ld64 OPB, v`; `ldf64 OPB, x` with the bits of `x`. The value has 64 bits (DESIGN CHOICE, Log 28). -/
def pseudoLdOpb (v : BitVec 64) : List HostLine := [.wr .opbLo (lo32 v), .wr .opbHi (hi32 v)]

/-- `ldhash "s"`, the string as its ASCII codes. A byte past the aperture goes to its offset modulo `2^19`, and the length is taken
modulo `2^32`; R111 says nothing of such a string (DESIGN CHOICE, Log 28). -/
def pseudoLdHash (bs : List Byte) : List HostLine :=
  bs.zipIdx.map (fun bk => HostLine.wrb (BitVec.ofNat 19 (hashAddr bk.2)) bk.1) ++ [.wr .hashlen (BitVec.ofNat 32 bs.length)]

/-- `ldpix k, r, g, b`. The offset is taken modulo `2^19`, so for `k` at least 65536 the write goes to another offset of the
aperture, a register's among them; R111 gives neither `k` nor the samples, 8 bits here, a range (DESIGN CHOICE, Log 28). -/
def pseudoLdPix (k : Nat) (r g b : Byte) : List HostLine :=
  [.ww (BitVec.ofNat 19 (pixAddr k)) ((0xFF : Byte) ++ b ++ g ++ r)]

/-- `setcomp x, y`. The counts have 4 bits each; R111 gives them no range (DESIGN CHOICE, Log 28). -/
def pseudoSetComp (x y : BitVec 4) : List HostLine := [.wr .comp ((0 : BitVec 24) ++ y ++ x)]

/-- `setdim w, h`. The dimensions have 16 bits each; R111 gives them no range (DESIGN CHOICE, Log 28). -/
def pseudoSetDim (w h : BitVec 16) : List HostLine := [.wr .width (w.setWidth 32), .wr .height (h.setWidth 32)]

end Sys2Proof.Machine
end

