-- ==== Sys2Proof/Tests/Slice0.lean ====
section
/-! SUPPORT. Tests of the model, each about one step on a small state, with expected values from spec/95_test_vectors.md or from the
rule named; and for each statement of the certificate that has hypotheses, states and operands that meet them. -/

namespace Sys2Proof.Tests

open Sys2Proof Sys2Proof.Machine

/-! ### Helpers -/

/-- The next state of an outcome, if it is one. -/
def nextOf (o : Host.Outcome State Fault Refusal) : Option State :=
  match o with
  | .next t => some t
  | .fault _ => none
  | .refused _ => none

/-- Whether an outcome is a fault. -/
def faults (o : Host.Outcome State Fault Refusal) : Bool :=
  match o with
  | .next _ => false
  | .fault _ => true
  | .refused _ => false

/-- A command accepted and run. -/
def run (i : Instr) (s : State) : State := (nextOf (exec i (accepted i s))).getD s

theorem exec_eq_run {i : Instr} {s : State} (h : (nextOf (exec i (accepted i s))).isSome = true) :
    exec i (accepted i s) = .next (run i s) := by
  unfold run
  generalize exec i (accepted i s) = o at h
  cases o <;> simp_all [nextOf]

theorem exec_fault {i : Instr} {s : State} (h : faults (exec i s) = true) : exec i s = .fault .uninitRead := by
  generalize exec i s = o at h
  cases o with
  | next t => cases h
  | fault f => cases f; rfl
  | refused r => cases h

/-- The state after reset with bytes at an offset. -/
def holding (a : Nat) (bs : List Byte) : State := { State.reset with mem := memWriteBytes ⟨[]⟩ a bs }

/-- The bytes of a text. -/
def ascii (t : String) : List Byte := t.toList.map fun c => BitVec.ofNat 8 c.toNat

/-- A state with a hash loaded: the pseudo-instruction `ldhash` (30_encoding.md R111). -/
def hashed (t : String) : State := { holding 0x100 (ascii t) with hashlen := BitVec.ofNat 9 t.length }

/-- A state with counts, a 1 x 1 image and its pixel word. -/
def pictured (x y : BitVec 4) (p : Word) : State :=
  { holding 0x40000 (leBytes 4 p.toNat) with xc := x, yc := y, width := 1, height := 1 }

/-- A state with counts, a 1 x 1 output and COMPRAM entries. -/
def gridded (x y : BitVec 4) (ts : List Triple) : State :=
  { holding 0x800 (ts.flatMap tripleBytes) with xc := x, yc := y, width := 1, height := 1 }

/-- The HASH bytes from 0 on. -/
def hashBytes (s : State) (n : Nat) : Option (List Byte) := memReadBytes s.mem 0x100 n

/-! ### Well-formedness (30_encoding.md R102) -/

theorem test_len_10_wellFormed : (Instr.b83Enc 0 10).wellFormed = true ∧ (Instr.b83Dec 255 10).wellFormed = true := by decide

theorem test_len_11_refused_enc : (Instr.b83Enc 0 11).wellFormed = false := by decide

theorem test_len_11_refused_dec : (Instr.b83Dec 0 11).wellFormed = false := by decide

theorem test_len_15_refused : (Instr.b83Enc 255 15).wellFormed = false ∧ (Instr.b83Dec 255 15).wellFormed = false := by decide

/-! ### Decoding: a word of each command, written out from the formats of 30_encoding.md R100 to R104 -/

theorem test_decode_nop : Sys2Proof.decode 0x00000000 = .ok .nop := by decide

theorem test_decode_encode : Sys2Proof.decode 0x00000001 = .ok .encode := by decide

theorem test_decode_decode : Sys2Proof.decode 0x00000002 = .ok .decode := by decide

theorem test_decode_components : Sys2Proof.decode 0x00000003 = .ok .components := by decide

theorem test_decode_fdct : Sys2Proof.decode 0x00000010 = .ok .fdct := by decide

theorem test_decode_qenc : Sys2Proof.decode 0x00000011 = .ok .qenc := by decide

theorem test_decode_qdec : Sys2Proof.decode 0x00000012 = .ok .qdec := by decide

theorem test_decode_idct : Sys2Proof.decode 0x00000013 = .ok .idct := by decide

/-- LEN = 6 in bits [19:16], OFF = 0x81 in bits [15:8]. -/
theorem test_decode_b83Enc : Sys2Proof.decode 0b00000000000001101000000100100000 = .ok (.b83Enc 0x81 6) := by decide

/-- LEN = 10, OFF = 0xFF. -/
theorem test_decode_b83Dec : Sys2Proof.decode 0b00000000000010101111111100100001 = .ok (.b83Dec 0xFF 10) := by decide

theorem test_decode_gammaDec : Sys2Proof.decode 0b00000000000000001111111100110000 = .ok (.gammaDec 255) := by decide

theorem test_decode_gammaEnc : Sys2Proof.decode 0x00000031 = .ok .gammaEnc := by decide

theorem test_decode_quantMax : Sys2Proof.decode 0x00000040 = .ok .quantMax := by decide

theorem test_decode_quantAc : Sys2Proof.decode 0x00000041 = .ok .quantAc := by decide

theorem test_decode_dequantAc : Sys2Proof.decode 0b00000000000000000000110001000010 = .ok (.dequantAc 12) := by decide

/-- The illegal words of R107: an unused opcode, a reserved bit in each format, LEN = 11. -/
theorem test_decode_illegal :
    Sys2Proof.decode 0x00000004 = .error .unknownOpcode ∧ Sys2Proof.decode 0x00000100 = .error .reservedBits ∧
      Sys2Proof.decode 0x00100020 = .error .reservedBits ∧ Sys2Proof.decode 0x00010030 = .error .reservedBits ∧
      Sys2Proof.decode 0x000B0020 = .error .lenOutOfRange := by decide

/-- The bytes of a word, least significant first (20_memory.md R73); a command is one word only (R109). -/
theorem test_decode_bytes :
    decodeBytes [0x21, 0xF6, 0x0A, 0x00] = .ok (.b83Dec 0xF6 10) ∧ decodeBytes [0x00, 0x00] = .error .notOneWord ∧
      decodeTableWord 32 0x000AF621 = some (.b83Dec 0xF6 10) ∧ decodeTableWord 32 0x000BF621 = none := by decide

/-! ### Steps -/

/-- NOP written and run: STATUS = 0x00000002 (45_system.md R190). -/
theorem test_step_nop :
    (nextOf (step (State.reset.withFetchWord 32 0x00000000))).map statusWord = some 0x00000002 := by decide

/-- `GAMMA_DEC 255` from reset (41_gamma.md R142). -/
theorem test_step_gammaDec :
    (nextOf (step (State.reset.withFetchWord 32 0x0000FF30))).map (fun t => (t.res, t.pending)) =
      some (0x3FF0000000000000, []) := by decide +kernel

/-- An illegal word completes with STATUS = 0x00000604 and ERRINFO the word (30_encoding.md R107). -/
theorem test_step_illegal :
    (nextOf (step (State.reset.withFetchWord 32 0x00000004))).map (fun t => (statusWord t, t.errinfo)) =
      some (0x00000604, 0x00000004) := by decide

/-- A write of CMD over the port is accepted: STATUS = 0x00000001 (20_memory.md R77). -/
theorem test_step_write_cmd :
    (nextOf (step { State.reset with pending := [.host (.write 0x010 4 0x00000031)] })).map (fun t => (statusWord t, t.engine)) =
      some (0x00000001, .running 0x00000031) := by decide

/-- A byte read of the G sample of a pixel (20_memory.md R73). -/
theorem test_read_sample :
    (nextOf (hostTurn (.read 0x40001 1) (pictured 1 1 0xFF781ED5))).map (fun t => t.resp) = some (some (.okay 0x1E)) := by
  decide +kernel

/-! ### Commands, with the values of spec/95_test_vectors.md -/

/-- "foobar" (40_base83.md R131). -/
theorem test_b83Enc_foobar :
    hashBytes (run (.b83Enc 0 6) { State.reset with opa := 163902429697 }) 6 = some [0x66, 0x6F, 0x6F, 0x62, 0x61, 0x72] := by
  decide +kernel

/-- `83^10` does not fit ten digits (R131). -/
theorem test_b83Enc_too_large :
    statusWord (run (.b83Enc 0 10) { State.reset with opa := 0xD7540D4093BC3109 }) = 0x00000204 := by decide +kernel

/-- "foobar" read back (R133). -/
theorem test_b83Dec_foobar : (run (.b83Dec 0 6) (hashed "foobar")).res = 163902429697 := by decide +kernel

/-- `!` at offset 2 is INVALID_CHARACTER with ERRINFO 0x0221 (R133, 60_exceptions.md R201). -/
theorem test_b83Dec_bad_character :
    (fun t : State => (statusWord t, t.errinfo)) (run (.b83Dec 0 3) (hashed "ab!")) = (0x00000304, 0x00000221) := by decide +kernel

/-- Entry 10, the last of the linear branch (41_gamma.md R142). -/
theorem test_gammaDec_10 : (run (.gammaDec 10) State.reset).res = 0x3F68DD6C15B1D4B4 := by decide +kernel

/-- `GENC(0.0031308) = 10` (41_gamma.md R143). -/
theorem test_gammaEnc_linear_end : (run .gammaEnc { State.reset with opa := fpLit 31308 10000000 }).res = 10 := by decide +kernel

/-- An infinite OPA is OPERAND(0) (R143). -/
theorem test_gammaEnc_infinity :
    (fun t : State => (statusWord t, t.errinfo)) (run .gammaEnc { State.reset with opa := 0x7FF0000000000000 }) =
      (0x00000A04, 0) := by decide +kernel

/-- 0.1 is level 16 (42_quantizer.md R153). -/
theorem test_quantMax_tenth : (run .quantMax { State.reset with opa := 0x3FB999999999999A }).res = 16 := by decide +kernel

/-- The boundary of levels 0 and 1, one binary64 value wide (R152). -/
theorem test_quantMax_boundary :
    (run .quantMax { State.reset with opa := fpDiv (fpLit 15 10) (fpLit 166 1) - 1 }).res = 0 ∧
      (run .quantMax { State.reset with opa := fpDiv (fpLit 15 10) (fpLit 166 1) }).res = 1 := by decide +kernel

/-- 0.05 against 0.5 is level 12, -0.125 against 0.5 level 5 (42_quantizer.md R154). -/
theorem test_quantAc :
    (run .quantAc { State.reset with opa := 0x3FA999999999999A, opb := 0x3FE0000000000000 }).res = 12 ∧
      (run .quantAc { State.reset with opa := 0xBFC0000000000000, opb := 0x3FE0000000000000 }).res = 5 := by decide +kernel

/-- A zero OPB is OPERAND(1) (R154). -/
theorem test_quantAc_zero :
    (fun t : State => (statusWord t, t.errinfo)) (run .quantAc { State.reset with opb := 0x8000000000000000 }) =
      (0x00000A04, 1) := by decide +kernel

/-- Levels 12 and 19 of 1.0 (42_quantizer.md R155). -/
theorem test_dequantAc :
    (run (.dequantAc 12) { State.reset with opb := 0x3FF0000000000000 }).res = 0x3FBC71C71C71C71C ∧
      (run (.dequantAc 19) { State.reset with opb := 0x3FF0000000000000 }).res = 0x3FF3C0CA4587E6B8 := by decide +kernel

/-- A 1 x 1 image: the DC component is LIN_LUT of the pixel, every AC component twice that (43_transform.md R162). -/
theorem test_fdct_one_pixel :
    let t := run .fdct (pictured 2 1 0x00FF00FF)
    compRead t 0 0 = .ok 0x3FF0000000000000 ∧ compRead t 0 1 = .ok 0 ∧ compRead t 1 0 = .ok 0x4000000000000000 ∧
      compRead t 1 2 = .ok 0x4000000000000000 := by decide +kernel

/-- A grid of DC only gives GENC of it, A = 0xFF (43_transform.md R163). -/
theorem test_idct_one_pixel :
    pixRead (run .idct (gridded 1 1 [⟨fpOne, fpZero, fpOne⟩])) 0 = .ok 0xFFFF00FF := by decide +kernel

/-- A channel that is not finite is OPERAND(0x100 + 3k + c) (R163). -/
theorem test_idct_bad_channel :
    (fun t : State => (statusWord t, t.errinfo)) (run .idct (gridded 1 1 [⟨fpOne, fpZero, 0x7FF0000000000000⟩])) =
      (0x00000A04, 0x102) := by decide +kernel

/-- The header of a 4 x 3 hash (44_hash_codec.md R172). -/
theorem test_components :
    regRead (run .components (hashed "LFE.@D9F01_2%L%MIVD*9Goe-;WB")) .comp = 0x00000034 := by decide +kernel

/-- Five bytes are too few: INVALID_HASH reason 0 (R171). -/
theorem test_components_short :
    (fun t : State => (statusWord t, t.errinfo)) (run .components (hashed "00000")) = (0x00000404, 0x00050000) := by decide +kernel

/-- An all-zero 4 x 3 grid (44_hash_codec.md R173). -/
theorem test_qenc_zero :
    let t := run .qenc (gridded 4 3 (List.replicate 12 zeroTriple))
    hashBytes t 28 = some (ascii "L00000fQfQfQfQfQfQfQfQfQfQfQ") ∧ t.hashlen = 28 ∧ t.maxq = 0 := by decide +kernel

/-- MAXQ and MAXVAL of a known hash (44_hash_codec.md R174). -/
theorem test_qdec_max :
    let t := run .qdec (hashed "LFE.@D9F01_2%L%MIVD*9Goe-;WB")
    t.maxq = 15 ∧ t.maxval = 0x3FB8ACB90F6BF3AA ∧ regRead t .comp = 0x34 := by decide +kernel

/-- An AC field above 6858: level 19 in R (92_eei_decisions.md D29). -/
theorem test_qdec_level_19 :
    let t := run .qdec (hashed "10TSUA~r")
    compRead t 0 0 = .ok 0x3FF0000000000000 ∧ compRead t 1 0 = .ok 0x3F7E766C5EE416B3 ∧
      compRead t 1 1 = .ok 0xBF78ACB90F6BF3AA := by decide +kernel

/-- A black 1 x 1 image with COMP = 0x34. -/
theorem test_encode_black :
    let t := run .encode (pictured 4 3 0x00000000)
    hashBytes t 28 = some (ascii "L00000fQfQfQfQfQfQfQfQfQfQfQ") ∧ t.hashlen = 28 ∧ t.maxq = 0 := by decide +kernel

/-- "00TSUA" to a 1 x 1 image: a white pixel. -/
theorem test_decode_white :
    pixRead (run .decode { hashed "00TSUA" with width := 1, height := 1 }) 0 = .ok 0xFFFFFFFF := by decide +kernel

/-- "00TSUB" is DC_RANGE, nothing committed. -/
theorem test_decode_dc_range :
    let t := run .decode { hashed "00TSUB" with width := 1, height := 1 }
    statusWord t = 0x00000904 ∧ t.errinfo = 0x01000000 ∧ t.xc = 0 := by decide +kernel

/-! ### States and operands that meet the hypotheses of the statements

One theorem for each statement that has hypotheses, under the statement's name; each clause at the ends of its range. -/

/-- A running NOP. -/
def running : State := accepted .nop State.reset

theorem pixCap_pos : 1 * 1 ≤ Config.pixCap := Nat.le_add_left 1 _

theorem pixCap_max : Config.pixCap ≤ 65536 := Config.pixCapPred.isLt

theorem witness_RejectedWordsAreTheIllegalOnes :
    illegalWord 0x00000004 = true ∧ illegalWord 0x00000100 = true ∧ illegalWord 0x000B0020 = true ∧ illegalWord 0x00100021 = true ∧
      illegalWord 0x00010030 = true ∧ illegalWord 0x000AFF20 = false := by decide

theorem witness_StepRunsTheDecodedCommand :
    running.inReset = false ∧ running.engine = .running 0x00000000 ∧ Sys2Proof.decode 0x00000000 = .ok .nop ∧
      running.pending = [] ∧ { running with pending := [.complete] }.pending = .complete :: [] ∧
      { running with pending := [.host (.read 0 4)] }.pending = .host (.read 0 4) :: [] := by decide

theorem witness_CommandWriteIsAccepted : State.reset.inReset = false ∧ busy State.reset = false := by decide

/-- An idle block and a block that runs an illegal word, with no input left and with its completion next. -/
theorem witness_IllegalCommandIsReported :
    State.reset.inReset = false ∧ busy State.reset = false ∧ illegalWord 0x00000043 = true ∧ illegalWord 0x80000000 = true ∧
      (acceptCommand 0x00000043 State.reset).inReset = false ∧
      (acceptCommand 0x00000043 State.reset).engine = .running 0x00000043 ∧
      (acceptCommand 0x00000043 State.reset).pending = [] ∧
      { acceptCommand 0x00000043 State.reset with pending := [.complete] }.pending = .complete :: [] := by decide

theorem witness_CompletionSetsExactlyOneFlag :
    exec .nop (accepted .nop State.reset) = .next (run .nop State.reset) ∧
      exec .fdct (accepted .fdct State.reset) = .next (run .fdct State.reset) :=
  ⟨exec_eq_run (by decide +kernel), exec_eq_run (by decide +kernel)⟩

theorem witness_OnlyHostAccessInResetIsRefused :
    { State.reset with inReset := true }.inReset = true ∧
      step { State.reset with inReset := true, pending := [.host (.read 0 4)] } = .refused .hostAccessInReset := ⟨rfl, rfl⟩

/-- The empty slice at both ends of the buffer, one digit at byte 255, ten digits of the largest value. -/
theorem witness_B83EncWritesTheDigits :
    (0#8).toNat + (0#4).toNat ≤ 256 ∧ (0#64).toNat < 83 ^ (0#4).toNat ∧ (255#8).toNat + (1#4).toNat ≤ 256 ∧
      (82#64).toNat < 83 ^ (1#4).toNat ∧ (246#8).toNat + (10#4).toNat ≤ 256 ∧
      (0xD7540D4093BC3108#64).toNat < 83 ^ (10#4).toNat := by decide

theorem witness_B83EncErrors :
    256 < (255#8).toNat + (2#4).toNat ∧ (255#8).toNat + (1#4).toNat ≤ 256 ∧ 83 ^ (1#4).toNat ≤ (83#64).toNat ∧
      83 ^ (0#4).toNat ≤ (1#64).toNat ∧ 83 ^ (10#4).toNat ≤ (0xD7540D4093BC3109#64).toNat := by decide

theorem witness_B83DecReadsTheValue :
    (246#8).toNat + (10#4).toNat ≤ 256 ∧ (List.replicate 10 82).length = (10#4).toNat ∧ (∀ d ∈ List.replicate 10 82, d < 83) ∧
      HoldsBytes (holding 0x1F6 ((List.replicate 10 82).map alpha)).mem (0x100 + (246#8).toNat) ((List.replicate 10 82).map alpha) ∧
      ([] : List Nat).length = (0#4).toNat ∧ HoldsBytes State.reset.mem (0x100 + (255#8).toNat) (([] : List Nat).map alpha) := by
  unfold HoldsBytes; decide +kernel

/-- Past the buffer; a byte that is no digit and a never-written byte, first in the slice and after a digit. -/
theorem witness_B83DecErrors :
    256 < (255#8).toNat + (2#4).toNat ∧ (0#8).toNat + (2#4).toNat ≤ 256 ∧ ([] : List Nat).length < (2#4).toNat ∧
      [82].length < (2#4).toNat ∧ (∀ d ∈ [82], d < 83) ∧ HoldsBytes (hashed "~!").mem (0x100 + (0#8).toNat) ([82].map alpha) ∧
      memRead (hashed "~!").mem (0x100 + ((0#8).toNat + [82].length)) = some 0x21 ∧
      memRead (hashed "!").mem (0x100 + ((0#8).toNat + ([] : List Nat).length)) = some 0x21 ∧ (∀ d, d < 83 → alpha d ≠ 0x21) ∧
      memRead (hashed "~").mem (0x100 + ((0#8).toNat + [82].length)) = none ∧
      memRead State.reset.mem (0x100 + ((0#8).toNat + ([] : List Nat).length)) = none := by
  unfold HoldsBytes; decide +kernel

theorem witness_Base83RoundTrip :
    83 ^ 2 - 1 < 83 ^ 2 ∧ b83d [0x7E, 0x7E] = .ok (83 ^ 2 - 1) ∧ (10#4).toNat ≤ 10 ∧
      exec (.b83Enc 246 10) (accepted (.b83Enc 246 10) State.reset) = .next (run (.b83Enc 246 10) State.reset) ∧
      (run (.b83Enc 246 10) State.reset).done = true :=
  ⟨by decide, by decide +kernel, by decide, exec_eq_run (by decide +kernel), by decide +kernel⟩

theorem witness_GammaDecLooksUp : 11 ≤ (11#8 : Byte).toNat ∧ 11 ≤ (255#8 : Byte).toNat := by decide

/-- The largest finite values of either sign, an infinity and a NaN. -/
theorem witness_FiniteOperandCommands :
    ¬expAllOnes 0x7FEFFFFFFFFFFFFF ∧ ¬expAllOnes 0 ∧ ¬expAllOnes 0xFFEFFFFFFFFFFFFF ∧ expAllOnes 0x7FF0000000000000 ∧
      expAllOnes 0xFFF0000000000000 ∧ expAllOnes 0xFFFFFFFFFFFFFFFF := by
  unfold expAllOnes; decide

/-- The ends, the least positive value, the end of the linear branch and the values beside it and below 1.0. -/
theorem witness_GencBranches :
    fpLt fpZero 1 = true ∧ fpLe 1 (fpLit 31308 10000000) = true ∧ fpLe (fpLit 31308 10000000) (fpLit 31308 10000000) = true ∧
      fpLt (fpLit 31308 10000000) (fpLit 31308 10000000 + 1) = true ∧ fpLt (fpLit 31308 10000000) 0x3FEFFFFFFFFFFFFF = true ∧
      fpLt 0x3FEFFFFFFFFFFFFF fpOne = true ∧ (10#8 : Byte).toNat ≤ 10 ∧
    fpIsNan 0x7FF0000000000001 = true ∧ fpLe 0x8000000000000000 fpZero = true ∧ fpLe 0xFFF0000000000000 fpZero = true ∧
      fpLe fpOne fpOne = true ∧ fpLe fpOne 0x7FF0000000000000 = true := by decide +kernel

/-- A bad OPA; an OPB that is infinite, zero, minus zero; the least positive OPB. -/
theorem witness_QuantAcQuantizes :
    expAllOnes 0x7FF0000000000000 ∧ ¬expAllOnes 0 ∧ (0 : F64) = 0 ∧ 2 ^ 63 ≤ (0x8000000000000000 : F64).toNat ∧
      ¬(expAllOnes 1 ∨ (1 : F64) = 0 ∨ 2 ^ 63 ≤ (1 : F64).toNat) := by
  unfold expAllOnes; decide

theorem witness_DequantizerGridPoints :
    fpIsFinite fpZero = true ∧ fpIsFinite 0x8000000000000000 = true ∧ fpIsFinite 0x7FEFFFFFFFFFFFFF = true ∧ 18 < 19 ∧ 0 < 19 := by
  decide

/-- The negative value next to 0 and minus infinity; levels 0 and 82; the least and the largest maximum. -/
theorem witness_QuantizerCornerValues :
    fpLt 0x8000000000000001 fpZero = true ∧ fpLt 0xFFF0000000000000 fpZero = true ∧ 0 ≤ 82 ∧ 82 ≤ 82 ∧ fpIsFinite 1 = true ∧
      fpLt fpZero 1 = true ∧ fpIsFinite 0x7FEFFFFFFFFFFFFF = true ∧ fpLt fpZero 0x7FEFFFFFFFFFFFFF = true := by decide

theorem witness_LevelsComeBack : 0 ≤ 82 ∧ 82 ≤ 82 ∧ 0 ≤ 18 ∧ 18 ≤ 18 := by decide

theorem witness_QuantizersFitTheirDigits : 1 ≤ 1 ∧ 1 ≤ 9 ∧ 9 ≤ 9 := by decide

/-- The hypothesis of the statement, and both cases of what it says: a tie between two subnormals, and the overflow. -/
theorem witness_RoundingIsToNearestEven :
    0 < 2 ∧ 3 < fpOverflow * 2 ∧ fpOverflow * 1 ≤ fpOverflow ∧ fpIsFinite 1 = true ∧ fpIsFinite 0xFFEFFFFFFFFFFFFF = true := by
  decide +kernel

/-- Sums and differences that vanish and that do not, a divisor that is not 0, an infinity, the ends of the exact integers. -/
theorem witness_OperationsRoundOnce :
    fpIsFinite fpOne = true ∧ fpIsFinite fpMinusOne = true ∧ fpIsFinite 0x8000000000000000 = true ∧ fpInt fpOne + fpInt fpOne ≠ 0 ∧
      fpInt fpOne + fpInt fpMinusOne = 0 ∧ fpInt 0x8000000000000000 + fpInt 0x8000000000000000 = 0 ∧
      fpInt fpOne - fpInt fpMinusOne ≠ 0 ∧ fpInt fpOne - fpInt fpOne = 0 ∧ fpUnits fpOne ≠ 0 ∧
      fpMag 0xFFF0000000000000 = fpInfMag ∧ (2 ^ 53 - 1 : Int).natAbs < 2 ^ 53 ∧ (-(2 ^ 53 - 1) : Int).natAbs < 2 ^ 53 := by
  decide +kernel

/-- The least and the largest positive value, a negative one, both zeros; a value on each side of the root of 1.0. -/
theorem witness_SquareRootIsCorrectlyRounded :
    15 < 4 ^ 2 ∧ 0 < 4 ^ 0 ∧ fpIsFinite 1 = true ∧ fpUnits 1 ≠ 0 ∧ fpSign 1 = false ∧ fpIsFinite 0x7FEFFFFFFFFFFFFF = true ∧
      fpUnits 0x7FEFFFFFFFFFFFFF ≠ 0 ∧ fpUnits fpMinusOne ≠ 0 ∧ fpSign fpMinusOne = true ∧ fpUnits fpZero = 0 ∧
      fpUnits 0x8000000000000000 = 0 ∧ fpUnits (fpSqrt fpOne) < fpUnits (fpOne + 1) ∧ fpUnits fpZero < fpUnits (fpSqrt fpOne) := by
  decide +kernel

theorem witness_NamedPropertiesOfCosAndPow :
    fpIsFinite 0x7FEFFFFFFFFFFFFF = true ∧ fpLe fpZero fpZero = true ∧ fpLe fpZero fpOne = true ∧ fpLe fpOne fpOne = true ∧
      fpLt fpZero 1 = true := by decide

theorem witness_DcBasisIsOne : 0 < 1 ∧ 1 < 65536 ∧ 65534 < 65535 ∧ 65535 < 65536 := by decide

theorem witness_TransformSumsFollowTheLoops :
    ([0, 1, 2, 3, 4, 5] : List Word).length = 3 * 2 ∧ ([] : List Word).length = 0 * 0 ∧
      (⟨zeroTriple, []⟩ : Grid).ac.length + 1 = 1 * 1 ∧
      (⟨zeroTriple, List.replicate 80 zeroTriple⟩ : Grid).ac.length + 1 = 9 * 9 := by decide

/-- The least and the largest counts on one pixel; the first byte of the pixel word never written, and the last alone. -/
theorem witness_FdctStoresTheComponents :
    1 ≤ (pictured 1 1 0).xc.toNat ∧ (pictured 9 9 0).xc.toNat ≤ 9 ∧ 1 ≤ (pictured 1 1 0).yc.toNat ∧
      (pictured 9 9 0).yc.toNat ≤ 9 ∧ 1 ≤ (pictured 9 9 0).width.toNat ∧ 1 ≤ (pictured 9 9 0).height.toNat ∧
      (pictured 9 9 0).width.toNat * (pictured 9 9 0).height.toNat ≤ Config.pixCap ∧
      ([0] : List Word).length = (pictured 9 9 0).width.toNat * (pictured 9 9 0).height.toNat ∧
      HoldsPixels (pictured 1 1 0) [0] ∧ HoldsPixels (pictured 9 9 0) [0] ∧
      memRead { pictured 1 1 0 with mem := ⟨[]⟩ }.mem 0x40000 = none ∧
      0x40003 < 0x40000 + 4 * ((pictured 9 9 0).width.toNat * (pictured 9 9 0).height.toNat) ∧
      memRead { pictured 9 9 0 with mem := memWriteBytes ⟨[]⟩ 0x40000 [0, 0, 0] }.mem 0x40003 = none :=
  ⟨by decide, by decide, by decide, by decide, by decide, by decide, pixCap_pos, by decide,
    by unfold HoldsPixels; decide +kernel, by unfold HoldsPixels; decide +kernel, rfl, by decide, rfl⟩

/-- A grid of one component and one of two. -/
theorem witness_IdctStoresThePixels :
    let s := gridded 2 1 [zeroTriple, zeroTriple]
    let g : Grid := ⟨zeroTriple, [zeroTriple]⟩
    1 ≤ s.xc.toNat ∧ s.xc.toNat ≤ 9 ∧ 1 ≤ s.yc.toNat ∧ s.yc.toNat ≤ 9 ∧ 1 ≤ s.width.toNat ∧ 1 ≤ s.height.toNat ∧
      s.width.toNat * s.height.toNat ≤ Config.pixCap ∧ g.ac.length + 1 = s.xc.toNat * s.yc.toNat ∧
      HoldsEntries s (g.dc :: g.ac) ∧ (∀ t ∈ g.dc :: g.ac, finiteTriple t = true) ∧
      HoldsEntries (gridded 1 1 [zeroTriple]) [zeroTriple] :=
  ⟨by decide, by decide, by decide, by decide, by decide, by decide, pixCap_pos, by decide,
    by unfold HoldsEntries; decide +kernel, by decide +kernel, by unfold HoldsEntries; decide +kernel⟩

/-- Counts 0 and 10, dimensions 0, and `65535 * 2` pixels, more than any capacity. -/
theorem witness_CountsThenDimensionsAreChecked :
    (∀ i ∈ [Instr.fdct, .idct, .encode], i ∈ [Instr.fdct, .idct, .qenc, .encode] ∧ i ≠ .qenc) ∧ (pictured 0 1 0).xc.toNat < 1 ∧
      9 < (pictured 10 1 0).xc.toNat ∧ (pictured 9 0 0).yc.toNat < 1 ∧ 9 < (pictured 1 10 0).yc.toNat ∧
      { pictured 9 9 0 with width := 0 }.width.toNat = 0 ∧ { pictured 1 1 0 with height := 0 }.height.toNat = 0 ∧
      Config.pixCap <
        { pictured 1 1 0 with width := 65535, height := 2 }.width.toNat *
          { pictured 1 1 0 with width := 65535, height := 2 }.height.toNat :=
  ⟨by decide, by decide, by decide, by decide, by decide, by decide, by decide,
    Nat.lt_of_le_of_lt pixCap_max (by decide)⟩

/-- The last channel of a grid of one component infinite; the first never written; both commands. -/
theorem witness_FirstBadChannelIsReported :
    let s := gridded 1 1 [⟨fpOne, fpZero, 0x7FF0000000000000⟩]
    let t := gridded 1 1 []
    chkDim s = .ok (s.width.toNat, s.height.toNat) ∧ 1 ≤ s.xc.toNat ∧ s.xc.toNat ≤ 9 ∧ 1 ≤ s.yc.toNat ∧ s.yc.toNat ≤ 9 ∧
      2 < 3 * (s.xc.toNat * s.yc.toNat) ∧
      (compRead s (0 / 3) (0 % 3) = .ok fpOne ∧ ¬expAllOnes fpOne) ∧
      (compRead s (1 / 3) (1 % 3) = .ok fpZero ∧ ¬expAllOnes fpZero) ∧
      compRead s (2 / 3) (2 % 3) = .ok 0x7FF0000000000000 ∧ expAllOnes 0x7FF0000000000000 ∧
      0 < 3 * (t.xc.toNat * t.yc.toNat) ∧ compRead t (0 / 3) (0 % 3) = .error .uninitRead := by
  unfold expAllOnes
  decide +kernel

/-- The smallest and the largest grid. -/
theorem witness_ComponentsWritesTheCounts :
    (hashed "000000").hashlen.toNat = 4 + 2 * (1 * 1) ∧
      memRead (hashed "000000").mem 0x100 = some (alpha ((1 - 1) + (1 - 1) * 9)) ∧
      { hashed "|" with hashlen := 166 }.hashlen.toNat = 4 + 2 * (9 * 9) ∧
      memRead { hashed "|" with hashlen := 166 }.mem 0x100 = some (alpha ((9 - 1) + (9 - 1) * 9)) := by decide +kernel

/-- Lengths 5 and 6; a never-written flag; `!`; flags 80, 81 and 82. -/
theorem witness_HeaderErrors :
    (hashed "00000").hashlen.toNat < 6 ∧ 6 ≤ (hashed "000000").hashlen.toNat ∧
      6 ≤ { State.reset with hashlen := 6 }.hashlen.toNat ∧ memRead { State.reset with hashlen := 6 }.mem 0x100 = none ∧
      memRead (hashed "!00000").mem 0x100 = some 0x21 ∧ (∀ d, d < 83 → alpha d ≠ 0x21) ∧
      memRead { hashed "|" with hashlen := 6 }.mem 0x100 = some (alpha 80) ∧
      (6 : BitVec 9).toNat ≠ 4 + 2 * ((80 % 9 + 1) * (80 / 9 + 1)) ∧
      memRead (hashed "~00000").mem 0x100 = some (alpha 82) := by decide +kernel

/-- One entry and two; of the maximum an AC triple with a negative, a zero and a NaN channel. -/
theorem witness_QencWritesTheHash :
    let s := gridded 1 1 [zeroTriple]
    let t := gridded 1 2 [zeroTriple, zeroTriple]
    1 ≤ s.xc.toNat ∧ s.xc.toNat ≤ 9 ∧ 1 ≤ s.yc.toNat ∧ s.yc.toNat ≤ 9 ∧
      (⟨zeroTriple, []⟩ : Grid).ac.length + 1 = s.xc.toNat * s.yc.toNat ∧ HoldsEntries s [zeroTriple] ∧
      (⟨zeroTriple, [zeroTriple]⟩ : Grid).ac.length + 1 = t.xc.toNat * t.yc.toNat ∧ HoldsEntries t [zeroTriple, zeroTriple] ∧
      finiteTriple zeroTriple = true ∧ fpIsFinite (chan ⟨fpMinusOne, fpZero, 0x7FF8000000000000⟩ 0) = true ∧
      maxAc [⟨fpMinusOne, fpZero, 0x7FF8000000000000⟩] = fpOne := by
  unfold HoldsEntries; decide +kernel

/-- The smallest hash, with the largest fields, and one with the largest AC field. -/
theorem witness_QdecReadsTheHash :
    82 < 83 ∧ 0xFFFFFF ≤ 0xFFFFFF ∧ ([] : List Nat).length + 1 = 1 * 1 ∧ (hashed "0~TSUA").hashlen.toNat = 4 + 2 * (1 * 1) ∧
      HoldsBytes (hashed "0~TSUA").mem 0x100 (hashString 1 1 82 0xFFFFFF []) ∧ [6888].length + 1 = 2 * 1 ∧
      (∀ v ∈ [6888], v < 6889) ∧ (hashed "10TSUA~~").hashlen.toNat = 4 + 2 * (2 * 1) ∧
      HoldsBytes (hashed "10TSUA~~").mem 0x100 (hashString 2 1 0 0xFFFFFF [6888]) := by
  unfold HoldsBytes; decide +kernel

/-- The least and the largest DC field out of range. -/
theorem witness_HashFieldErrors_dcRange :
    0xFFFFFF < 0x1000000 ∧ 0x1000000 < 83 ^ 4 ∧ 0xFFFFFF < 83 ^ 4 - 1 ∧ (hashed "00TSUB").hashlen.toNat = 4 + 2 * (1 * 1) ∧
      HoldsBytes (hashed "00TSUB").mem 0x100 (hashString 1 1 0 0x1000000 [] ++ []) ∧
      HoldsBytes (hashed "0~~~~~").mem 0x100 (hashString 1 1 82 (83 ^ 4 - 1) [] ++ []) := by
  unfold HoldsBytes; decide +kernel

/-- Bytes 1, 5, 6 and 7: the ends of the fields; a byte that is no digit and a never-written one. -/
theorem witness_HashFieldErrors :
    { hashed "1!" with hashlen := 8 }.hashlen.toNat = 4 + 2 * (2 * 1) ∧ [1].getD 0 0 = (2 - 1) + (1 - 1) * 9 ∧
      HoldsBytes (hashed "1!").mem 0x100 ([1].map alpha) ∧ memRead (hashed "1!").mem (0x100 + [1].length) = some 0x21 ∧
      (∀ d, d < 83 → alpha d ≠ 0x21) ∧ HoldsBytes (hashed "1~~~~").mem 0x100 ([1, 82, 82, 82, 82].map alpha) ∧
      memRead (hashed "1~~~~").mem (0x100 + [1, 82, 82, 82, 82].length) = none ∧
      ((([1, 0, 29, 28, 30, 10].getD 2 0 * 83 + [1, 0, 29, 28, 30, 10].getD 3 0) * 83 + [1, 0, 29, 28, 30, 10].getD 4 0) * 83 +
        [1, 0, 29, 28, 30, 10].getD 5 0 = 0xFFFFFF) ∧
      HoldsBytes (hashed "10TSUA!").mem 0x100 ([1, 0, 29, 28, 30, 10].map alpha) ∧
      memRead (hashed "10TSUA!").mem (0x100 + [1, 0, 29, 28, 30, 10].length) = some 0x21 ∧
      HoldsBytes (hashed "10TSUA~").mem 0x100 ([1, 0, 29, 28, 30, 10, 82].map alpha) ∧
      memRead (hashed "10TSUA~").mem (0x100 + [1, 0, 29, 28, 30, 10, 82].length) = none := by
  unfold HoldsBytes; decide +kernel

/-- Nine components of one pixel; a byte of the pixel word never written. -/
theorem witness_EncodeStoresGridAndHash :
    1 ≤ (pictured 9 1 0).xc.toNat ∧ (pictured 9 1 0).xc.toNat ≤ 9 ∧ 1 ≤ (pictured 9 1 0).yc.toNat ∧
      (pictured 9 1 0).yc.toNat ≤ 9 ∧ 1 ≤ (pictured 9 1 0).width.toNat ∧ 1 ≤ (pictured 9 1 0).height.toNat ∧
      (pictured 9 1 0).width.toNat * (pictured 9 1 0).height.toNat ≤ Config.pixCap ∧
      ([0] : List Word).length = (pictured 9 1 0).width.toNat * (pictured 9 1 0).height.toNat ∧ HoldsPixels (pictured 9 1 0) [0] ∧
      0x40003 < 0x40000 + 4 * ((pictured 9 1 0).width.toNat * (pictured 9 1 0).height.toNat) ∧
      memRead { pictured 9 1 0 with mem := memWriteBytes ⟨[]⟩ 0x40000 [0, 0, 0] }.mem 0x40003 = none :=
  ⟨by decide, by decide, by decide, by decide, by decide, by decide, pixCap_pos, by decide, by unfold HoldsPixels; decide +kernel,
    by decide, rfl⟩

theorem witness_DecodeStoresGridAndPixels :
    let s := { hashed "0~TSUA" with width := 1, height := 1 }
    82 < 83 ∧ 0xFFFFFF ≤ 0xFFFFFF ∧ ([] : List Nat).length + 1 = 1 * 1 ∧ s.hashlen.toNat = 4 + 2 * (1 * 1) ∧
      HoldsBytes s.mem 0x100 (hashString 1 1 82 0xFFFFFF []) ∧ 1 ≤ s.width.toNat ∧ 1 ≤ s.height.toNat ∧
      s.width.toNat * s.height.toNat ≤ Config.pixCap :=
  ⟨by decide, by decide, by decide, by decide, by unfold HoldsBytes; decide +kernel, by decide, by decide, pixCap_pos⟩

theorem witness_DecodeChecksDimensionsLast :
    HoldsBytes (hashed "000000").mem 0x100 (hashString 1 1 0 0 []) ∧ (hashed "000000").hashlen.toNat = 4 + 2 * (1 * 1) ∧
      (hashed "000000").width.toNat = 0 ∧ 1 ≤ { hashed "000000" with width := 1 }.width.toNat ∧
      { hashed "000000" with width := 1 }.height.toNat = 0 ∧
      Config.pixCap <
        { hashed "000000" with width := 65535, height := 2 }.width.toNat *
          { hashed "000000" with width := 65535, height := 2 }.height.toNat :=
  ⟨by unfold HoldsBytes; decide +kernel, by decide, by decide, by decide, by decide, Nat.lt_of_le_of_lt pixCap_max (by decide)⟩

/-- One side of the equivalence, a failure and a fault. -/
theorem witness_EncodeIsFdctThenQenc :
    let s := pictured 2 1 0x00FFFFFF
    (run .encode State.reset).err = true ∧ exec .encode (accepted .encode State.reset) = .next (run .encode State.reset) ∧
    exec .encode (accepted .encode { pictured 1 1 0 with mem := ⟨[]⟩ }) = .fault .uninitRead ∧
    exec .fdct (accepted .fdct s) = .next (run .fdct s) ∧ (run .fdct s).done = true ∧
      exec .qenc (accepted .qenc (run .fdct s)) = .next (run .qenc (run .fdct s)) ∧ (run .qenc (run .fdct s)).done = true :=
  ⟨by decide +kernel, exec_eq_run (by decide +kernel), exec_fault (by decide +kernel), exec_eq_run (by decide +kernel),
    by decide +kernel, exec_eq_run (by decide +kernel), by decide +kernel⟩

/-- One side of the equivalence, a failure of QDEC, one of the dimensions and a fault. -/
theorem witness_DecodeIsQdecThenIdct :
    let s := { hashed "0~TSUA" with width := 1, height := 1 }
    (exec .decode (accepted .decode State.reset) = .next (run .decode State.reset) ∧ (run .decode State.reset).err = true) ∧
    (exec .decode (accepted .decode (hashed "0~TSUA")) = .next (run .decode (hashed "0~TSUA")) ∧
      (run .decode (hashed "0~TSUA")).err = true) ∧
    exec .decode (accepted .decode { State.reset with hashlen := 6 }) = .fault .uninitRead ∧
    exec .qdec (accepted .qdec s) = .next (run .qdec s) ∧ (run .qdec s).done = true ∧
      exec .idct (accepted .idct (run .qdec s)) = .next (run .idct (run .qdec s)) ∧ (run .idct (run .qdec s)).done = true :=
  ⟨⟨exec_eq_run (by decide +kernel), by decide +kernel⟩, ⟨exec_eq_run (by decide +kernel), by decide +kernel⟩,
    exec_fault (by decide +kernel), exec_eq_run (by decide +kernel), by decide +kernel, exec_eq_run (by decide +kernel), by decide +kernel⟩

theorem witness_ComponentsAfterEncodingChangesNothing :
    let s := gridded 1 1 [zeroTriple]
    exec .qenc (accepted .qenc s) = .next (run .qenc s) ∧ (run .qenc s).done = true ∧
      exec .encode (accepted .encode (pictured 2 1 0)) = .next (run .encode (pictured 2 1 0)) ∧
      (run .encode (pictured 2 1 0)).done = true :=
  ⟨exec_eq_run (by decide +kernel), by decide +kernel, exec_eq_run (by decide +kernel), by decide +kernel⟩

/-- A grid of one component and one of two, with PUNCH at its reset value 1 and at 0. -/
theorem witness_QdecAcceptsWhatQencWrites :
    let s := gridded 1 1 [zeroTriple]
    let t := gridded 2 1 [zeroTriple, zeroTriple]
    exec .qenc (accepted .qenc s) = .next (run .qenc s) ∧ (run .qenc s).done = true ∧ (run .qenc s).punch = 1 ∧
      (run .qenc s).xc.toNat * (run .qenc s).yc.toNat = 1 ∧ exec .qenc (accepted .qenc t) = .next (run .qenc t) ∧
      (run .qenc t).done = true ∧ (run .qenc t).punch = 1 ∧ 1 < (run .qenc t).xc.toNat * (run .qenc t).yc.toNat ∧
      exec .qenc (accepted .qenc { s with punch := 0 }) = .next (run .qenc { s with punch := 0 }) ∧
      (run .qenc { s with punch := 0 }).done = true :=
  ⟨exec_eq_run (by decide +kernel), by decide +kernel, by decide +kernel, by decide +kernel, exec_eq_run (by decide +kernel),
    by decide +kernel, by decide +kernel, by decide +kernel, exec_eq_run (by decide +kernel), by decide +kernel⟩

/-- A location inside and one outside what B83_ENC of one digit at offset 255 writes. -/
theorem witness_SuccessWritesExactlyTheFootprint :
    exec (.b83Enc 255 1) (accepted (.b83Enc 255 1) State.reset) = .next (run (.b83Enc 255 1) State.reset) ∧
      (run (.b83Enc 255 1) State.reset).done = true ∧ inRanges (footprint (.b83Enc 255 1) State.reset) 0x1FF = true ∧
      inRanges (footprint (.b83Enc 255 1) State.reset) 0x1FE = false :=
  ⟨exec_eq_run (by decide +kernel), by decide +kernel, by decide +kernel, by decide +kernel⟩

theorem witness_FailureCommitsNothing :
    exec .idct (accepted .idct State.reset) = .next (run .idct State.reset) ∧ (run .idct State.reset).err = true :=
  ⟨exec_eq_run (by decide +kernel), by decide +kernel⟩

/-- QDEC of a buffer in which nothing is written; byte 0 is one it reads. -/
theorem witness_FaultsOnlyOnNeverWritten : exec .qdec { State.reset with hashlen := 6 } = .fault .uninitRead := rfl

/-- A narrow and a misaligned register access; in the windows a misaligned 16-bit and 32-bit one, and sizes 0 and 3. -/
theorem witness_BusErrorsChangeNothing :
    State.reset.inReset = false ∧ ¬(2 = 4 ∧ (0x010#19).toNat % 4 = 0) ∧ ¬(4 = 4 ∧ (0x0FE#19).toNat % 4 = 0) ∧
      (0x0FE#19).toNat < 0x100 ∧ 0x100 ≤ (0x101#19).toNat ∧
      ¬(2 = 1 ∨ (2 = 2 ∧ (0x101#19).toNat % 2 = 0) ∨ (2 = 4 ∧ (0x101#19).toNat % 4 = 0)) ∧
      ¬(4 = 1 ∨ (4 = 2 ∧ (0x102#19).toNat % 2 = 0) ∨ (4 = 4 ∧ (0x102#19).toNat % 4 = 0)) ∧
      ¬(0 = 1 ∨ (0 = 2 ∧ (0x100#19).toNat % 2 = 0) ∨ (0 = 4 ∧ (0x100#19).toNat % 4 = 0)) ∧
      ¬(3 = 1 ∨ (3 = 2 ∧ (0x100#19).toNat % 2 = 0) ∨ (3 = 4 ∧ (0x100#19).toNat % 4 = 0)) := by decide

/-- An idle and a busy block. -/
theorem witness_RegisterReads : State.reset.inReset = false ∧ running.inReset = false ∧ busy running = true := by decide

theorem witness_RegisterWrites : busy State.reset = false ∧ (0x00000001 : Word).getLsbD 1 = false := by decide

/-- The ends of each reserved range; the last one is empty at the largest capacity. -/
theorem witness_ReservedOffsetsReadZero :
    State.reset.inReset = false ∧ busy State.reset = false ∧ running.inReset = false ∧ busy running = true ∧
      (0x018#19).toNat % 4 = 0 ∧ (0x01C#19).toNat = 0x01C ∧
      (0x058 ≤ (0x0FC#19).toNat ∧ (0x0FC#19).toNat ≤ 0x0FC) ∧ (0x200 ≤ (0x200#19).toNat ∧ (0x7FF#19).toNat ≤ 0x7FF) ∧
      (0xF98 ≤ (0xF98#19).toNat ∧ (0x3FFFF#19).toNat ≤ 0x3FFFF) ∧
      (Config.pixCap < 65536 → 0x40000 + 4 * Config.pixCap ≤ (0x7FFFC#19).toNat) :=
  ⟨rfl, rfl, rfl, rfl, by decide, by decide, by decide, by decide, by decide, fun h => by
    rw [show (0x7FFFC#19).toNat = 0x7FFFC from rfl]; omega⟩

theorem witness_BusyWritesAreDropped :
    busy running = true ∧ accessOk 0x010 4 = true ∧ 0x010 ≠ 0x008 ∧ 0x010 ≠ 0x00C ∧ accessOk 0x100 1 = true ∧
      accessOk 0x011 4 = false ∧ accessOk 0x101 2 = false := by decide

theorem witness_ReadsHaveNoSideEffect :
    hostTurn (.read 0x00C 4) State.reset = .next { State.reset with resp := some (.okay 0) } ∧ busy running = true := ⟨rfl, rfl⟩

/-- The last byte of HASH, the last word of COMPRAM, the first word of PIXRAM; a word written in part; a narrow read. A channel and a
pixel word that are held, at the ends of COMPRAM and at the start of PIXRAM, and ones that are not. -/
theorem witness_WindowReadsReturnWhatWasWritten :
    busy State.reset = false ∧ inWindow 0x1FF = true ∧ accessOk 0x1FF 1 = true ∧ inWindow 0xF94 = true ∧
      accessOk 0xF94 4 = true ∧ inWindow 0x40000 = true ∧ accessOk 0x40000 4 = true ∧ busy (hashed "~") = false ∧
      memRead (hashed "~").mem (0x100 + 0) = some 0x7E ∧ memRead (hashed "~").mem (0x100 + 1) = none ∧ accessOk 0x100 4 = true ∧
      8 * 1 ≤ 8 ∧ compRead (holding 0x800 [8, 7, 6, 5, 4, 3, 2, 1]) 0 0 = .ok 0x0102030405060708 ∧
      compRead (holding 0xF90 [8, 7, 6, 5, 4, 3, 2, 1]) 80 2 = .ok 0x0102030405060708 ∧
      compRead (holding 0x800 [8, 7, 6, 5, 4, 3, 2]) 0 0 = .error .uninitRead ∧
      pixRead (holding 0x40000 [0xD5, 0x1E, 0x78, 0xFF]) 0 = .ok 0xFF781ED5 ∧
      pixRead (holding 0x40000 [0xD5, 0x1E, 0x78, 0xFF]) 1 = .error .uninitRead := by decide +kernel

theorem witness_StatusIsWriteOneToClear : State.reset.inReset = false := rfl

theorem witness_InterruptFollowsCompletion : exec .nop State.reset = .next (completed State.reset) := rfl

/-- An idle block; a running command that would succeed, with a location it writes and one it does not; one that would fail. -/
theorem witness_SoftResetKeepsTheWindows :
    let s := accepted (.b83Enc 255 1) State.reset
    let t := accepted .fdct State.reset
    (0x00000002 : Word).getLsbD 1 = true ∧ (0xFFFFFFFF : Word).getLsbD 1 = true ∧ State.reset.inReset = false ∧
      State.reset.engine = .idle ∧ s.engine = .running 0x0001FF20 ∧ Sys2Proof.decode 0x0001FF20 = .ok (.b83Enc 255 1) ∧
      exec (.b83Enc 255 1) (accepted (.b83Enc 255 1) s) = .next (run (.b83Enc 255 1) s) ∧
      (run (.b83Enc 255 1) s).done = true ∧ inRanges (footprint (.b83Enc 255 1) s) 0x1FF = true ∧
      inRanges (footprint (.b83Enc 255 1) s) 0x1FE = false ∧ t.engine = .running 0x00000010 ∧
      exec .fdct (accepted .fdct t) = .next (run .fdct t) ∧ (run .fdct t).done = false ∧
      (acceptCommand 0x00000043 State.reset).engine = .running 0x00000043 ∧
      Sys2Proof.decode 0x00000043 = .error .unknownOpcode ∧
      exec .qdec (acceptCommand 0x00000012 (accepted .qdec { State.reset with hashlen := 6 })) = .fault .uninitRead :=
  ⟨by decide, by decide, rfl, rfl, rfl, by decide, exec_eq_run (by decide +kernel), by decide +kernel, by decide +kernel,
    by decide +kernel, rfl,
    exec_eq_run (by decide +kernel), by decide +kernel, rfl, by decide, rfl⟩

theorem witness_PowerOnReset :
    { running with pending := [.rstAssert] }.pending = .rstAssert :: [] ∧
      { running with pending := [.rstRelease] }.pending = .rstRelease :: [] := by decide

/-- A running NOP meets the invariant and steps. -/
theorem witness_EveryStepKeepsTheInvariant : running.Inv ∧ step running = .next (completed running) where
  left :=
    { memWf := rfl
      memInWindows := fun _ h => absurd rfl h
      notDoneAndErr := by decide
      busyClear := fun _ => by decide
      doneClear := by decide
      errHasCode := by decide
      codeLegal := by decide
      maxqRange := by decide
      resetIdle := by decide }
  right := rfl

end Sys2Proof.Tests
end

section
/-! SUPPORT. Binary64 values (00_scope.md R8, R11): their order, the parameters COS64 and POW64, and rounding as the choice of the
nearest pattern, through the units a magnitude pattern stands for. -/

namespace Sys2Proof.Machine

/-! ### Order -/

theorem fpIsFinite_iff {x : F64} : fpIsFinite x = true ↔ fpMag x < fpInfMag := by
  simp [fpIsFinite]

theorem fpLe_iff {x y : F64} : fpLe x y = true ↔ fpIsNan x = false ∧ fpIsNan y = false ∧ fpKey x ≤ fpKey y := by
  simp [fpLe, and_assoc]

theorem fpLt_iff {x y : F64} : fpLt x y = true ↔ fpIsNan x = false ∧ fpIsNan y = false ∧ fpKey x < fpKey y := by
  simp [fpLt, and_assoc]

theorem fpKey_le_of_fpLe {x y : F64} (h : fpLe x y = true) : fpKey x ≤ fpKey y := by
  obtain ⟨_, _, hk⟩ := fpLe_iff.mp h
  exact hk

theorem fpLe_of_fpLt {x y : F64} (h : fpLt x y = true) : fpLe x y = true := by
  obtain ⟨hx, hy, hk⟩ := fpLt_iff.mp h
  exact fpLe_iff.mpr ⟨hx, hy, Int.le_of_lt hk⟩

/-- `y < x` fails where `x ≤ y`. -/
theorem fpLt_eq_false_of_fpLe {x y : F64} (h : fpLe x y = true) : fpLt y x = false := by
  refine Bool.eq_false_iff.mpr fun hlt => ?_
  obtain ⟨_, _, hk⟩ := fpLt_iff.mp hlt
  exact Int.not_le.mpr hk (fpKey_le_of_fpLe h)

theorem fpLe_trans {x y z : F64} (hxy : fpLe x y = true) (hyz : fpLe y z = true) : fpLe x z = true := by
  obtain ⟨hx, _, hk⟩ := fpLe_iff.mp hxy
  obtain ⟨_, hz, hk'⟩ := fpLe_iff.mp hyz
  exact fpLe_iff.mpr ⟨hx, hz, Int.le_trans hk hk'⟩

/-- The key is the magnitude with its sign. -/
theorem natAbs_fpKey (x : F64) : (fpKey x).natAbs = fpMag x := by
  unfold fpKey
  split <;> omega

/-- A positive key belongs to one pattern only. -/
theorem eq_of_fpKey_eq_of_pos {x y : F64} (hy : 0 < fpKey y) (h : fpKey x = fpKey y) : x = y := by
  have hmag : fpMag x = fpMag y := by rw [← natAbs_fpKey x, ← natAbs_fpKey y, h]
  have positive : ∀ z : F64, 0 < fpKey z → fpSign z = false := fun z hz => by
    unfold fpKey at hz
    split at hz
    · omega
    · exact Bool.eq_false_iff.mpr ‹_›
  rw [← fpPack_sign_mag x, ← fpPack_sign_mag y, positive x (h ▸ hy), positive y hy, hmag]

/-- Only the two zeros have key 0. -/
theorem eq_zero_of_fpKey_eq_zero {x : F64} (h : fpKey x = 0) : x = fpZero ∨ x = fpNeg fpZero := by
  have hmag : fpMag x = 0 := by rw [← natAbs_fpKey x, h]; rfl
  rw [← fpPack_sign_mag x, hmag]
  cases fpSign x
  · exact .inl (by decide)
  · exact .inr (by decide)

/-! ### The parameters of R8 -/

theorem fpInUnit_iff {x : F64} : fpInUnit x = true ↔ fpLe fpZero x = true ∧ fpLe x fpOne = true := by
  simp [fpInUnit]

theorem fpInSymUnit_iff {x : F64} : fpInSymUnit x = true ↔ fpLe fpMinusOne x = true ∧ fpLe x fpOne = true := by
  simp [fpInSymUnit]

/-- A value in `[0, 1]` is finite. -/
theorem fpIsFinite_of_fpInUnit {x : F64} (h : fpInUnit x = true) : fpIsFinite x = true := by
  obtain ⟨hlo, hhi⟩ := fpInUnit_iff.mp h
  have h0 := fpKey_le_of_fpLe hlo
  have h1 := fpKey_le_of_fpLe hhi
  have hzero : fpKey fpZero = 0 := by decide
  have hone : fpKey fpOne = 1023 * 2 ^ 52 := by decide
  have := natAbs_fpKey x
  rw [fpIsFinite_iff, fpInfMag]
  omega

@[simp] theorem cos64_zero : cos64 fpZero = fpOne := rfl

theorem cos64_inSymUnit {a : F64} (h : fpIsFinite a = true) : fpInSymUnit (cos64 a) = true := by
  have hone : fpInSymUnit fpOne = true := by decide
  unfold cos64
  split
  · exact hone
  · split
    · exact hone
    · next hraw => simpa [h] using hraw

@[simp] theorem pow64_one {y : F64} (h : fpIsFinite y = true) : pow64 fpOne y = fpOne := by
  simp [pow64, h]

theorem pow64_inUnit {x y : F64} (hx : fpInUnit x = true) (hy : fpLt fpZero y = true) : fpInUnit (pow64 x y) = true := by
  have hone : fpInUnit fpOne = true := by decide
  unfold pow64
  split
  · exact hone
  · split
    · exact hone
    · next hraw => simpa [hx, hy] using hraw

/-! ### The units of a magnitude pattern -/

/-- The units of `2^-1074` that the magnitude bits `k` stand for, as if no exponent field meant infinity: then `fpInfMag` stands for
`2^1024`, the value rounding overflows to. -/
def magUnits (k : Nat) : Nat := if k / 2 ^ 52 = 0 then k else (2 ^ 52 + k % 2 ^ 52) * 2 ^ (k / 2 ^ 52 - 1)

theorem fpUnits_eq_magUnits {x : F64} (h : fpIsFinite x = true) : fpUnits x = magUnits (fpMag x) := fpUnits_of_finite h

/-- A significand `q` at exponent `e` has the bits `e * 2^52 + q`: the hidden bit, and a carry out of the significand, move into the
exponent field. -/
theorem magUnits_pattern {e q : Nat} (hnormal : e = 0 ∨ 2 ^ 52 ≤ q) (hq : q ≤ 2 ^ 53) :
    magUnits (e * 2 ^ 52 + q) = q * 2 ^ e := by
  unfold magUnits
  rcases Nat.lt_trichotomy q (2 ^ 53) with hlt | rfl | hgt
  · rcases Nat.lt_or_ge q (2 ^ 52) with hsub | hge
    · obtain rfl : e = 0 := by omega
      rw [if_pos (by omega)]
      simp
    · have hdiv : (e * 2 ^ 52 + q) / 2 ^ 52 = e + 1 := by omega
      have hmod : (e * 2 ^ 52 + q) % 2 ^ 52 = q - 2 ^ 52 := by omega
      rw [hdiv, hmod, if_neg (by omega), Nat.add_sub_cancel, Nat.add_sub_cancel' hge]
  · have hdiv : (e * 2 ^ 52 + 2 ^ 53) / 2 ^ 52 = e + 2 := by omega
    have hmod : (e * 2 ^ 52 + 2 ^ 53) % 2 ^ 52 = 0 := by omega
    rw [hdiv, hmod, if_neg (by omega), show e + 2 - 1 = e + 1 by omega, Nat.pow_succ]
    ring
  · omega

/-- Every magnitude pattern is a significand at an exponent. -/
theorem exists_significand (k : Nat) : ∃ e q, k = e * 2 ^ 52 + q ∧ (e = 0 ∨ 2 ^ 52 ≤ q) ∧ q < 2 ^ 53 := by
  rcases Nat.lt_or_ge k (2 ^ 52) with h | h
  · exact ⟨0, k, by omega, .inl rfl, by omega⟩
  · exact ⟨k / 2 ^ 52 - 1, 2 ^ 52 + k % 2 ^ 52, by omega, .inr (by omega), by omega⟩

/-- Magnitude patterns are ordered as the values they stand for. -/
theorem magUnits_strictMono : StrictMono magUnits := by
  refine strictMono_nat_of_lt_succ fun k => ?_
  obtain ⟨e, q, rfl, hnormal, hq⟩ := exists_significand k
  rw [Nat.add_assoc, magUnits_pattern hnormal (Nat.le_of_lt hq), magUnits_pattern (by omega) hq]
  exact Nat.mul_lt_mul_of_pos_right (Nat.lt_succ_self q) (Nat.two_pow_pos e)

/-- No pattern lies between two that follow each other. -/
theorem magUnits_le_or_next_le (f j : Nat) : magUnits j ≤ magUnits f ∨ magUnits (f + 1) ≤ magUnits j :=
  (Nat.lt_or_ge f j).symm.imp (magUnits_strictMono.monotone ·) (magUnits_strictMono.monotone ·)

/-! ### What rounding computes -/

/-- The quotients whose highest bit the search of `fpRoundMag` finds. -/
def searchReach : Nat := 2 ^ 2 ^ 12

/-- Past its reach the search answers its largest exponent. -/
theorem log2Below_of_large {k n : Nat} (h : 2 ^ 2 ^ k ≤ n) : log2Below k n = 2 ^ k - 1 := by
  induction k generalizing n with
  | zero => rfl
  | succ k ih =>
    have hle : 2 ^ 2 ^ k ≤ n / 2 ^ 2 ^ k := by
      rw [Nat.le_div_iff_mul_le (Nat.two_pow_pos _), ← Nat.pow_add, ← Nat.two_mul, ← Nat.pow_succ']
      exact h
    have hfirst : 2 ^ 2 ^ k ≤ n := Nat.le_trans hle (Nat.div_le_self n _)
    rw [log2Below, if_pos hfirst, ih hle]
    have := Nat.two_pow_pos k
    omega

/-- Whether the significand `q` at the unit `den` is rounded up for the quotient `n`: past the midpoint, or on it with `q` odd. -/
def RoundsUp (q den n : Nat) : Prop := (2 * q + 1) * den < 2 * n ∨ (2 * q + 1) * den = 2 * n ∧ q % 2 = 1

/-- `q` is the significand and `e` the exponent of the quotient `n / d` before rounding: `q` has 53 bits, or `e` is 0, and the
quotient lies in the step from `q` to `q + 1`. -/
structure Significand (n d e q : Nat) : Prop where
  normal : e = 0 ∨ 2 ^ 52 ≤ q
  lt : q < 2 ^ 53
  le : q * 2 ^ e * d ≤ n
  gt : n < (q + 1) * 2 ^ e * d

/-- The patterns on both sides of the quotient. -/
theorem Significand.magUnits_self {n d e q : Nat} (h : Significand n d e q) : magUnits (e * 2 ^ 52 + q) = q * 2 ^ e :=
  magUnits_pattern h.normal (Nat.le_of_lt h.lt)

theorem Significand.magUnits_next {n d e q : Nat} (h : Significand n d e q) :
    magUnits (e * 2 ^ 52 + q + 1) = (q + 1) * 2 ^ e := by
  rw [Nat.add_assoc]
  exact magUnits_pattern (h.normal.imp_right (Nat.le_succ_of_le ·)) h.lt

theorem log2Below_zero (k : Nat) : log2Below k 0 = 0 := by
  induction k with
  | zero => rfl
  | succ k ih => rw [log2Below, if_neg (by have := Nat.two_pow_pos (2 ^ k); omega), ih]

/-- The exponent search brings every quotient within its reach to 53 bits, or to exponent 0. -/
theorem search_range {t : Nat} (ht : t < searchReach) :
    (log2Below 12 t - 52 = 0 ∨ 2 ^ 52 ≤ t / 2 ^ (log2Below 12 t - 52)) ∧ t / 2 ^ (log2Below 12 t - 52) < 2 ^ 53 := by
  rcases Nat.eq_zero_or_pos t with rfl | hpos
  · rw [log2Below_zero, Nat.zero_div]
    exact ⟨.inl rfl, by decide⟩
  · obtain ⟨hlo, hhi⟩ := log2Below_spec 12 t ht hpos
    generalize log2Below 12 t = top at *
    rw [Nat.le_div_iff_mul_le (Nat.two_pow_pos _), Nat.div_lt_iff_lt_mul (Nat.two_pow_pos _), ← Nat.pow_add, ← Nat.pow_add]
    refine ⟨?_, Nat.lt_of_lt_of_le hhi (Nat.pow_le_pow_right Nat.two_pos (by omega))⟩
    rcases Nat.lt_or_ge top 52 with hsmall | hlarge
    · exact .inl (by omega)
    · exact .inr (by rwa [Nat.add_sub_cancel' hlarge])

/-- What `fpRoundMag` divides out is the significand of the quotient. -/
theorem significand_of_search {n d : Nat} (hd : 0 < d) (hreach : n < searchReach * d) :
    Significand n d (log2Below 12 (n / d) - 52) (n / (d * 2 ^ (log2Below 12 (n / d) - 52))) := by
  obtain ⟨hnormal, hlt⟩ := search_range ((Nat.div_lt_iff_lt_mul hd).mpr hreach)
  rw [Nat.div_div_eq_div_mul] at hnormal hlt
  generalize log2Below 12 (n / d) - 52 = e at *
  have hden : 0 < d * 2 ^ e := Nat.mul_pos hd (Nat.two_pow_pos e)
  exact
    { normal := hnormal
      lt := hlt
      le := by
        rw [Nat.mul_assoc, Nat.mul_comm (2 ^ e) d]
        exact Nat.div_mul_le_self n _
      gt := by
        rw [Nat.mul_assoc, Nat.mul_comm (2 ^ e) d, Nat.mul_comm]
        exact Nat.lt_mul_div_succ n hden }

/-- Rounding takes the significand of the quotient, or the one after it. -/
theorem fpRoundMag_cases {n d : Nat} (hd : 0 < d) (hreach : n < searchReach * d) :
    ∃ e q, Significand n d e q ∧
      ((¬RoundsUp q (2 ^ e * d) n ∧ fpRoundMag n d = min (e * 2 ^ 52 + q) fpInfMag) ∨
        (RoundsUp q (2 ^ e * d) n ∧ fpRoundMag n d = min (e * 2 ^ 52 + q + 1) fpInfMag)) := by
  refine ⟨_, _, significand_of_search hd hreach, ?_⟩
  unfold fpRoundMag
  dsimp only
  generalize log2Below 12 (n / d) - 52 = e
  rw [Nat.mul_comm (2 ^ e) d]
  generalize d * 2 ^ e = den
  have hmid : (2 * (n / den) + 1) * den = 2 * (den * (n / den)) + den := by ring
  have hdiv : den * (n / den) + n % den = n := Nat.div_add_mod n den
  have hup : (decide (den < 2 * (n % den)) || decide (2 * (n % den) = den) && decide (n / den % 2 = 1)) = true ↔
      RoundsUp (n / den) den n := by
    simp only [RoundsUp, hmid, Bool.or_eq_true, Bool.and_eq_true, decide_eq_true_eq]
    omega
  by_cases h : RoundsUp (n / den) den n
  · exact .inr ⟨h, by simp only [hup.mpr h, if_true]⟩
  · exact .inl ⟨h, by simp only [Bool.eq_false_iff.mpr (mt hup.mp h), Bool.false_eq_true, if_false, Nat.add_zero]⟩

/-- Past the reach of the search every quotient overflows. -/
theorem fpRoundMag_of_large {n d : Nat} (hd : 0 < d) (h : searchReach * d ≤ n) : fpRoundMag n d = fpInfMag := by
  have hL : log2Below 12 (n / d) = 4095 := log2Below_of_large ((Nat.le_div_iff_mul_le hd).mpr h)
  have hexp : fpInfMag ≤ (log2Below 12 (n / d) - 52) * 2 ^ 52 := by rw [hL]; decide
  exact Nat.min_eq_right (Nat.le_trans hexp (Nat.le_trans (Nat.le_add_right _ _) (Nat.le_add_right _ _)))

/-! ### Rounding is to nearest, ties to even -/

/-- `k` is the pattern nearest to `n / d` units, the even one of two as near: `f` is the last pattern not above the quotient. -/
def NearestPattern (n d f k : Nat) : Prop :=
  magUnits f * d ≤ n ∧ n < magUnits (f + 1) * d ∧
    ((k = f ∧ (2 * n < (magUnits f + magUnits (f + 1)) * d ∨ 2 * n = (magUnits f + magUnits (f + 1)) * d ∧ f % 2 = 0)) ∨
      (k = f + 1 ∧ ((magUnits f + magUnits (f + 1)) * d < 2 * n ∨ 2 * n = (magUnits f + magUnits (f + 1)) * d ∧ f % 2 = 1)))

theorem fpRoundMag_nearest {n d : Nat} (hd : 0 < d) (hreach : n < searchReach * d) :
    ∃ f k, NearestPattern n d f k ∧ fpRoundMag n d = min k fpInfMag := by
  obtain ⟨e, q, hsig, hround⟩ := fpRoundMag_cases hd hreach
  have hf := hsig.magUnits_self
  have hnext := hsig.magUnits_next
  have hmid : (q * 2 ^ e + (q + 1) * 2 ^ e) * d = (2 * q + 1) * (2 ^ e * d) := by ring
  rcases hround with ⟨hup, hk⟩ | ⟨hup, hk⟩
  · refine ⟨e * 2 ^ 52 + q, e * 2 ^ 52 + q, ⟨hf ▸ hsig.le, hnext ▸ hsig.gt, .inl ⟨rfl, ?_⟩⟩, hk⟩
    rw [hf, hnext, hmid]
    unfold RoundsUp at hup
    omega
  · refine ⟨e * 2 ^ 52 + q, e * 2 ^ 52 + q + 1, ⟨hf ▸ hsig.le, hnext ▸ hsig.gt, .inr ⟨rfl, ?_⟩⟩, hk⟩
    rw [hf, hnext, hmid]
    unfold RoundsUp at hup
    omega

/-- The overflow threshold is the midpoint of the largest finite value and `2^1024`. -/
theorem magUnits_overflow : magUnits (fpInfMag - 1) + magUnits fpInfMag = 2 * fpOverflow := by decide +kernel

/-- The nearest pattern is infinity's or above exactly from the overflow threshold on. -/
theorem NearestPattern.overflow_iff {n d f k : Nat} (h : NearestPattern n d f k) : fpInfMag ≤ k ↔ fpOverflow * d ≤ n := by
  obtain ⟨hle, hgt, hk⟩ := h
  have hthreshold : magUnits (fpInfMag - 1) * d + magUnits fpInfMag * d = 2 * (fpOverflow * d) := by
    rw [← Nat.add_mul, magUnits_overflow, Nat.mul_assoc]
  have hends : magUnits (fpInfMag - 1) * d ≤ magUnits fpInfMag * d :=
    Nat.mul_le_mul_right d (magUnits_strictMono.monotone (by decide))
  have hinf : fpInfMag = 2047 * 2 ^ 52 := rfl
  rcases Nat.lt_trichotomy f (fpInfMag - 1) with hlt | rfl | hgt'
  · have hmono : magUnits (f + 1) * d ≤ magUnits (fpInfMag - 1) * d :=
      Nat.mul_le_mul_right d (magUnits_strictMono.monotone hlt)
    omega
  · rw [show fpInfMag - 1 + 1 = fpInfMag from rfl, Nat.add_mul, hthreshold] at hk
    omega
  · have hmono : magUnits fpInfMag * d ≤ magUnits f * d :=
      Nat.mul_le_mul_right d (magUnits_strictMono.monotone (by omega))
    omega

/-- No pattern lies nearer, and where another lies as near the pattern is even. -/
theorem NearestPattern.nearest {n d f k : Nat} (h : NearestPattern n d f k) (hd : 0 < d) (j : Nat) :
    ((magUnits k * d : Int) - n).natAbs ≤ ((magUnits j * d : Int) - n).natAbs ∧
      (((magUnits k * d : Int) - n).natAbs = ((magUnits j * d : Int) - n).natAbs → magUnits j = magUnits k ∨ k % 2 = 0) := by
  obtain ⟨hle, hgt, hk⟩ := h
  rw [Nat.add_mul] at hk
  have hside : magUnits j * d ≤ magUnits f * d ∨ magUnits (f + 1) * d ≤ magUnits j * d :=
    (magUnits_le_or_next_le f j).imp (Nat.mul_le_mul_right d) (Nat.mul_le_mul_right d)
  have hsame : magUnits j = magUnits k ↔ magUnits j * d = magUnits k * d := (Nat.mul_left_inj hd.ne').symm
  rw [hsame]
  rcases hk with ⟨rfl, hk⟩ | ⟨rfl, hk⟩
  · omega
  · omega

theorem fpOverflow_le_reach : fpOverflow ≤ searchReach := by decide +kernel

/-- Rounding overflows exactly from the threshold on. -/
theorem fpRoundMag_overflow_iff {n d : Nat} (hd : 0 < d) : fpRoundMag n d = fpInfMag ↔ fpOverflow * d ≤ n := by
  rcases Nat.lt_or_ge n (searchReach * d) with hreach | hlarge
  · obtain ⟨f, k, hk, hmin⟩ := fpRoundMag_nearest hd hreach
    rw [hmin, ← hk.overflow_iff, min_eq_right_iff]
  · exact ⟨fun _ => Nat.le_trans (Nat.mul_le_mul_right d fpOverflow_le_reach) hlarge, fun _ => fpRoundMag_of_large hd hlarge⟩

theorem fpRoundMag_lt_iff {n d : Nat} (hd : 0 < d) : fpRoundMag n d < fpInfMag ↔ n < fpOverflow * d := by
  rw [← Nat.not_le (a := fpOverflow * d), ← fpRoundMag_overflow_iff hd]
  exact lt_iff_le_and_ne.trans (and_iff_right (fpRoundMag_le n d))

/-- Below the threshold rounding gives the nearest pattern. -/
theorem fpRoundMag_nearest_of_lt {n d : Nat} (hd : 0 < d) (h : n < fpOverflow * d) :
    ∃ f, NearestPattern n d f (fpRoundMag n d) := by
  obtain ⟨f, k, hk, hmin⟩ := fpRoundMag_nearest hd (Nat.lt_of_lt_of_le h (Nat.mul_le_mul_right d fpOverflow_le_reach))
  have hlt : k < fpInfMag := Nat.not_le.mp (mt hk.overflow_iff.mp (Nat.not_le.mpr h))
  exact ⟨f, by rwa [hmin, Nat.min_eq_left (Nat.le_of_lt hlt)]⟩

/-- The last bit of a pattern is the last bit of its magnitude. -/
theorem fpMag_mod_two (x : F64) : fpMag x % 2 = x.toNat % 2 := by
  unfold fpMag
  omega

theorem fpIsFinite_fpRound (neg : Bool) {n d : Nat} (hd : 0 < d) : fpIsFinite (fpRound neg n d) = true ↔ n < fpOverflow * d := by
  rw [fpIsFinite_iff, fpMag_fpRound, fpRoundMag_lt_iff hd]

/-- `RN` meets its specification (R11). -/
theorem roundsTo_fpRound (neg : Bool) {n d : Nat} (hd : 0 < d) : RoundsTo neg n d (fpRound neg n d) := by
  refine ⟨fpSign_fpRound neg n d, fun h => ?_, fun h => ?_⟩
  · rw [fpMag_fpRound]
    exact (fpRoundMag_overflow_iff hd).mpr h
  · have hfin := (fpIsFinite_fpRound neg hd).mpr h
    obtain ⟨f, hk⟩ := fpRoundMag_nearest_of_lt hd h
    refine ⟨hfin, fun y hy => ?_⟩
    rw [fpUnits_eq_magUnits hfin, fpUnits_eq_magUnits hy, ← fpMag_mod_two, fpMag_fpRound]
    exact hk.nearest hd (fpMag y)

end Sys2Proof.Machine
end

section
/-! SUPPORT. The operations of binary64 arithmetic as one rounding of the exact result (00_scope.md R11). -/

namespace Sys2Proof.Machine

/-! ### Values with their signs -/

theorem fpSigned_not (neg : Bool) (mag : Nat) : fpSigned (!neg) mag = -fpSigned neg mag := by
  cases neg <;> simp [fpSigned]

theorem fpSign_fpNeg (x : F64) : fpSign (fpNeg x) = !fpSign x := fpSign_fpPack _ (fpMag_lt x)

theorem fpMag_fpNeg (x : F64) : fpMag (fpNeg x) = fpMag x := fpMag_fpPack _ (fpMag_lt x)

theorem fpIsFinite_fpNeg {x : F64} (h : fpIsFinite x = true) : fpIsFinite (fpNeg x) = true := by
  rw [fpIsFinite_iff, fpMag_fpNeg]
  exact fpIsFinite_iff.mp h

theorem fpInt_fpNeg {x : F64} (h : fpIsFinite x = true) : fpInt (fpNeg x) = -fpInt x := by
  rw [fpInt, fpInt, fpSign_fpNeg, fpUnits_eq_magUnits (fpIsFinite_fpNeg h), fpMag_fpNeg, ← fpUnits_eq_magUnits h, fpSigned_not]

theorem fpView_of_inf {x : F64} (h : fpMag x = fpInfMag) : fpView x = .inf (fpSign x) := by
  simp [fpView, fpIsNan, h]

/-! ### Sums -/

/-- A sum of finite values is one rounding of the exact sum, which is -0.0 only if both terms have their sign set. -/
theorem fpAdd_of_finite {x y : F64} (hx : fpIsFinite x = true) (hy : fpIsFinite y = true) :
    fpAdd x y =
      if fpInt x + fpInt y = 0 then fpPack (fpSign x && fpSign y) 0
      else fpRound (decide (fpInt x + fpInt y < 0)) (fpInt x + fpInt y).natAbs 1 := by
  obtain ⟨m, e, hvx, hux⟩ := fpView_units hx
  obtain ⟨k, f, hvy, huy⟩ := fpView_units hy
  simp only [fpAdd, hvx, hvy, fpInt, hux, huy]

theorem fpAdd_roundsTo {x y : F64} (hx : fpIsFinite x = true) (hy : fpIsFinite y = true) (h : fpInt x + fpInt y ≠ 0) :
    RoundsTo (decide (fpInt x + fpInt y < 0)) (fpInt x + fpInt y).natAbs 1 (fpAdd x y) := by
  rw [fpAdd_of_finite hx hy, if_neg h]
  exact roundsTo_fpRound _ Nat.one_pos

theorem fpAdd_exact_zero {x y : F64} (hx : fpIsFinite x = true) (hy : fpIsFinite y = true) (h : fpInt x + fpInt y = 0) :
    fpAdd x y = if fpSign x && fpSign y then 0x8000000000000000 else 0 := by
  rw [fpAdd_of_finite hx hy, if_pos h]
  cases fpSign x && fpSign y <;> decide

theorem fpAdd_inf_left {x y : F64} (hx : fpMag x = fpInfMag) (hy : fpIsFinite y = true) : fpAdd x y = x := by
  obtain ⟨k, f, hvy, _⟩ := fpView_units hy
  simp only [fpAdd, fpView_of_inf hx, hvy]

theorem fpAdd_inf_right {x y : F64} (hx : fpMag x = fpInfMag) (hy : fpIsFinite y = true) : fpAdd y x = x := by
  obtain ⟨k, f, hvy, _⟩ := fpView_units hy
  simp only [fpAdd, fpView_of_inf hx, hvy]

theorem fpSub_roundsTo {x y : F64} (hx : fpIsFinite x = true) (hy : fpIsFinite y = true) (h : fpInt x - fpInt y ≠ 0) :
    RoundsTo (decide (fpInt x - fpInt y < 0)) (fpInt x - fpInt y).natAbs 1 (fpSub x y) := by
  rw [Int.sub_eq_add_neg, ← fpInt_fpNeg hy] at h ⊢
  exact fpAdd_roundsTo hx (fpIsFinite_fpNeg hy) h

theorem fpSub_exact_zero {x y : F64} (hx : fpIsFinite x = true) (hy : fpIsFinite y = true) (h : fpInt x - fpInt y = 0) :
    fpSub x y = if fpSign x && !fpSign y then 0x8000000000000000 else 0 := by
  rw [Int.sub_eq_add_neg, ← fpInt_fpNeg hy] at h
  rw [← fpSign_fpNeg]
  exact fpAdd_exact_zero hx (fpIsFinite_fpNeg hy) h

/-! ### Products, quotients and literals -/

/-- A product of finite values is one rounding of the exact product, in units of `2^-2148`. -/
theorem fpMul_of_finite {x y : F64} (hx : fpIsFinite x = true) (hy : fpIsFinite y = true) :
    fpMul x y = fpRound (fpSign x ^^ fpSign y) (fpUnits x * fpUnits y) (2 ^ 1074) := by
  obtain ⟨m, e, hvx, hux⟩ := fpView_units hx
  obtain ⟨k, f, hvy, huy⟩ := fpView_units hy
  simp only [fpMul, hvx, hvy, hux, huy]

theorem fpMul_roundsTo {x y : F64} (hx : fpIsFinite x = true) (hy : fpIsFinite y = true) :
    RoundsTo (fpSign x ^^ fpSign y) (fpUnits x * fpUnits y) (2 ^ 1074) (fpMul x y) := by
  have hd : 0 < 2 ^ 1074 := pow_pos two_pos 1074
  rw [fpMul_of_finite hx hy]
  exact roundsTo_fpRound _ hd

theorem fpDiv_of_finite {x y : F64} (hx : fpIsFinite x = true) (hy : fpIsFinite y = true) (h : fpUnits y ≠ 0) :
    fpDiv x y = fpRound (fpSign x ^^ fpSign y) (fpUnits x * 2 ^ 1074) (fpUnits y) := by
  obtain ⟨m, e, hvx, hux⟩ := fpView_units hx
  obtain ⟨k, f, hvy, huy⟩ := fpView_units hy
  have hk : k ≠ 0 := fun hk => h (by rw [huy, hk, Nat.zero_mul])
  simp only [fpDiv, hvx, hvy, hux, huy, if_neg hk]

theorem fpDiv_roundsTo {x y : F64} (hx : fpIsFinite x = true) (hy : fpIsFinite y = true) (h : fpUnits y ≠ 0) :
    RoundsTo (fpSign x ^^ fpSign y) (fpUnits x * 2 ^ 1074) (fpUnits y) (fpDiv x y) := by
  rw [fpDiv_of_finite hx hy h]
  exact roundsTo_fpRound _ (Nat.pos_of_ne_zero h)

theorem fpLit_roundsTo (n : Nat) {d : Nat} (hd : 0 < d) : RoundsTo false (n * 2 ^ 1074) d (fpLit n d) := roundsTo_fpRound false hd

/-! ### Exact results -/

/-- Rounding keeps every value that is the value of a finite pattern. -/
theorem RoundsTo.exact {neg : Bool} {n k : Nat} {x : F64} (h : RoundsTo neg n 1 x) (hk : magUnits k = n) (hfin : k < fpInfMag) :
    fpIsFinite x = true ∧ fpInt x = fpSigned neg n := by
  obtain ⟨hsign, _, hnear⟩ := h
  have hlt : n < fpOverflow * 1 := by
    have hlast : magUnits k ≤ magUnits (fpInfMag - 1) := magUnits_strictMono.monotone (by omega)
    have hinf : magUnits (fpInfMag - 1) < magUnits fpInfMag := magUnits_strictMono (by decide)
    have := magUnits_overflow
    omega
  obtain ⟨hx, hbest⟩ := hnear hlt
  have hk63 : k < 2 ^ 63 := Nat.lt_trans hfin fpInfMag_lt
  have hy : fpIsFinite (fpPack false k) = true := by rw [fpIsFinite_fpPack false hk63, decide_eq_true hfin]
  have hunits : fpUnits (fpPack false k) = n := by rw [fpUnits_eq_magUnits hy, fpMag_fpPack false hk63, hk]
  have hdist := (hbest _ hy).1
  rw [hunits] at hdist
  have hexact : fpUnits x = n := by omega
  exact ⟨hx, by rw [fpInt, hsign, hexact]⟩

/-- Shifting a significand up to 53 bits makes it a pattern. -/
theorem exists_pattern_of_lt {a e : Nat} (ha : a < 2 ^ 53) (he : e < 2046) (hshift : 52 ≤ e) :
    ∃ k, magUnits k = a * 2 ^ e ∧ k < fpInfMag := by
  rcases Nat.eq_zero_or_pos a with rfl | hpos
  · exact ⟨0, by simp [magUnits], by decide⟩
  · have hlog : a.log2 < 53 := (Nat.log2_lt hpos.ne').mpr ha
    have hsplit : 2 ^ (52 - a.log2) * 2 ^ a.log2 = 2 ^ 52 := by rw [← Nat.pow_add]; congr 1; omega
    have hlo : 2 ^ 52 ≤ a * 2 ^ (52 - a.log2) := by
      rw [← hsplit, Nat.mul_comm a]
      exact Nat.mul_le_mul_left _ (Nat.log2_self_le hpos.ne')
    have hhi : a * 2 ^ (52 - a.log2) < 2 ^ 53 := by
      have := Nat.mul_lt_mul_of_pos_right (Nat.lt_log2_self (n := a)) (Nat.two_pow_pos (52 - a.log2))
      rwa [← Nat.pow_add, show a.log2 + 1 + (52 - a.log2) = 53 by omega] at this
    refine ⟨(e - (52 - a.log2)) * 2 ^ 52 + a * 2 ^ (52 - a.log2), ?_, ?_⟩
    · rw [magUnits_pattern (.inr hlo) (Nat.le_of_lt hhi), Nat.mul_assoc, ← Nat.pow_add]
      congr 2
      omega
    · unfold fpInfMag
      omega

/-- Integers of at most 53 bits convert exactly (R11). -/
theorem fpOfInt_exact {z : Int} (h : z.natAbs < 2 ^ 53) :
    fpIsFinite (fpOfInt z) = true ∧ fpInt (fpOfInt z) = z * 2 ^ 1074 := by
  obtain ⟨k, hk, hfin⟩ := exists_pattern_of_lt h (e := 1074) (by decide) (by decide)
  obtain ⟨hx, hval⟩ := (roundsTo_fpRound (decide (z < 0)) Nat.one_pos).exact hk hfin
  refine ⟨hx, hval.trans ?_⟩
  unfold fpSigned
  rw [Nat.cast_mul, Nat.cast_pow, Nat.cast_ofNat]
  generalize (2 : Int) ^ 1074 = u
  by_cases hz : z < 0
  · rw [decide_eq_true hz, if_pos rfl, Int.ofNat_natAbs_of_nonpos (Int.le_of_lt hz), Int.neg_mul, Int.neg_neg]
  · rw [decide_eq_false hz, if_neg Bool.false_ne_true, Int.natAbs_of_nonneg (Int.not_lt.mp hz)]

/-- `floor` of a finite value is the integer not above it (R11). -/
theorem fpFloor_of_finite {x : F64} (h : fpIsFinite x = true) : fpFloor x = .int (fpInt x / ((2 ^ 1074 : Nat) : Int)) := by
  obtain ⟨m, e, hv, hu⟩ := fpView_units h
  simp only [fpFloor, hv, fpInt, hu]

theorem fpFloor_bounds {x : F64} (h : fpIsFinite x = true) :
    ∃ z : Int, fpFloor x = .int z ∧ z * 2 ^ 1074 ≤ fpInt x ∧ fpInt x < (z + 1) * 2 ^ 1074 := by
  have hpos : (0 : Int) < 2 ^ 1074 := pow_pos two_pos _
  refine ⟨fpInt x / 2 ^ 1074, by rw [fpFloor_of_finite h, Nat.cast_pow, Nat.cast_ofNat], Int.ediv_mul_le _ hpos.ne', ?_⟩
  exact Int.lt_ediv_add_one_mul_self _ hpos

end Sys2Proof.Machine
end

section
/-! SUPPORT. The correctly rounded square root (00_scope.md R11). -/

namespace Sys2Proof.Machine

/-! ### The integer root -/

/-- The search keeps the root found so far at or below the root, and the root below what the bits left can add. -/
theorem isqrtLoop_spec (n k r : Nat) (hlo : r * r ≤ n) (hhi : n < (r + 2 ^ k) * (r + 2 ^ k)) :
    isqrtLoop n k r * isqrtLoop n k r ≤ n ∧ n < (isqrtLoop n k r + 1) * (isqrtLoop n k r + 1) := by
  induction k generalizing r with
  | zero => exact ⟨hlo, hhi⟩
  | succ k ih =>
    unfold isqrtLoop
    split
    · next hbit => exact ih _ hbit (by rwa [Nat.add_assoc, ← Nat.two_mul, ← Nat.pow_succ'])
    · next hbit => exact ih r hlo (Nat.not_le.mp hbit)

theorem isqrt_spec {bits n : Nat} (h : n < 4 ^ bits) :
    isqrt bits n * isqrt bits n ≤ n ∧ n < (isqrt bits n + 1) * (isqrt bits n + 1) := by
  refine isqrtLoop_spec n bits 0 (Nat.zero_le n) ?_
  rwa [Nat.zero_add, ← Nat.mul_pow]

/-- Twice the integer root `s` of `n`, with a last bit that says whether the root was inexact. -/
def stickyRoot (n s : Nat) : Nat := 2 * s + (if s * s = n then 0 else 1)

/-- Against an even number `2 * j` the sticky root compares as `2 * √n` does. -/
theorem two_mul_stickyRoot {n s : Nat} (hlo : s * s ≤ n) (hhi : n < (s + 1) * (s + 1)) (j : Nat) :
    (2 * j < stickyRoot n s ↔ j * j < n) ∧ (2 * j = stickyRoot n s ↔ j * j = n) := by
  have hnext : j * j < (s + 1) * (s + 1) ↔ j < s + 1 := Nat.mul_self_lt_mul_self_iff
  have hlt : j * j < s * s ↔ j < s := Nat.mul_self_lt_mul_self_iff
  have heq : j * j = s * s ↔ j = s := Nat.mul_self_inj
  unfold stickyRoot
  split <;> omega

/-- So it does at any scale `p`, against the even multiples of `p`. -/
theorem two_mul_scaled {n s p a : Nat} (hlo : s * s ≤ n) (hhi : n < (s + 1) * (s + 1)) (hp : 0 < p) (hdvd : p ∣ a) :
    (2 * a < stickyRoot n s * p ↔ a * a < n * (p * p)) ∧ (2 * a = stickyRoot n s * p ↔ a * a = n * (p * p)) := by
  obtain ⟨j, rfl⟩ := hdvd
  have hpp : 0 < p * p := Nat.mul_pos hp hp
  rw [show 2 * (p * j) = 2 * j * p by ring, show p * j * (p * j) = j * j * (p * p) by ring, Nat.mul_lt_mul_right hp,
    Nat.mul_lt_mul_right hpp, Nat.mul_left_inj hp.ne', Nat.mul_left_inj hpp.ne']
  exact two_mul_stickyRoot hlo hhi j

/-- The radicand `fpSqrtMag` takes the integer root of. -/
def radicand (m e : Nat) : Nat := m * 2 ^ (e % 2) * 2 ^ 120

/-- The exponent its root is brought back with. -/
def rootExp (e : Nat) : Nat := e / 2 + 477

theorem fpSqrtMag_eq (m e : Nat) :
    fpSqrtMag m e = fpRoundMag (stickyRoot (radicand m e) (isqrt 88 (radicand m e)) * 2 ^ rootExp e) 2 := rfl

/-- The radicand is the one of the exact root, scaled by a square. -/
theorem radicand_scaled (m e : Nat) : m * 2 ^ e * 2 ^ 1074 = radicand m e * (2 ^ rootExp e * 2 ^ rootExp e) := by
  have hexp : e + 1074 = e % 2 + 120 + (rootExp e + rootExp e) := by
    unfold rootExp
    omega
  rw [Nat.mul_assoc, ← Nat.pow_add, hexp, Nat.pow_add, Nat.pow_add, Nat.pow_add, radicand]
  ring

theorem radicand_bounds {m : Nat} (e : Nat) (hpos : 0 < m) (hm : m < 2 ^ 53) :
    2 ^ 120 ≤ radicand m e ∧ radicand m e < 2 ^ 174 := by
  have hparity : 2 ^ (e % 2) = 1 ∨ 2 ^ (e % 2) = 2 := by
    rcases Nat.mod_two_eq_zero_or_one e with h | h <;> simp [h]
  unfold radicand
  rcases hparity with h | h <;> rw [h] <;> omega

/-- A number with an odd factor of 53 bits or more has a square too long for a radicand: no root is a midpoint. -/
theorem midpoint_ne_root {m e c h t : Nat} (hpos : 0 < m) (hm : m < 2 ^ 53) (hodd : c % 2 = 1) (hc : 2 ^ 53 ≤ c) :
    c * 2 ^ (h + t) * (c * 2 ^ (h + t)) ≠ radicand m e * (2 ^ h * 2 ^ h) := by
  intro hroot
  have hscale : 0 < 2 ^ h * 2 ^ h := Nat.mul_pos (Nat.two_pow_pos h) (Nat.two_pow_pos h)
  have hsquare : c * c * (2 ^ t * 2 ^ t) = m * 2 ^ (e % 2 + 120) := by
    rw [Nat.pow_add, ← Nat.mul_assoc m, ← radicand, ← Nat.mul_left_inj hscale.ne', ← hroot, Nat.pow_add]
    ring
  have hcop : Nat.Coprime (c * c) (2 ^ (e % 2 + 120)) := by
    have hc2 : Nat.Coprime c 2 := Nat.coprime_two_right.mpr (Nat.odd_iff.mpr hodd)
    exact (Nat.Coprime.mul_left hc2 hc2).pow_right _
  have hle : c * c ≤ m := Nat.le_of_dvd hpos (hcop.dvd_of_dvd_mul_right ⟨_, hsquare.symm⟩)
  have hge : 2 ^ 53 * 2 ^ 53 ≤ c * c := Nat.mul_le_mul hc hc
  omega

/-! ### The rounded root -/

/-- `k` is the pattern nearest to the root of `v` square units, no two being as near: `f` is the last pattern not above the root. -/
def NearestRoot (v f k : Nat) : Prop :=
  magUnits f * magUnits f ≤ v ∧ v < magUnits (f + 1) * magUnits (f + 1) ∧
    ((k = f ∧ 4 * v < (magUnits f + magUnits (f + 1)) * (magUnits f + magUnits (f + 1))) ∨
      (k = f + 1 ∧ (magUnits f + magUnits (f + 1)) * (magUnits f + magUnits (f + 1)) < 4 * v))

/-- The root lies on the nearest pattern's side of the midpoint to every other pattern. -/
theorem NearestRoot.midpoint {v f k : Nat} (h : NearestRoot v f k) (j : Nat) :
    (magUnits k < magUnits j → 4 * v < (magUnits k + magUnits j) * (magUnits k + magUnits j)) ∧
      (magUnits j < magUnits k → (magUnits k + magUnits j) * (magUnits k + magUnits j) < 4 * v) := by
  obtain ⟨hlo, hhi, hk⟩ := h
  have hside := magUnits_le_or_next_le f j
  have hnext : magUnits f < magUnits (f + 1) := magUnits_strictMono (Nat.lt_succ_self f)
  generalize magUnits j = y at hside ⊢
  rcases hk with ⟨rfl, hmid⟩ | ⟨rfl, hmid⟩
  · constructor <;> intro hy
    · exact Nat.lt_of_lt_of_le hmid (Nat.mul_self_le_mul_self (by omega))
    · have := Nat.mul_self_lt_mul_self (show magUnits k + y < 2 * magUnits k by omega)
      linarith
  · constructor <;> intro hy
    · have := Nat.mul_self_lt_mul_self (show 2 * magUnits (f + 1) < magUnits (f + 1) + y by omega)
      linarith
    · exact Nat.lt_of_le_of_lt (Nat.mul_self_le_mul_self (by omega)) hmid

/-- The root found, in half units: the sticky root at its exponent. It lies far below the overflow threshold. -/
theorem stickyRoot_bounds {n s h : Nat} (hlo : s * s ≤ n) (hhi : n < (s + 1) * (s + 1)) (hn : 2 ^ 120 ≤ n) (hn' : n < 2 ^ 174)
    (hh : h ≤ 1499) : 2 ^ (61 + h) ≤ stickyRoot n s * 2 ^ h ∧ stickyRoot n s * 2 ^ h < fpOverflow * 2 := by
  have hge : 2 ^ 61 ≤ stickyRoot n s := by
    have := two_mul_stickyRoot hlo hhi (2 ^ 60)
    omega
  have hlt : stickyRoot n s < 2 ^ 88 := by
    have := two_mul_stickyRoot hlo hhi (2 ^ 87)
    omega
  constructor
  · rw [Nat.pow_add]
    exact Nat.mul_le_mul_right _ hge
  · calc stickyRoot n s * 2 ^ h < 2 ^ 88 * 2 ^ h := Nat.mul_lt_mul_of_pos_right hlt (Nat.two_pow_pos h)
      _ = 2 ^ (88 + h) := (Nat.pow_add 2 88 h).symm
      _ ≤ 2 ^ (88 + 1499) := pow_le_pow_right₀ one_le_two (Nat.add_le_add_left hh 88)
      _ ≤ fpOverflow * 2 := by decide +kernel

/-- The significand of the root has at least seven bits of the sticky root below it. -/
theorem Significand.exponent_of_root {a h e q : Nat} (hsig : Significand a 2 e q) (ha : 2 ^ (61 + h) ≤ a) : h + 8 ≤ e := by
  have hlt : 2 ^ (61 + h) < 2 ^ (54 + e) := calc
    2 ^ (61 + h) ≤ a := ha
    _ < (q + 1) * 2 ^ e * 2 := hsig.gt
    _ ≤ 2 ^ 53 * 2 ^ e * 2 := Nat.mul_le_mul_right 2 (Nat.mul_le_mul_right _ hsig.lt)
    _ = 2 ^ (54 + e) := by rw [Nat.pow_add]; ring
  have := (Nat.pow_lt_pow_iff_right (by decide)).mp hlt
  omega

/-- Rounding the sticky root rounds the exact root: the patterns beside it and their midpoint are even multiples of its last bit,
so all comparisons fall as for the exact root; the midpoint itself is no root. -/
theorem Significand.nearestRoot {n s h e q : Nat} (hlo : s * s ≤ n) (hhi : n < (s + 1) * (s + 1))
    (hsig : Significand (stickyRoot n s * 2 ^ h) 2 (e + 1) q) (he : h ≤ e)
    (htie : (2 * q + 1) * 2 ^ e * ((2 * q + 1) * 2 ^ e) ≠ n * (2 ^ h * 2 ^ h)) :
    (RoundsUp q (2 ^ (e + 1) * 2) (stickyRoot n s * 2 ^ h) →
        NearestRoot (n * (2 ^ h * 2 ^ h)) ((e + 1) * 2 ^ 52 + q) ((e + 1) * 2 ^ 52 + q + 1)) ∧
      (¬RoundsUp q (2 ^ (e + 1) * 2) (stickyRoot n s * 2 ^ h) →
        NearestRoot (n * (2 ^ h * 2 ^ h)) ((e + 1) * 2 ^ 52 + q) ((e + 1) * 2 ^ 52 + q)) := by
  have hscale : 2 ^ h ∣ 2 ^ e := Nat.pow_dvd_pow 2 he
  have hscale' : 2 ^ h ∣ 2 ^ (e + 1) := Nat.pow_dvd_pow 2 (Nat.le_succ_of_le he)
  have hbelow := two_mul_scaled hlo hhi (Nat.two_pow_pos h) (Dvd.dvd.mul_left hscale' q)
  have habove := two_mul_scaled hlo hhi (Nat.two_pow_pos h) (Dvd.dvd.mul_left hscale' (q + 1))
  have hmid := two_mul_scaled hlo hhi (Nat.two_pow_pos h) (Dvd.dvd.mul_left hscale (2 * q + 1))
  have hle := hsig.le
  have hgt := hsig.gt
  have hsum : q * 2 ^ (e + 1) + (q + 1) * 2 ^ (e + 1) = 2 * ((2 * q + 1) * 2 ^ e) := by rw [Nat.pow_succ]; ring
  have hsquare : 2 * ((2 * q + 1) * 2 ^ e) * (2 * ((2 * q + 1) * 2 ^ e)) = 4 * ((2 * q + 1) * 2 ^ e * ((2 * q + 1) * 2 ^ e)) := by
    ring
  have hden : (2 * q + 1) * (2 ^ (e + 1) * 2) = 4 * ((2 * q + 1) * 2 ^ e) := by rw [Nat.pow_succ]; ring
  unfold RoundsUp NearestRoot
  rw [hsig.magUnits_self, hsig.magUnits_next, hsum, hsquare, hden]
  omega

theorem eq_of_eq_min_of_lt {a b k : Nat} (h : a = min k b) (hlt : a < b) : a = k := by omega

/-- The magnitude `fpSqrtMag` gives is finite and nearest to the exact root. -/
theorem fpSqrtMag_nearest {m e : Nat} (hpos : 0 < m) (hm : m < 2 ^ 53) (he : e ≤ 2045) :
    fpSqrtMag m e < fpInfMag ∧ ∃ f, NearestRoot (m * 2 ^ e * 2 ^ 1074) f (fpSqrtMag m e) := by
  obtain ⟨hn, hn'⟩ := radicand_bounds e hpos hm
  have hexp : rootExp e ≤ 1499 := by unfold rootExp; omega
  have htie := fun c h t => midpoint_ne_root (e := e) (c := c) (h := h) (t := t) hpos hm
  obtain ⟨hlo, hhi⟩ := isqrt_spec (bits := 88) (Nat.lt_trans hn' (by decide))
  rw [radicand_scaled, fpSqrtMag_eq]
  generalize radicand m e = n at *
  generalize rootExp e = h at *
  generalize isqrt 88 n = s at *
  obtain ⟨hbig, hsmall⟩ := stickyRoot_bounds hlo hhi hn hn' hexp
  have hfin := (fpRoundMag_lt_iff Nat.two_pos).mpr hsmall
  obtain ⟨e', q, hsig, hround⟩ :=
    fpRoundMag_cases Nat.two_pos (Nat.lt_of_lt_of_le hsmall (Nat.mul_le_mul_right 2 fpOverflow_le_reach))
  have he' := hsig.exponent_of_root hbig
  obtain ⟨g, rfl⟩ : ∃ g, e' = h + g + 1 := ⟨e' - h - 1, by omega⟩
  have hnormal := hsig.normal
  have hnotie := htie (2 * q + 1) h g (by omega) (by omega)
  obtain ⟨hup, hdown⟩ := hsig.nearestRoot hlo hhi (Nat.le_add_right h g) hnotie
  refine ⟨hfin, (h + g + 1) * 2 ^ 52 + q, ?_⟩
  rcases hround with ⟨hr, hk⟩ | ⟨hr, hk⟩
  · rw [eq_of_eq_min_of_lt hk hfin]
    exact hdown hr
  · rw [eq_of_eq_min_of_lt hk hfin]
    exact hup hr

/-! ### SQRT -/

/-- The view of a finite pattern, within the format. -/
theorem fpView_format {x : F64} (h : fpIsFinite x = true) :
    ∃ m e, fpView x = .fin (fpSign x) m e ∧ fpUnits x = m * 2 ^ e ∧ m < 2 ^ 53 ∧ e ≤ 2045 := by
  have hmag := fpIsFinite_iff.mp h
  rw [fpInfMag] at hmag
  by_cases hsub : fpMag x / 2 ^ 52 = 0
  · exact ⟨_, _, by rw [fpView_of_finite h, if_pos hsub], by rw [fpUnits_of_finite h, if_pos hsub]; simp, by omega, by omega⟩
  · exact ⟨_, _, by rw [fpView_of_finite h, if_neg hsub], by rw [fpUnits_of_finite h, if_neg hsub], by omega, by omega⟩

/-- A NaN result is a NaN whatever its free bits are (U15). -/
theorem fpIsNan_fpNan : fpIsNan fpNan = true := by
  have hor : 0x7FF8000000000000 ≤ fpMag fpNan := by
    rw [fpMag, fpNan, BitVec.toNat_or, Nat.or_mod_two_pow]
    exact Nat.right_le_or
  rw [fpIsNan, decide_eq_true_eq, fpInfMag]
  omega

theorem fpSqrt_of_positive {x : F64} (h : fpIsFinite x = true) (hu : fpUnits x ≠ 0) (hs : fpSign x = false) :
    fpIsFinite (fpSqrt x) = true ∧ fpSign (fpSqrt x) = false ∧
      ∃ f, NearestRoot (fpUnits x * 2 ^ 1074) f (fpMag (fpSqrt x)) := by
  obtain ⟨m, e, hv, hux, hm, he⟩ := fpView_format h
  have hm0 : m ≠ 0 := fun h0 => hu (by rw [hux, h0, Nat.zero_mul])
  obtain ⟨hfin, hroot⟩ := fpSqrtMag_nearest (Nat.pos_of_ne_zero hm0) hm he
  have hmag : fpSqrtMag m e < 2 ^ 63 := Nat.lt_trans hfin fpInfMag_lt
  have hsqrt : fpSqrt x = fpPack false (fpSqrtMag m e) := by simp [fpSqrt, hv, hm0, hs]
  rw [hsqrt, hux, fpIsFinite_fpPack false hmag, fpSign_fpPack false hmag, fpMag_fpPack false hmag]
  exact ⟨decide_eq_true hfin, rfl, hroot⟩

theorem fpSqrt_of_negative {x : F64} (h : fpIsFinite x = true) (hu : fpUnits x ≠ 0) (hs : fpSign x = true) :
    fpIsNan (fpSqrt x) = true := by
  obtain ⟨m, e, hv, hux⟩ := fpView_units h
  have hm0 : m ≠ 0 := fun h0 => hu (by rw [hux, h0, Nat.zero_mul])
  have hsqrt : fpSqrt x = fpNan := by simp [fpSqrt, hv, hm0, hs]
  rw [hsqrt, fpIsNan_fpNan]

theorem fpSqrt_of_zero {x : F64} (h : fpIsFinite x = true) (hu : fpUnits x = 0) : fpSqrt x = x := by
  obtain ⟨m, e, hv, hux⟩ := fpView_units h
  have hm0 : m = 0 := (Nat.mul_eq_zero.mp (hux.symm.trans hu)).resolve_right (Nat.two_pow_pos e).ne'
  simp [fpSqrt, hv, hm0]

end Sys2Proof.Machine
end

section
/-! SUPPORT. The gamma encoder by the range of its argument (41_gamma.md R141). -/

namespace Sys2Proof.Machine

/-- `clampf` to `[0, 1]` of a NaN or of a value at or below 0 is a zero. -/
theorem clampf_unit_low {x : F64} (h : fpIsNan x = true ∨ fpLe x fpZero = true) :
    clampf x fpZero fpOne = fpZero ∨ clampf x fpZero fpOne = fpNeg fpZero := by
  unfold clampf
  split
  · exact .inl rfl
  · next hlow =>
    simp only [Bool.or_eq_true, not_or, Bool.not_eq_true] at hlow
    have hle : fpLe x fpZero = true := h.resolve_left (by simp [hlow.1])
    rw [fpLt_eq_false_of_fpLe (fpLe_trans hle (by decide)), if_neg Bool.false_ne_true]
    have hkey : fpKey x = 0 := by
      obtain ⟨hx, hz, hk⟩ := fpLe_iff.mp hle
      have hnot : ¬fpKey x < fpKey fpZero := fun hlt => by simp [fpLt_iff.mpr ⟨hx, hz, hlt⟩] at hlow
      exact Int.le_antisymm hk (Int.not_lt.mp hnot)
    exact eq_zero_of_fpKey_eq_zero hkey

/-- `clampf` to `[0, 1]` of a value at or above 1 is 1. -/
theorem clampf_unit_high {x : F64} (h : fpLe fpOne x = true) : clampf x fpZero fpOne = fpOne := by
  obtain ⟨hone, hx, hk⟩ := fpLe_iff.mp h
  unfold clampf
  rw [hx, fpLt_eq_false_of_fpLe (fpLe_trans (by decide) h), Bool.false_or, if_neg Bool.false_ne_true]
  split
  · rfl
  · next hlt =>
    have hge : fpKey x ≤ fpKey fpOne := Int.not_lt.mp fun hk' => hlt (fpLt_iff.mpr ⟨hone, hx, hk'⟩)
    exact eq_of_fpKey_eq_of_pos (by decide) (Int.le_antisymm hge hk)

/-- `clampf` to `[0, 1]` keeps what lies between. -/
theorem clampf_unit_mid {x : F64} (h0 : fpLe fpZero x = true) (h1 : fpLe x fpOne = true) : clampf x fpZero fpOne = x := by
  have hx : fpIsNan x = false := (fpLe_iff.mp h1).1
  simp [clampf, hx, fpLt_eq_false_of_fpLe h0, fpLt_eq_false_of_fpLe h1]

theorem genc_le (x : F64) : genc x ≤ 255 :=
  Int.toNat_le.mpr (clampi_bounds _ (by decide)).2

/-- The two branches of GENC at the clamped argument. -/
theorem genc_linear {x : F64} (h : fpLe (clampf x fpZero fpOne) (fpLit 31308 10000000) = true) :
    genc x =
      (clampi (fpFloor (fpAdd (fpMul (fpMul (clampf x fpZero fpOne) (fpLit 1292 100)) (fpLit 255 1)) (fpLit 1 2))) 0
        255).toNat := by
  simp only [genc, h, if_true]

theorem genc_power {x : F64} (h : fpLe (clampf x fpZero fpOne) (fpLit 31308 10000000) = false) :
    genc x =
      (clampi
        (fpFloor
          (fpAdd
            (fpMul (fpSub (fpMul (fpLit 1055 1000) (pow64 (clampf x fpZero fpOne) (fpLit 5 12))) (fpLit 55 1000)) (fpLit 255 1))
            (fpLit 1 2)))
        0 255).toNat := by
  simp only [genc, h, Bool.false_eq_true, if_false]

theorem genc_of_low {x : F64} (h : fpIsNan x = true ∨ fpLe x fpZero = true) : genc x = 0 := by
  rcases clampf_unit_low h with hv | hv
  all_goals
    rw [genc_linear (by rw [hv]; decide +kernel), hv]
    decide +kernel

theorem genc_of_one_le {x : F64} (h : fpLe fpOne x = true) : genc x = 255 := by
  have hv := clampf_unit_high h
  rw [genc_power (by rw [hv]; decide +kernel), hv, pow64_one (by decide +kernel)]
  decide +kernel

theorem genc_of_le_linear_end {x : F64} (h0 : fpLt fpZero x = true) (h : fpLe x (fpLit 31308 10000000) = true) :
    genc x = (clampi (fpFloor (fpAdd (fpMul (fpMul x (fpLit 1292 100)) (fpLit 255 1)) (fpLit 1 2))) 0 255).toNat := by
  have hv := clampf_unit_mid (fpLe_of_fpLt h0) (fpLe_trans h (by decide +kernel))
  rw [genc_linear (by rw [hv]; exact h), hv]

theorem genc_of_linear_end_lt {x : F64} (h : fpLt (fpLit 31308 10000000) x = true) (h1 : fpLt x fpOne = true) :
    genc x =
      (clampi
        (fpFloor
          (fpAdd (fpMul (fpSub (fpMul (fpLit 1055 1000) (pow64 x (fpLit 5 12))) (fpLit 55 1000)) (fpLit 255 1)) (fpLit 1 2)))
        0 255).toNat := by
  have h0 : fpLe fpZero x = true := fpLe_trans (by decide +kernel) (fpLe_of_fpLt h)
  have hv := clampf_unit_mid h0 (fpLe_of_fpLt h1)
  have hnot : fpLe x (fpLit 31308 10000000) = false :=
    Bool.eq_false_iff.mpr fun hle => by simp [fpLt_eq_false_of_fpLe hle] at h
  rw [genc_power (by rw [hv]; exact hnot), hv]

/-- The linear branches of LIN_LUT and GENC undo each other at the samples 0 to 10 (R140, R141). -/
theorem genc_linLut_linear : ∀ n ≤ 10, genc (linLut (BitVec.ofNat 8 n)) = n := by
  decide +kernel

end Sys2Proof.Machine
end

section
/-! SUPPORT. The state after power-on reset (10_state.md R60, 70_reset_and_hazards.md R230). -/

namespace Sys2Proof.Machine

theorem pixCap_bounds : 1 ≤ Config.pixCap ∧ Config.pixCap ≤ 65536 :=
  ⟨Nat.le_add_left 1 _, Config.pixCapPred.isLt⟩

/-- Power-on reset in any state is the reset state but for the model's own fields and the pin (R230, Log 15). -/
theorem powerOnReset_eq (s : State) :
    powerOnReset s =
      { State.reset with inReset := s.inReset, pending := s.pending, resp := s.resp, freeCtr := s.freeCtr } := rfl

end Sys2Proof.Machine
end

section
/-! The statements of 00_scope.md. -/

namespace Sys2Proof.Scope

open Sys2Proof.Machine

/-- Settles O4: the next input picks between the engine's turn and the host's transaction. -/
theorem stepRunsTheDecodedCommand : Obligations.StepRunsTheDecodedCommand := by
  intro s w i hreset hengine hdecode
  refine ⟨fun hp => ?_, fun es hp => ?_, fun t es hp => ?_⟩
  · rw [step_of_no_pending s hp]
    exact engineTurn_of_command s w i hreset hengine hdecode
  · rw [step_of_pending s _ es hp]
    exact engineTurn_of_command { s with pending := es } w i hreset hengine hdecode
  · exact step_of_pending s _ es hp

/-- Settles O58: the values after reset, and the two edges of `rst_n` as the next input. -/
theorem powerOnReset : Obligations.PowerOnReset := by
  refine ⟨fun r => ?_, rfl, rfl, fun _ => rfl, pixCap_bounds.1, pixCap_bounds.2, fun s es => ⟨fun hp => ?_, fun hp => ?_⟩⟩
  · cases r <;> rfl
  · rw [step_of_pending s _ es hp, takeEvent, powerOnReset_eq]
  · rw [step_of_pending s _ es hp, takeEvent]

/-- Settles O26: the corrections built into COS64 and POW64 give the properties whatever the raw functions are. -/
theorem namedPropertiesOfCosAndPow : Obligations.NamedPropertiesOfCosAndPow := by
  refine ⟨cos64_zero, fun a ha => fpInSymUnit_iff.mp (cos64_inSymUnit ha), fun y hy => pow64_one hy, fun x y h0 h1 hy => ?_⟩
  have hunit := pow64_inUnit (fpInUnit_iff.mpr ⟨h0, h1⟩) hy
  exact ⟨fpIsFinite_of_fpInUnit hunit, fpInUnit_iff.mp hunit⟩

/-- Settles O23, through the patterns: the units of the result and of its neighbours on both sides of the quotient. -/
theorem roundingIsToNearestEven : Obligations.RoundingIsToNearestEven :=
  fun neg _ _ hd => roundsTo_fpRound neg hd

/-- Settles O24: each operation on finite values is one use of `fpRound` at the exact result. -/
theorem operationsRoundOnce : Obligations.OperationsRoundOnce :=
  ⟨fun _ _ hx hy => ⟨fpAdd_roundsTo hx hy, fpAdd_exact_zero hx hy, fpSub_roundsTo hx hy, fpSub_exact_zero hx hy,
      fpMul_roundsTo hx hy, fpDiv_roundsTo hx hy⟩,
    fun n _ hd => fpLit_roundsTo n hd, fun _ _ hx hy => ⟨fpAdd_inf_left hx hy, fpAdd_inf_right hx hy⟩,
    fun _ hz => fpOfInt_exact hz, fun _ hx => fpFloor_bounds hx⟩

/-- Settles O25: the sticky root rounds as the exact root, which is never a midpoint. -/
theorem squareRootIsCorrectlyRounded : Obligations.SquareRootIsCorrectlyRounded := by
  refine ⟨fun x hx hu => ⟨fun hs => ?_, fpSqrt_of_negative hx hu⟩, fun _ => fpSqrt_of_zero, by decide,
    fun _ _ => isqrt_spec⟩
  obtain ⟨hfin, hsign, f, hroot⟩ := fpSqrt_of_positive hx hu hs
  refine ⟨hfin, hsign, fun y hy => ?_⟩
  rw [fpUnits_eq_magUnits hfin, fpUnits_eq_magUnits hy]
  exact hroot.midpoint (fpMag y)

/-- Settles O17, by the range the clamped argument falls in. -/
theorem gencBranches : Obligations.GencBranches := by
  refine ⟨fun x => ⟨genc_le x, fun h => genc_of_low (.inl h), fun h => genc_of_low (.inr h), genc_of_one_le,
    genc_of_le_linear_end, genc_of_linear_end_lt⟩, by decide +kernel, fun v hv => ?_⟩
  simpa using genc_linLut_linear v.toNat hv

end Sys2Proof.Scope
end

section
/-! SUPPORT. The ranges of the quantizers (42_quantizer.md R156) and that the hash encoder answers on every legal grid. -/

namespace Sys2Proof.Machine

/-- A clamp to natural bounds stays below the upper one as a natural number. -/
theorem clampi_toNat_le (n : ExtInt) (hi : Nat) : (clampi n 0 hi).toNat ≤ hi :=
  Int.toNat_le.mpr (clampi_bounds n (Int.natCast_nonneg hi)).2

theorem qacf_le (v m : F64) : qacf v m ≤ 18 := clampi_toNat_le _ 18

theorem acq_le (t : Triple) (m : F64) : acq t m ≤ 6858 := by
  have hr := qacf_le t.r m
  have hg := qacf_le t.g m
  have hb := qacf_le t.b m
  unfold acq
  omega

theorem qmaxf_le (a : F64) : qmaxf a ≤ 82 := clampi_toNat_le _ 82

theorem dcq_le (t : Triple) : dcq t ≤ 0xFFFFFF := by
  have hr := genc_le t.r
  have hg := genc_le t.g
  have hb := genc_le t.b
  unfold dcq
  omega

theorem acScale_le (ac : List Triple) : (acScale ac).1 ≤ 82 := by
  unfold acScale
  split
  · exact Nat.zero_le _
  · exact qmaxf_le _

/-- Every field fits its digits, so INVALID_LENGTH is never raised (42_quantizer.md R156). -/
theorem qencf_of_legal {X Y : Nat} (hX : X ≤ 9) (hY : Y ≤ 9) (g : Grid) : ∃ h, qencf X Y g = .ok h := by
  have hq := acScale_le g.ac
  have hdc := dcq_le g.dc
  refine ⟨_, (qencf_eq_ok X Y g _).mpr ⟨⟨by omega, by omega, by omega, fun t _ => ?_⟩, rfl⟩⟩
  have := acq_le t (acScale g.ac).2
  omega

end Sys2Proof.Machine
end

section
/-! SUPPORT. The errors the pseudocode of a command can raise (60_exceptions.md R202). -/

namespace Sys2Proof.Machine

/-- An outcome that, where it is an error and no fault, is one of those listed. -/
def RaisesOnly {α : Type} (x : Except Stop α) (es : List ErrCode) : Prop := ∀ e info, x = .error (.raise e info) → e ∈ es

/-! ### Sequencing -/

theorem raisesOnly_ok {α : Type} (a : α) (es : List ErrCode) : RaisesOnly (Except.ok a : Except Stop α) es := nofun

theorem raisesOnly_raise {α : Type} {e : ErrCode} {es : List ErrCode} (he : e ∈ es) (info : Nat) :
    RaisesOnly (raise e info : Except Stop α) es := by
  intro e' info' h
  cases h
  exact he

theorem RaisesOnly.bind {α β : Type} {x : Except Stop α} {f : α → Except Stop β} {es : List ErrCode} (hx : RaisesOnly x es)
    (hf : ∀ a, x = .ok a → RaisesOnly (f a) es) : RaisesOnly (x >>= f) es := by
  intro e info h
  rcases (except_bind_eq_error _ _ _).mp h with h | ⟨a, ha, h⟩
  · exact hx e info h
  · exact hf a ha e info h

theorem RaisesOnly.ite {α : Type} {c : Prop} [Decidable c] {x y : Except Stop α} {es : List ErrCode} (hx : RaisesOnly x es)
    (hy : RaisesOnly y es) : RaisesOnly (if c then x else y) es := by
  split
  · exact hx
  · exact hy

theorem raisesOnly_of_eq_ok {α : Type} {x : Except Stop α} {a : α} (h : x = .ok a) (es : List ErrCode) : RaisesOnly x es := by
  rw [h]
  exact raisesOnly_ok a es

/-! ### The operands -/

variable {es : List ErrCode} (s : State)

theorem initialised_raisesOnly {α : Type} (v : Option α) : RaisesOnly (initialised v) es := by
  cases v <;> nofun

theorem chkComp_raisesOnly (he : .invalidParameter ∈ es) : RaisesOnly (chkComp s) es :=
  .ite (raisesOnly_raise he _) (.ite (raisesOnly_raise he _) (raisesOnly_ok _ _))

theorem chkDim_raisesOnly (he : .invalidDimension ∈ es) : RaisesOnly (chkDim s) es :=
  .ite (raisesOnly_raise he _) (.ite (raisesOnly_raise he _) (.ite (raisesOnly_raise he _) (raisesOnly_ok _ _)))

theorem finiteOperand_raisesOnly (he : .operand ∈ es) (k : Nat) (x : F64) : RaisesOnly (finiteOperand k x) es :=
  .ite (raisesOnly_ok _ _) (raisesOnly_raise he _)

theorem compRead_raisesOnly (k c : Nat) : RaisesOnly (compRead s k c) es :=
  .bind (initialised_raisesOnly _) fun _ _ => raisesOnly_ok _ _

theorem pixRead_raisesOnly (k : Nat) : RaisesOnly (pixRead s k) es :=
  .bind (initialised_raisesOnly _) fun _ _ => raisesOnly_ok _ _

theorem pixReads_raisesOnly (k n : Nat) : RaisesOnly (pixReads s k n) es := by
  induction n generalizing k with
  | zero => exact raisesOnly_ok _ _
  | succ n ih => exact .bind (pixRead_raisesOnly s k) fun _ _ => .bind (ih (k + 1)) fun _ _ => raisesOnly_ok _ _

theorem entryOperand_raisesOnly (he : .operand ∈ es) (k : Nat) : RaisesOnly (entryOperand s k) es :=
  have channel (c : Nat) : RaisesOnly (compOperand s k c) es :=
    .bind (compRead_raisesOnly s k c) fun _ _ => finiteOperand_raisesOnly he _ _
  .bind (channel 0) fun _ _ => .bind (channel 1) fun _ _ => .bind (channel 2) fun _ _ => raisesOnly_ok _ _

theorem entryOperands_raisesOnly (he : .operand ∈ es) (k n : Nat) : RaisesOnly (entryOperands s k n) es := by
  induction n generalizing k with
  | zero => exact raisesOnly_ok _ _
  | succ n ih => exact .bind (entryOperand_raisesOnly s he k) fun _ _ => .bind (ih (k + 1)) fun _ _ => raisesOnly_ok _ _

theorem gridOperand_raisesOnly (he : .operand ∈ es) (n : Nat) : RaisesOnly (gridOperand s n) es :=
  .bind (entryOperand_raisesOnly s he 0) fun _ _ =>
    .bind (entryOperands_raisesOnly s he 1 (n - 1)) fun _ _ => raisesOnly_ok _ _

/-! ### The hash codec -/

theorem hashDigit_raisesOnly (he : .invalidCharacter ∈ es) (k : Nat) : RaisesOnly (hashDigit s k) es := by
  refine .bind (initialised_raisesOnly _) fun b _ => ?_
  split
  · exact raisesOnly_raise he _
  · exact raisesOnly_ok _ _

theorem hashValue_raisesOnly (he : .invalidCharacter ∈ es) (k L v : Nat) : RaisesOnly (hashValue s k L v) es := by
  induction L generalizing k v with
  | zero => exact raisesOnly_ok _ _
  | succ L ih => exact .bind (hashDigit_raisesOnly s he k) fun _ _ => ih _ _

theorem acEntries_raisesOnly (he : .invalidCharacter ∈ es) (m : F64) (k n : Nat) : RaisesOnly (acEntries s m k n) es := by
  induction n generalizing k with
  | zero => exact raisesOnly_ok _ _
  | succ n ih => exact .bind (hashValue_raisesOnly s he _ _ _) fun _ _ => .bind (ih (k + 1)) fun _ _ => raisesOnly_ok _ _

theorem parseHdr_raisesOnly (hh : .invalidHash ∈ es) (hc : .invalidCharacter ∈ es) : RaisesOnly (parseHdr s) es :=
  .ite (raisesOnly_raise hh _) <|
    .bind (hashDigit_raisesOnly s hc 0) fun _ _ =>
      .ite (raisesOnly_raise hh _) (.ite (raisesOnly_raise hh _) (raisesOnly_ok _ _))

theorem qdecf_raisesOnly (hh : .invalidHash ∈ es) (hc : .invalidCharacter ∈ es) (hd : .dcRange ∈ es) :
    RaisesOnly (qdecf s) es :=
  .bind (parseHdr_raisesOnly s hh hc) fun _ _ => .bind (hashDigit_raisesOnly s hc 1) fun _ _ =>
    .bind (hashValue_raisesOnly s hc 2 4 0) fun _ _ => .ite (raisesOnly_raise hd _) <|
      .bind (acEntries_raisesOnly s hc _ _ _) fun _ _ => raisesOnly_ok _ _

/-- On counts that CHKCOMP answers the hash encoder raises nothing. -/
theorem qencf_raisesOnly_of_chkComp {X Y : Nat} (h : chkComp s = .ok (X, Y)) (g : Grid) : RaisesOnly (qencf X Y g) es := by
  obtain ⟨-, ⟨-, hX⟩, -, hY⟩ := (chkComp_eq_ok s X Y).mp h
  obtain ⟨out, hout⟩ := qencf_of_legal hX hY g
  exact raisesOnly_of_eq_ok hout es

/-! ### The commands -/

/-- A command raises only the errors of its row of 60_exceptions.md R202. -/
theorem runOf_raisesOnly (i : Instr) : RaisesOnly (runOf i s) (errorsOf i) := by
  cases i with
  | nop => exact raisesOnly_ok _ _
  | encode =>
    exact .bind (chkComp_raisesOnly s (by decide)) fun _ hcomp => .bind (chkDim_raisesOnly s (by decide)) fun _ _ =>
      .bind (pixReads_raisesOnly s _ _) fun _ _ => .bind (qencf_raisesOnly_of_chkComp s hcomp _) fun _ _ => raisesOnly_ok _ _
  | decode =>
    exact .bind (qdecf_raisesOnly s (by decide) (by decide) (by decide)) fun _ _ =>
      .bind (chkDim_raisesOnly s (by decide)) fun _ _ => raisesOnly_ok _ _
  | components => exact .bind (parseHdr_raisesOnly s (by decide) (by decide)) fun _ _ => raisesOnly_ok _ _
  | fdct =>
    exact .bind (chkComp_raisesOnly s (by decide)) fun _ _ => .bind (chkDim_raisesOnly s (by decide)) fun _ _ =>
      .bind (pixReads_raisesOnly s _ _) fun _ _ => raisesOnly_ok _ _
  | qenc =>
    exact .bind (chkComp_raisesOnly s (by decide)) fun _ hcomp => .bind (gridOperand_raisesOnly s (by decide) _) fun _ _ =>
      .bind (qencf_raisesOnly_of_chkComp s hcomp _) fun _ _ => raisesOnly_ok _ _
  | qdec => exact .bind (qdecf_raisesOnly s (by decide) (by decide) (by decide)) fun _ _ => raisesOnly_ok _ _
  | idct =>
    exact .bind (chkComp_raisesOnly s (by decide)) fun _ _ => .bind (chkDim_raisesOnly s (by decide)) fun _ _ =>
      .bind (gridOperand_raisesOnly s (by decide) _) fun _ _ => raisesOnly_ok _ _
  | b83Enc off len =>
    exact .ite (raisesOnly_raise (by simp [errorsOf]) _) <|
      .bind (.ite (raisesOnly_raise (by simp [errorsOf]) _) (raisesOnly_ok _ _)) fun _ _ => raisesOnly_ok _ _
  | b83Dec off len =>
    exact .ite (raisesOnly_raise (by simp [errorsOf]) _) <|
      .bind (hashValue_raisesOnly s (by simp [errorsOf]) _ _ _) fun _ _ => raisesOnly_ok _ _
  | gammaDec imm => exact raisesOnly_ok _ _
  | gammaEnc => exact .bind (finiteOperand_raisesOnly (by decide) _ _) fun _ _ => raisesOnly_ok _ _
  | quantMax => exact .bind (finiteOperand_raisesOnly (by decide) _ _) fun _ _ => raisesOnly_ok _ _
  | quantAc =>
    exact .bind (finiteOperand_raisesOnly (by decide) _ _) fun _ _ => .bind (finiteOperand_raisesOnly (by decide) _ _)
      fun _ _ => .ite (raisesOnly_raise (by decide) _) (raisesOnly_ok _ _)
  | dequantAc imm =>
    exact .bind (finiteOperand_raisesOnly (by simp [errorsOf]) _ _) fun _ _ => raisesOnly_ok _ _

end Sys2Proof.Machine
end

section
/-! SUPPORT. What a command that succeeds changes: the registers of its row of 10_state.md R57, and the window locations. -/

namespace Sys2Proof.Machine

/-! ### Registers -/

/-- The quantized maximum the hash decoder answers is a digit. -/
theorem qdecf_q_le {s : State} {out : HashIn} (h : qdecf s = .ok out) : out.q ≤ 82 := by
  obtain ⟨-, hq, -⟩ := (qdecf_eq_ok s out).mp h
  obtain ⟨b, -, hb⟩ := (hashDigit_eq_ok s 1 out.q).mp hq
  have := digit_lt hb
  omega

/-- The quantized maximum the hash encoder answers is a digit. -/
theorem qencf_q_le {X Y : Nat} {g : Grid} {out : HashOut} (h : qencf X Y g = .ok out) : out.q ≤ 82 := by
  obtain ⟨-, rfl⟩ := (qencf_eq_ok X Y g out).mp h
  exact acScale_le g.ac

theorem maxq_ofNat_le {q : Nat} (h : q ≤ 82) : (BitVec.ofNat 7 q).toNat ≤ 82 := by
  rw [BitVec.toNat_ofNat]
  exact Nat.le_trans (Nat.mod_le _ _) h

/-- The results of a command are in the windows, COMP, HASHLEN, MAXQ, MAXVAL and RES (10_state.md R57); every other field is as
before. MAXQ is kept or set to a quantized maximum (R35). -/
theorem runOf_frame {i : Instr} {s u : State} (h : runOf i s = .ok u) :
    ∃ m x y len q v r, (q = s.maxq ∨ q.toNat ≤ 82) ∧
      u = { s with mem := m, xc := x, yc := y, hashlen := len, maxq := q, maxval := v, res := r } := by
  cases i with
  | nop =>
    cases h
    exact ⟨_, _, _, _, _, _, _, .inl rfl, rfl⟩
  | encode =>
    obtain ⟨_, _, _, _, _, _, _, _, _, hq, rfl⟩ := (encodeRun_eq_ok _ _).mp h
    exact ⟨_, _, _, _, _, _, _, .inr (maxq_ofNat_le (qencf_q_le hq)), rfl⟩
  | decode =>
    obtain ⟨_, _, _, hq, _, rfl⟩ := (decodeRun_eq_ok _ _).mp h
    exact ⟨_, _, _, _, _, _, _, .inr (maxq_ofNat_le (qdecf_q_le hq)), rfl⟩
  | components =>
    obtain ⟨_, _, _, rfl⟩ := (componentsRun_eq_ok _ _).mp h
    exact ⟨_, _, _, _, _, _, _, .inl rfl, rfl⟩
  | fdct =>
    obtain ⟨_, _, _, _, _, _, _, _, rfl⟩ := (fdctRun_eq_ok _ _).mp h
    exact ⟨_, _, _, _, _, _, _, .inl rfl, rfl⟩
  | qenc =>
    obtain ⟨_, _, _, _, _, _, hq, rfl⟩ := (qencRun_eq_ok _ _).mp h
    exact ⟨_, _, _, _, _, _, _, .inr (maxq_ofNat_le (qencf_q_le hq)), rfl⟩
  | qdec =>
    obtain ⟨_, hq, rfl⟩ := (qdecRun_eq_ok _ _).mp h
    exact ⟨_, _, _, _, _, _, _, .inr (maxq_ofNat_le (qdecf_q_le hq)), rfl⟩
  | idct =>
    obtain ⟨_, _, _, _, _, _, _, _, rfl⟩ := (idctRun_eq_ok _ _).mp h
    exact ⟨_, _, _, _, _, _, _, .inl rfl, rfl⟩
  | b83Enc off len =>
    obtain ⟨_, _, rfl⟩ := (b83EncRun_eq_ok _ _ _ _).mp h
    exact ⟨_, _, _, _, _, _, _, .inl rfl, rfl⟩
  | b83Dec off len =>
    obtain ⟨_, _, _, rfl⟩ := (b83DecRun_eq_ok _ _ _ _).mp h
    exact ⟨_, _, _, _, _, _, _, .inl rfl, rfl⟩
  | gammaDec imm =>
    cases h
    exact ⟨_, _, _, _, _, _, _, .inl rfl, rfl⟩
  | gammaEnc =>
    obtain ⟨_, rfl⟩ := (gammaEncRun_eq_ok _ _).mp h
    exact ⟨_, _, _, _, _, _, _, .inl rfl, rfl⟩
  | quantMax =>
    obtain ⟨_, rfl⟩ := (quantMaxRun_eq_ok _ _).mp h
    exact ⟨_, _, _, _, _, _, _, .inl rfl, rfl⟩
  | quantAc =>
    obtain ⟨_, _, _, rfl⟩ := (quantAcRun_eq_ok _ _).mp h
    exact ⟨_, _, _, _, _, _, _, .inl rfl, rfl⟩
  | dequantAc imm =>
    obtain ⟨_, rfl⟩ := (dequantAcRun_eq_ok _ _ _).mp h
    exact ⟨_, _, _, _, _, _, _, .inl rfl, rfl⟩

section frame

variable {i : Instr} {s u : State} (h : runOf i s = .ok u)
include h

theorem runOf_irqEn : u.irqEn = s.irqEn := by
  obtain ⟨_, _, _, _, _, _, _, _, rfl⟩ := runOf_frame h
  rfl

theorem runOf_err : u.err = s.err := by
  obtain ⟨_, _, _, _, _, _, _, _, rfl⟩ := runOf_frame h
  rfl

theorem runOf_errcode : u.errcode = s.errcode := by
  obtain ⟨_, _, _, _, _, _, _, _, rfl⟩ := runOf_frame h
  rfl

theorem runOf_errinfo : u.errinfo = s.errinfo := by
  obtain ⟨_, _, _, _, _, _, _, _, rfl⟩ := runOf_frame h
  rfl

theorem runOf_maxq : u.maxq = s.maxq ∨ u.maxq.toNat ≤ 82 := by
  obtain ⟨_, _, _, _, _, _, _, hq, rfl⟩ := runOf_frame h
  exact hq

end frame

/-! ### Window locations -/

/-- The three windows (20_memory.md R72). -/
theorem inWindow_iff (a : Nat) :
    inWindow a = true ↔
      (0x100 ≤ a ∧ a < 0x200) ∨ (0x800 ≤ a ∧ a < 0xF98) ∨ (0x40000 ≤ a ∧ (a - 0x40000) / 4 < Config.pixCap) := by
  simp only [inWindow, inHash, inComp, inPix, Bool.or_eq_true, Bool.and_eq_true, decide_eq_true_eq, or_assoc]
  exact Iff.rfl

theorem inWindow_of_hash {a : Nat} (h1 : 0x100 ≤ a) (h2 : a < 0x200) : inWindow a = true :=
  (inWindow_iff a).mpr (.inl ⟨h1, h2⟩)

theorem inWindow_of_comp {a : Nat} (h1 : 0x800 ≤ a) (h2 : a < 0xF98) : inWindow a = true :=
  (inWindow_iff a).mpr (.inr (.inl ⟨h1, h2⟩))

theorem inWindow_of_pix {a : Nat} (h1 : 0x40000 ≤ a) (h2 : a < 0x40000 + 4 * Config.pixCap) : inWindow a = true :=
  (inWindow_iff a).mpr (.inr (.inr ⟨h1, by omega⟩))

theorem inRanges_append (rs rs' : List (Nat × Nat)) (a : Nat) : inRanges (rs ++ rs') a = (inRanges rs a || inRanges rs' a) :=
  List.any_append

theorem inRanges_single (base n a : Nat) : inRanges [(base, n)] a = true ↔ base ≤ a ∧ a < base + n := by
  simp [inRanges]

/-- `m'` is `m` with every byte of the ranges written, each a window location, and no other. -/
structure WritesExactly (m m' : Memory) (rs : List (Nat × Nat)) : Prop where
  written : ∀ a, inRanges rs a = true → (memRead m' a).isSome = true ∧ inWindow a = true
  kept : ∀ a, inRanges rs a = false → memRead m' a = memRead m a
  wf : m.wf = true → m'.wf = true

theorem WritesExactly.refl (m : Memory) : WritesExactly m m [] where
  written := nofun
  kept _ _ := rfl
  wf h := h

theorem WritesExactly.trans {m m' m'' : Memory} {rs rs' : List (Nat × Nat)} (h : WritesExactly m m' rs)
    (h' : WritesExactly m' m'' rs') : WritesExactly m m'' (rs ++ rs') where
  written a ha := by
    rw [inRanges_append] at ha
    cases hr : inRanges rs' a
    · rw [hr, Bool.or_false] at ha
      rw [h'.kept a hr]
      exact h.written a ha
    · exact h'.written a hr
  kept a ha := by
    rw [inRanges_append, Bool.or_eq_false_iff] at ha
    rw [h'.kept a ha.2, h.kept a ha.1]
  wf hm := h'.wf (h.wf hm)

/-- A store of consecutive bytes within a window. -/
theorem writesExactly_memWriteBytes (m : Memory) {base n : Nat} {bs : List Byte} (hn : bs.length = n)
    (hw : ∀ a, base ≤ a → a < base + n → inWindow a = true) : WritesExactly m (memWriteBytes m base bs) [(base, n)] where
  written a ha := by
    obtain ⟨h1, h2⟩ := (inRanges_single base n a).mp ha
    refine ⟨?_, hw a h1 h2⟩
    rw [memRead_memWriteBytes, if_pos ⟨h1, by omega⟩]
    rw [List.getElem?_eq_getElem (by omega)]
    rfl
  kept a ha := by
    refine memRead_memWriteBytes_outside m bs fun hin => ?_
    rw [(inRanges_single base n a).mpr (by omega)] at ha
    exact absurd ha (by decide)
  wf := memWriteBytes_wf base bs

/-- Consecutive HASH bytes within the buffer. -/
theorem writesExactly_hashStore (m : Memory) {k n : Nat} {bs : List Byte} (hn : bs.length = n) (h : k + n ≤ 256) :
    WritesExactly m (hashStore m k bs) [hashRange k n] :=
  writesExactly_memWriteBytes m hn fun a h1 h2 => by
    simp only [hashAddr, hashBase] at h1 h2
    exact inWindow_of_hash (by omega) (by omega)

/-- The entries of a grid of at most 81 components. -/
theorem writesExactly_gridStore (m : Memory) {g : Grid} {n : Nat} (hn : g.ac.length + 1 = n) (h : n ≤ 81) :
    WritesExactly m (gridStore m g) [entriesRange n] :=
  writesExactly_memWriteBytes m (base := compBase) (by simp; omega) fun a h1 h2 => by
    simp only [compBase] at h1 h2
    exact inWindow_of_comp (by omega) (by omega)

/-- Pixel words within the capacity. -/
theorem writesExactly_pixStore (m : Memory) {ps : List Word} {n : Nat} (hn : ps.length = n) (h : n ≤ Config.pixCap) :
    WritesExactly m (pixStore m ps) [pixRange n] :=
  writesExactly_memWriteBytes m (base := pixBase) (by rw [pixBytes_length, hn]) fun a h1 h2 => by
    simp only [pixBase] at h1 h2
    exact inWindow_of_pix (by omega) (by omega)

/-! ### The sizes of the results -/

theorem grid_size_le {X Y : Nat} (hX : X ≤ 9) (hY : Y ≤ 9) : X * Y ≤ 81 := Nat.mul_le_mul hX hY

theorem fdctGrid_length {X Y : Nat} (hX : 1 ≤ X) (hY : 1 ≤ Y) (px : List Word) (W H : Nat) :
    (fdctGrid px X Y W H).ac.length + 1 = X * Y := by
  have := Nat.mul_pos hX hY
  simp only [fdctGrid, List.length_map, List.length_range']
  omega

@[simp] theorem idctPixels_length (g : Grid) (X W H : Nat) : (idctPixels g X W H).length = W * H := by simp [idctPixels]

/-- A hash string has 4 + 2 n bytes for n components (44_hash_codec.md R170). -/
theorem hashString_length (X Y q dc : Nat) (acs : List Nat) : (hashString X Y q dc acs).length = 4 + 2 * (acs.length + 1) := by
  simp only [hashString, List.length_append, b83Digits_length, List.length_flatMap, List.map_const', List.sum_replicate,
    smul_eq_mul]
  omega

theorem qencf_bytes_length {X Y n : Nat} {g : Grid} {out : HashOut} (h : qencf X Y g = .ok out) (hn : g.ac.length + 1 = n) :
    out.bytes.length = 4 + 2 * n := by
  obtain ⟨-, rfl⟩ := (qencf_eq_ok X Y g out).mp h
  rw [hashString_length, List.length_map, hn]

/-- What a successful hash decode says of HASHLEN and of its grid (44_hash_codec.md R171, R174). -/
theorem qdecf_sizes {s : State} {out : HashIn} (h : qdecf s = .ok out) :
    hashLenLegal s.hashlen.toNat = true ∧ out.grid.ac.length + 1 = hashEntries s ∧ hashEntries s ≤ 81 := by
  obtain ⟨hp, -, -, dc, -, -, -, hac⟩ := (qdecf_eq_ok s out).mp h
  obtain ⟨d, -, -, hd, hlen, hX, hY⟩ := (parseHdr_eq_ok s out.X out.Y).mp hp
  have hentries : hashEntries s = out.X * out.Y := by
    rw [hashEntries, hlen, hX, hY]
    omega
  have hpos : 0 < out.X * out.Y := by
    rw [hX, hY]
    exact Nat.mul_pos (Nat.succ_pos _) (Nat.succ_pos _)
  refine ⟨?_, ?_, ?_⟩
  · exact List.any_eq_true.mpr ⟨d, List.mem_range.mpr (by omega), decide_eq_true hlen⟩
  · rw [acEntries_length s _ _ _ _ hac, hentries]
    omega
  · rw [hentries]
    exact grid_size_le (by omega) (by omega)

/-- A command that succeeds writes the window locations of its row of 10_state.md R57. -/
theorem runOf_writesExactly {i : Instr} {s u : State} (h : runOf i s = .ok u) : WritesExactly s.mem u.mem (footprint i s) := by
  cases i with
  | nop =>
    cases h
    exact .refl _
  | encode =>
    obtain ⟨X, Y, W, H, px, out, hcomp, -, -, hq, rfl⟩ := (encodeRun_eq_ok _ _).mp h
    obtain ⟨⟨rfl, rfl⟩, ⟨hX, hX9⟩, hY, hY9⟩ := (chkComp_eq_ok _ _ _).mp hcomp
    have hlen := fdctGrid_length hX hY px W H
    have hle := grid_size_le hX9 hY9
    have hfoot : footprint .encode s = [entriesRange (s.xc.toNat * s.yc.toNat)] ++
        [hashRange 0 (4 + 2 * (s.xc.toNat * s.yc.toNat))] := rfl
    simp only [hfoot, storeHash_mem]
    exact (writesExactly_gridStore s.mem hlen hle).trans
      (writesExactly_hashStore _ (qencf_bytes_length hq hlen) (by omega))
  | decode =>
    obtain ⟨out, W, H, hq, hdim, rfl⟩ := (decodeRun_eq_ok _ _).mp h
    obtain ⟨hlegal, hlen, hle⟩ := qdecf_sizes hq
    obtain ⟨⟨rfl, rfl⟩, -, -, hcap⟩ := (chkDim_eq_ok _ _ _).mp hdim
    have hfoot : footprint .decode s = [entriesRange (hashEntries s), pixRange (s.width.toNat * s.height.toNat)] := by
      simp [footprint, hlegal, hdim, Except.isOk, Except.toBool]
    simp only [hfoot, storeDecoded_mem]
    exact (writesExactly_gridStore s.mem hlen hle).trans (writesExactly_pixStore _ (idctPixels_length _ _ _ _) hcap)
  | components =>
    obtain ⟨_, _, _, rfl⟩ := (componentsRun_eq_ok _ _).mp h
    exact .refl _
  | fdct =>
    obtain ⟨X, Y, W, H, px, hcomp, -, -, rfl⟩ := (fdctRun_eq_ok _ _).mp h
    obtain ⟨⟨rfl, rfl⟩, ⟨hX, hX9⟩, hY, hY9⟩ := (chkComp_eq_ok _ _ _).mp hcomp
    dsimp only
    exact writesExactly_gridStore s.mem (fdctGrid_length hX hY px W H) (grid_size_le hX9 hY9)
  | qenc =>
    obtain ⟨X, Y, g, out, hcomp, hg, hq, rfl⟩ := (qencRun_eq_ok _ _).mp h
    obtain ⟨⟨rfl, rfl⟩, ⟨hX, hX9⟩, hY, hY9⟩ := (chkComp_eq_ok _ _ _).mp hcomp
    obtain ⟨hac, -⟩ := (gridOperand_eq_ok _ _ _).mp hg
    have hpos := Nat.mul_pos hX hY
    have hle := grid_size_le hX9 hY9
    simp only [storeHash_mem]
    exact writesExactly_hashStore s.mem (qencf_bytes_length hq (by omega)) (by omega)
  | qdec =>
    obtain ⟨out, hq, rfl⟩ := (qdecRun_eq_ok _ _).mp h
    obtain ⟨hlegal, hlen, hle⟩ := qdecf_sizes hq
    have hfoot : footprint .qdec s = [entriesRange (hashEntries s)] := by simp [footprint, hlegal]
    simp only [hfoot, storeDecoded_mem]
    exact writesExactly_gridStore s.mem hlen hle
  | idct =>
    obtain ⟨X, Y, W, H, g, -, hdim, -, rfl⟩ := (idctRun_eq_ok _ _).mp h
    obtain ⟨⟨rfl, rfl⟩, -, -, hcap⟩ := (chkDim_eq_ok _ _ _).mp hdim
    dsimp only
    exact writesExactly_pixStore s.mem (idctPixels_length _ _ _ _) hcap
  | b83Enc off len =>
    obtain ⟨hle, -, rfl⟩ := (b83EncRun_eq_ok _ _ _ _).mp h
    dsimp only
    exact writesExactly_hashStore s.mem (b83Digits_length _ _) hle
  | b83Dec off len =>
    obtain ⟨_, _, _, rfl⟩ := (b83DecRun_eq_ok _ _ _ _).mp h
    exact .refl _
  | gammaDec imm =>
    cases h
    exact .refl _
  | gammaEnc =>
    obtain ⟨_, rfl⟩ := (gammaEncRun_eq_ok _ _).mp h
    exact .refl _
  | quantMax =>
    obtain ⟨_, rfl⟩ := (quantMaxRun_eq_ok _ _).mp h
    exact .refl _
  | quantAc =>
    obtain ⟨_, _, _, rfl⟩ := (quantAcRun_eq_ok _ _).mp h
    exact .refl _
  | dequantAc imm =>
    obtain ⟨_, rfl⟩ := (dequantAcRun_eq_ok _ _ _).mp h
    exact .refl _

/-- What a command writes depends on no field that acceptance changes. -/
@[simp] theorem footprint_acceptCommand (i : Instr) (w : Word) (s : State) : footprint i (acceptCommand w s) = footprint i s := by
  cases i <;> rfl

/-! ### The outcome of an accepted command -/

section accepted

variable {i : Instr} {w : Word} {s t : State} (h : exec i (acceptCommand w s) = .next t)
include h

/-- An accepted command that completes sets exactly one of DONE and ERR (10_state.md R42, R43). -/
theorem done_eq_not_err_of_exec : t.done = !t.err := by
  rcases (exec_eq_next _ _ _).mp h with ⟨u, hu, rfl⟩ | ⟨e, info, -, rfl⟩
  · simp [runOf_err hu]
  · simp

/-- An accepted command that sets DONE succeeded. -/
theorem exists_runOf_of_done (hd : t.done = true) : ∃ u, runOf i (acceptCommand w s) = .ok u ∧ t = flagsDone u := by
  rcases (exec_eq_next _ _ _).mp h with hu | ⟨e, info, -, rfl⟩
  · exact hu
  · simp at hd

end accepted

/-- A command that completes is no longer running (10_state.md R41). -/
theorem busy_of_exec {i : Instr} {s t : State} (h : exec i s = .next t) : busy t = false := by
  rcases (exec_eq_next _ _ _).mp h with ⟨u, -, rfl⟩ | ⟨e, info, -, rfl⟩ <;> rfl

/-- The interrupt line after a completion, with or without error, is IRQ_EN (10_state.md R56). -/
theorem irq_of_exec {i : Instr} {s t : State} (h : exec i s = .next t) : irq t = s.irqEn := by
  rcases (exec_eq_next _ _ _).mp h with ⟨u, hu, rfl⟩ | ⟨e, info, -, rfl⟩
  · rw [flagsDone_irq, runOf_irqEn hu]
  · exact raiseError_irq _ _ _

end Sys2Proof.Machine
end

section
/-! SUPPORT. The invariant of the block is kept by everything an input can do. -/

namespace Sys2Proof.Machine

/-! ### The windows -/

theorem window_not_register {a : Nat} (h : inWindow a = true) : 0x100 ≤ a := by
  rcases (inWindow_iff a).mp h with h | h | h <;> omega

theorem accessOk_cases {a n : Nat} (h : accessOk a n = true) : n = 1 ∨ (n = 2 ∧ a % 2 = 0) ∨ (n = 4 ∧ a % 4 = 0) := by
  unfold accessOk at h
  split at h <;> simp at h <;> omega

/-- An access that starts in a window stays in it, being aligned (20_memory.md R74). -/
theorem inWindow_of_access {a n : Nat} (hok : accessOk a n = true) (hw : inWindow a = true) {b : Nat} (h1 : a ≤ b)
    (h2 : b < a + n) : inWindow b = true := by
  have halign := accessOk_cases hok
  rcases (inWindow_iff a).mp hw with ⟨hlo, hhi⟩ | ⟨hlo, hhi⟩ | ⟨hlo, hhi⟩
  · exact inWindow_of_hash (by omega) (by omega)
  · exact inWindow_of_comp (by omega) (by omega)
  · exact inWindow_of_pix (by omega) (by omega)

theorem writesExactly_hostWrite (m : Memory) {a n : Nat} (v : Word) (hok : accessOk a n = true) (hw : inWindow a = true) :
    WritesExactly m (memWriteBytes m a (leBytes n v.toNat)) [(a, n)] :=
  writesExactly_memWriteBytes m (leBytes_length _ _) fun _ h1 h2 => inWindow_of_access hok hw h1 h2

theorem WritesExactly.memInWindows {m m' : Memory} {rs : List (Nat × Nat)} (h : WritesExactly m m' rs)
    (hm : ∀ a, memRead m a ≠ none → inWindow a = true) (a : Nat) (ha : memRead m' a ≠ none) : inWindow a = true := by
  cases hr : inRanges rs a
  · exact hm a (h.kept a hr ▸ ha)
  · exact (h.written a hr).2

theorem memRead_softResetMem_ne_none {s : State} {a : Nat} (h : memRead (softResetMem s) a ≠ none) :
    memRead s.mem a ≠ none := by
  unfold softResetMem at h
  split at h
  · exact h
  · rw [memRead_memForget] at h
    split at h
    · exact absurd rfl h
    · exact h

/-! ### Error codes -/

theorem errcodeLegal_zero : errcodeLegal 0 = true := by decide

theorem errCodeBits_ne_zero (e : ErrCode) : errCodeBits e ≠ 0 := by
  cases e <;> decide

theorem errcodeLegal_errCodeBits {e : ErrCode} (h : e ≠ .encodingInvariant) : errcodeLegal (errCodeBits e) = true := by
  cases e with
  | encodingInvariant => exact absurd rfl h
  | _ => decide

/-- ENCODING_INVARIANT is raised by no command (60_exceptions.md R200). -/
theorem encodingInvariant_not_mem_errorsOf (i : Instr) : .encodingInvariant ∉ errorsOf i := by
  cases i <;> simp [errorsOf]

/-! ### The invariant, part by part of the state -/

namespace State.Inv

variable {s : State} (h : s.Inv)
include h

/-- The invariant does not speak of the configuration and operand registers, WDROP, and the ports. -/
theorem of_frame {t : State}
    (ht : t = { s with
      irqEn := t.irqEn, wdrop := t.wdrop, xc := t.xc, yc := t.yc, width := t.width, height := t.height, punch := t.punch,
      hashlen := t.hashlen, opa := t.opa, opb := t.opb, pending := t.pending, resp := t.resp, freeCtr := t.freeCtr }) :
    t.Inv := by
  rw [ht]
  exact ⟨h.memWf, h.memInWindows, h.notDoneAndErr, h.busyClear, h.doneClear, h.errHasCode, h.codeLegal, h.maxqRange,
    h.resetIdle⟩

theorem of_writesExactly {m : Memory} {rs : List (Nat × Nat)} (hm : WritesExactly s.mem m rs) : { s with mem := m }.Inv where
  memWf := hm.wf h.memWf
  memInWindows := hm.memInWindows h.memInWindows
  notDoneAndErr := h.notDoneAndErr
  busyClear := h.busyClear
  doneClear := h.doneClear
  errHasCode := h.errHasCode
  codeLegal := h.codeLegal
  maxqRange := h.maxqRange
  resetIdle := h.resetIdle

/-! ### Host writes -/

theorem acceptCommand (w : Word) (hreset : s.inReset = false) : (acceptCommand w s).Inv where
  memWf := h.memWf
  memInWindows := h.memInWindows
  notDoneAndErr := by simp
  busyClear _ := ⟨rfl, rfl, rfl, rfl⟩
  doneClear := by simp
  errHasCode := by simp
  codeLegal := errcodeLegal_zero
  maxqRange := h.maxqRange
  resetIdle hr := by simp [hreset] at hr

/-- Clearing a flag falsifies only what is said of a set flag (45_system.md R192). -/
theorem acknowledge (v : Word) : (acknowledge v s).Inv where
  memWf := h.memWf
  memInWindows := h.memInWindows
  notDoneAndErr hde := by
    simp only [acknowledge_done, acknowledge_err, Bool.and_eq_true] at hde
    exact h.notDoneAndErr ⟨hde.1.1, hde.2.1⟩
  busyClear hb := by
    obtain ⟨hdone, herr, hcode, hinfo⟩ := h.busyClear hb
    exact ⟨by simp [hdone], by simp [herr], hcode, hinfo⟩
  doneClear hd := by
    simp only [acknowledge_done, Bool.and_eq_true] at hd
    exact h.doneClear hd.1
  errHasCode he := by
    simp only [acknowledge_err, Bool.and_eq_true] at he
    exact h.errHasCode he.1
  codeLegal := h.codeLegal
  maxqRange := h.maxqRange
  resetIdle := h.resetIdle

theorem softReset : (softReset s).Inv where
  memWf := by
    rw [softReset_mem]
    exact softResetMem_wf h.memWf
  memInWindows a ha := by
    rw [softReset_mem] at ha
    exact h.memInWindows a (memRead_softResetMem_ne_none ha)
  notDoneAndErr := by simp
  busyClear := by simp
  doneClear := by simp
  errHasCode := by simp
  codeLegal := errcodeLegal_zero
  maxqRange := by simp
  resetIdle _ := softReset_busy s

theorem regWrite (r : Reg) (v : Word) (hreset : s.inReset = false) : (regWrite r v s).Inv := by
  cases r with
  | ctrl =>
    rw [show Machine.regWrite .ctrl v s = ctrlWrite v s from rfl, ctrlWrite]
    split
    · exact h.softReset
    · exact h.of_frame rfl
  | status => exact h.acknowledge v
  | cmd => exact h.acceptCommand v hreset
  | id | pixcap | errinfo | maxq | maxvalLo | maxvalHi | resLo | resHi => exact h
  | comp | width | height | punch | hashlen | opaLo | opaHi | opbLo | opbHi => exact h.of_frame rfl

theorem hostWrite (a n : Nat) (v : Word) (hreset : s.inReset = false) : (hostWrite a n v s).1.Inv := by
  rcases hostWrite_cases a n v s with ⟨-, hwrite⟩ | ⟨-, -, -, hwrite⟩ | ⟨hok, -, hwrite⟩
  · rw [hwrite]
    exact h
  · rw [hwrite]
    exact h.of_frame rfl
  · rw [hwrite]
    rcases storeAccepted_cases a n v s with ⟨r, -, -, hstore⟩ | ⟨-, hw, hstore⟩ | ⟨-, -, hstore⟩
    · rw [hstore]
      exact h.regWrite r v hreset
    · rw [hstore]
      exact h.of_writesExactly (writesExactly_hostWrite s.mem v hok hw)
    · rw [hstore]
      exact h

/-! ### Inputs -/

theorem hostTurn {x : HostTxn} {t : State} (ht : hostTurn x s = .next t) : t.Inv := by
  cases hreset : s.inReset with
  | true => simp [Machine.hostTurn, hreset] at ht
  | false =>
    cases x with
    | read off n =>
      simp only [Machine.hostTurn, hreset, Bool.false_eq_true, if_false, Host.Outcome.next.injEq] at ht
      rw [← ht, hostRead_state]
      exact h.of_frame rfl
    | write off n v =>
      simp only [Machine.hostTurn, hreset, Bool.false_eq_true, if_false, Host.Outcome.next.injEq] at ht
      rw [← ht]
      exact (h.hostWrite off.toNat n v hreset).of_frame rfl

theorem raiseError {e : ErrCode} (he : e ≠ .encodingInvariant) (info : Word) (hbusy : busy s = true) :
    (raiseError e info s).Inv where
  memWf := h.memWf
  memInWindows := h.memInWindows
  notDoneAndErr := by simp [(h.busyClear hbusy).1]
  busyClear := by simp
  doneClear := by simp [(h.busyClear hbusy).1]
  errHasCode _ := errCodeBits_ne_zero e
  codeLegal := errcodeLegal_errCodeBits he
  maxqRange := h.maxqRange
  resetIdle _ := raiseError_busy s e info

theorem flagsDone_of_runOf {i : Instr} {u : State} (hrun : runOf i s = .ok u) (hbusy : busy s = true) : (flagsDone u).Inv := by
  obtain ⟨-, herr, hcode, hinfo⟩ := h.busyClear hbusy
  have hwrites := runOf_writesExactly hrun
  exact
    { memWf := hwrites.wf h.memWf
      memInWindows := hwrites.memInWindows h.memInWindows
      notDoneAndErr := by simp [runOf_err hrun, herr]
      busyClear := by simp
      doneClear := fun _ => ⟨by simp [runOf_errcode hrun, hcode], by simp [runOf_errinfo hrun, hinfo]⟩
      errHasCode := by simp [runOf_err hrun, herr]
      codeLegal := by simpa [runOf_errcode hrun] using h.codeLegal
      maxqRange := by
        rw [flagsDone_maxq]
        rcases runOf_maxq hrun with hq | hq
        · rw [hq]
          exact h.maxqRange
        · exact hq
      resetIdle := fun _ => flagsDone_busy u }

theorem exec {i : Instr} {t : State} (ht : exec i s = .next t) (hbusy : busy s = true) : t.Inv := by
  rcases (exec_eq_next _ _ _).mp ht with ⟨u, hrun, rfl⟩ | ⟨e, info, hrun, rfl⟩
  · exact h.flagsDone_of_runOf hrun hbusy
  · have he : e ∈ errorsOf i := runOf_raisesOnly s i e info hrun
    exact h.raiseError (fun heq => encodingInvariant_not_mem_errorsOf i (heq ▸ he)) info hbusy

theorem engineTurn {t : State} (ht : engineTurn s = .next t) : t.Inv := by
  rcases engineTurn_cases s with ⟨hturn, -⟩ | ⟨w, i, -, hrun, -, hturn⟩ | ⟨w, e, -, hrun, -, hturn⟩
  · rw [hturn] at ht
    cases ht
    exact h
  · rw [hturn] at ht
    exact h.exec ht (busy_of_running s w hrun)
  · rw [hturn] at ht
    cases ht
    exact h.raiseError (by decide) w (busy_of_running s w hrun)

omit h in
/-- While `rst_n` is asserted the block is as after power-on (70_reset_and_hazards.md R230). -/
theorem powerOnReset (b : Bool) (s : State) : { powerOnReset s with inReset := b }.Inv where
  memWf := rfl
  memInWindows := by simp
  notDoneAndErr := by simp
  busyClear := by simp [busy]
  doneClear := by simp
  errHasCode := by simp
  codeLegal := errcodeLegal_zero
  maxqRange := by simp
  resetIdle _ := rfl

theorem rstRelease : { s with inReset := false }.Inv where
  memWf := h.memWf
  memInWindows := h.memInWindows
  notDoneAndErr := h.notDoneAndErr
  busyClear := h.busyClear
  doneClear := h.doneClear
  errHasCode := h.errHasCode
  codeLegal := h.codeLegal
  maxqRange := h.maxqRange
  resetIdle := nofun

theorem takeEvent {e : Event} {t : State} (ht : takeEvent e s = .next t) : t.Inv := by
  cases e with
  | host x => exact h.hostTurn ht
  | complete => exact h.engineTurn ht
  | rstAssert =>
    cases ht
    exact powerOnReset true s
  | rstRelease =>
    cases ht
    exact h.rstRelease

/-- A step takes an input, and taking one off the list changes nothing the invariant speaks of. -/
theorem step {t : State} (ht : step s = .next t) : t.Inv := by
  cases hp : s.pending with
  | nil =>
    rw [step_of_no_pending s hp] at ht
    exact h.engineTurn ht
  | cons e es =>
    rw [step_of_pending s e es hp] at ht
    have hrest : { s with pending := es }.Inv := h.of_frame rfl
    exact hrest.takeEvent ht

end State.Inv

end Sys2Proof.Machine
end

section
/-! SUPPORT. The registers on the host port: a 32-bit access at the offset of a register (10_state.md R23), and the words they read
as, field by field. -/

namespace Sys2Proof.Machine

/-! ### Accesses at register offsets -/

theorem regOffset_port (r : Reg) : (BitVec.ofNat 19 (regOffset r)).toNat = regOffset r := by
  cases r <;> rfl

theorem hostWrite_register {s : State} (r : Reg) (v : Word) (hb : busy s = false) :
    hostWrite (regOffset r) 4 v s = (regWrite r v s, .okay 0) := by
  rw [hostWrite_performed v (accessOk_regOffset r) (.inl hb), storeAccepted_register]

/-- A write of CTRL, which is accepted whether or not a command runs (70_reset_and_hazards.md R241). -/
theorem hostWrite_ctrl (v : Word) (s : State) : hostWrite (regOffset .ctrl) 4 v s = (ctrlWrite v s, .okay 0) := by
  rw [hostWrite_performed v (accessOk_regOffset .ctrl) (.inr rfl), storeAccepted_register]
  rfl

theorem hostTurn_read {s : State} (hreset : s.inReset = false) (off : BitVec 19) (n : Nat) :
    hostTurn (.read off n) s =
      .next { (hostRead off.toNat n s).1 with resp := some (hostRead off.toNat n s).2 } := by
  simp [hostTurn, hreset]

theorem hostTurn_write {s : State} (hreset : s.inReset = false) (off : BitVec 19) (n : Nat) (v : Word) :
    hostTurn (.write off n v) s =
      .next { (hostWrite off.toNat n v s).1 with resp := some (hostWrite off.toNat n v s).2 } := by
  simp [hostTurn, hreset]

theorem hostTurn_read_register {s : State} (hreset : s.inReset = false) (r : Reg) :
    hostTurn (.read (BitVec.ofNat 19 (regOffset r)) 4) s = .next { s with resp := some (.okay (regRead s r)) } := by
  rw [hostTurn_read hreset, regOffset_port, hostRead_register]

/-- A register whose word has a value reads as that value. -/
theorem hostTurn_read_register_as {s : State} (hreset : s.inReset = false) (r : Reg) {v : Nat} (hv : (regRead s r).toNat = v) :
    v < 2 ^ 32 ∧
      hostTurn (.read (BitVec.ofNat 19 (regOffset r)) 4) s = .next { s with resp := some (.okay (BitVec.ofNat 32 v)) } := by
  subst hv
  refine ⟨(regRead s r).isLt, ?_⟩
  rw [hostTurn_read_register hreset, BitVec.ofNat_toNat, BitVec.setWidth_eq]

/-- The two reserved offsets below COMP read 0 (10_state.md R40). -/
theorem hostTurn_read_reserved {s : State} (hreset : s.inReset = false) {off : BitVec 19} (h : off = 0x018 ∨ off = 0x01C) :
    0 < 2 ^ 32 ∧ hostTurn (.read off 4) s = .next { s with resp := some (.okay (BitVec.ofNat 32 0)) } := by
  refine ⟨by decide, ?_⟩
  rcases h with rfl | rfl <;> exact hostTurn_read hreset _ 4

/-! ### Soft reset -/

/-- After a soft reset every register reads as after power-on reset (10_state.md R60). -/
theorem regRead_softReset (s : State) (r : Reg) : regRead (softReset s) r = regRead State.reset r := by
  cases r <;> rfl

theorem softResetMem_idle {s : State} (h : s.engine = .idle) : softResetMem s = s.mem := by
  simp [softResetMem, h]

theorem softResetMem_running {s : State} {w : Word} (h : s.engine = .running w) :
    softResetMem s = memForget s.mem (wouldWrite w s) := by
  simp [softResetMem, h]

/-- A command that would complete would have written its row of R57 where it would have succeeded, and else nothing. -/
theorem wouldWrite_of_next {s t : State} {w : Word} {i : Instr} (hdecode : Sys2Proof.decode w = .ok i)
    (hexec : exec i (acceptCommand w s) = .next t) : wouldWrite w s = if t.done then footprint i s else [] := by
  simp only [wouldWrite, hdecode, hexec, done_eq_not_err_of_exec hexec]
  cases t.err <;> rfl

theorem wouldWrite_of_fault {s : State} {w : Word} {i : Instr} {f : Fault} (hdecode : Sys2Proof.decode w = .ok i)
    (hexec : exec i (acceptCommand w s) = .fault f) : wouldWrite w s = footprint i s := by
  simp only [wouldWrite, hdecode, hexec]

theorem wouldWrite_of_illegal (s : State) {w : Word} {e : DecodeError} (hdecode : Sys2Proof.decode w = .error e) :
    wouldWrite w s = [] := by
  simp only [wouldWrite, hdecode]

@[simp] theorem memForget_nil (m : Memory) : memForget m [] = m := by
  simp [memForget, inRanges]

/-! ### Fields of a word -/

theorem toNat_append_eq_add {m n : Nat} (x : BitVec m) (y : BitVec n) : (x ++ y).toNat = x.toNat * 2 ^ n + y.toNat := by
  rw [BitVec.toNat_append, ← Nat.shiftLeft_add_eq_or_of_lt y.isLt, Nat.shiftLeft_eq]

/-- A field at bit 0 under reserved bits reads as the number it holds. -/
theorem toNat_reserved_append {m n : Nat} (y : BitVec n) : ((0 : BitVec m) ++ y).toNat = y.toNat := by
  simp

theorem toNat_lo32 (x : BitVec 64) : (lo32 x).toNat = x.toNat % 2 ^ 32 := by simp [lo32]

theorem toNat_hi32 (x : BitVec 64) : (hi32 x).toNat = x.toNat / 2 ^ 32 := by
  have := x.isLt
  simp only [hi32, BitVec.extractLsb'_toNat, Nat.shiftRight_eq_div_pow]
  omega

theorem toNat_statusWord (s : State) :
    (statusWord s).toNat =
      (busy s).toNat + 2 * s.done.toNat + 4 * s.err.toNat + 8 * s.wdrop.toNat + 256 * s.errcode.toNat := by
  simp only [statusWord, toNat_append_eq_add, BitVec.toNat_ofBool, BitVec.ofNat_eq_ofNat, BitVec.toNat_zero]
  omega

theorem toNat_regRead_pixcap (s : State) : (regRead s .pixcap).toNat = Config.pixCap := by
  have := pixCap_bounds
  simp only [regRead, BitVec.toNat_ofNat]
  omega

theorem toNat_regRead_comp (s : State) : (regRead s .comp).toNat = s.xc.toNat + 16 * s.yc.toNat := by
  simp only [regRead, toNat_append_eq_add, BitVec.ofNat_eq_ofNat, BitVec.toNat_zero]
  omega

/-- The low bits of a written word under reserved bits: the word with every other bit cleared. -/
theorem reserved_append_extractLsb' {m n : Nat} (v : BitVec (m + n)) :
    (0 : BitVec m) ++ v.extractLsb' 0 n = v &&& BitVec.ofNat (m + n) (2 ^ n - 1) := by
  apply BitVec.eq_of_toNat_eq
  have hlt : 2 ^ n - 1 < 2 ^ (m + n) :=
    Nat.lt_of_lt_of_le (Nat.sub_lt (Nat.two_pow_pos n) Nat.one_pos) (Nat.pow_le_pow_right (by decide) (Nat.le_add_left n m))
  rw [toNat_reserved_append, BitVec.extractLsb'_toNat, BitVec.toNat_and, BitVec.toNat_ofNat, Nat.mod_eq_of_lt hlt,
    Nat.and_two_pow_sub_one_eq_mod, Nat.shiftRight_zero]

/-- The two counts of COMP lie side by side (10_state.md R30). -/
theorem regRead_regWrite_comp (v : Word) (s : State) : regRead (regWrite .comp v s) .comp = v &&& 0xFF := by
  refine Eq.trans ?_ (reserved_append_extractLsb' (m := 24) (n := 8) v)
  apply BitVec.eq_of_toNat_eq
  simp only [toNat_regRead_comp, regWrite, toNat_append_eq_add, BitVec.extractLsb'_toNat, Nat.shiftRight_eq_div_pow,
    BitVec.ofNat_eq_ofNat, BitVec.toNat_zero]
  omega

theorem reserved_append_bit (v : Word) : (0 : BitVec 31) ++ BitVec.ofBool (v.getLsbD 0) = v &&& 1 := by
  have hbit : BitVec.ofBool (v.getLsbD 0) = v.extractLsb' 0 1 := by
    apply BitVec.eq_of_getLsbD_eq
    intro k hk
    obtain rfl : k = 0 := by omega
    simp
  rw [hbit]
  exact reserved_append_extractLsb' (m := 31) (n := 1) v

@[simp] theorem lo32_setLo (x : BitVec 64) (v : Word) : lo32 (setLo x v) = v :=
  BitVec.extractLsb'_append_eq_right

@[simp] theorem hi32_setHi (x : BitVec 64) (v : Word) : hi32 (setHi x v) = v :=
  BitVec.extractLsb'_append_eq_left

end Sys2Proof.Machine
end

section
/-! SUPPORT. The bytes of words and channels on the host port and in the engine's reads (20_memory.md R73). -/

namespace Sys2Proof.Machine

/-! ### The bytes of a number -/

theorem leBytes_getElem (n v i : Nat) (h : i < (leBytes n v).length) : (leBytes n v)[i] = BitVec.ofNat 8 (v / 256 ^ i) := by
  induction n generalizing v i with
  | zero => simp [leBytes] at h
  | succ n ih =>
    cases i with
    | zero => simp [leBytes]
    | succ i =>
      simp only [leBytes, List.getElem_cons_succ]
      rw [ih (v / 256) i (by simpa using h), Nat.div_div_eq_div_mul, Nat.pow_succ']

/-- Byte `i` of a word, as its bits and as a digit. -/
theorem extractLsb'_byte {w : Nat} (x : BitVec w) (i : Nat) : x.extractLsb' (8 * i) 8 = BitVec.ofNat 8 (x.toNat / 256 ^ i) := by
  apply BitVec.eq_of_toNat_eq
  rw [BitVec.extractLsb'_toNat, BitVec.toNat_ofNat, Nat.shiftRight_eq_div_pow, Nat.pow_mul]

/-- The memory holds the bytes of a word exactly if each byte of it stands in its place. -/
theorem holdsBytes_leBytes (m : Memory) (a n : Nat) {w : Nat} (x : BitVec w) :
    HoldsBytes m a (leBytes n x.toNat) ↔ ∀ i, i < n → memRead m (a + i) = some (x.extractLsb' (8 * i) 8) := by
  constructor
  · intro h i hi
    rw [h i (by simpa using hi), leBytes_getElem, extractLsb'_byte]
  · intro h i hi
    rw [h i (by simpa using hi), leBytes_getElem, extractLsb'_byte]

/-- The word with given bytes: each byte in its place, and 0 above them. -/
theorem ofLeBytes_word {bs : List Byte} (h : bs.length ≤ 4) :
    (∀ i (hi : i < bs.length), (BitVec.ofNat 32 (ofLeBytes bs)).extractLsb' (8 * i) 8 = bs[i]) ∧
      ∀ k, 8 * bs.length ≤ k → (BitVec.ofNat 32 (ofLeBytes bs)).getLsbD k = false := by
  have hlt := ofLeBytes_lt bs
  rw [show 256 = 2 ^ 8 by decide, ← Nat.pow_mul] at hlt
  have hword : (BitVec.ofNat 32 (ofLeBytes bs)).toNat = ofLeBytes bs := by
    rw [BitVec.toNat_ofNat]
    exact Nat.mod_eq_of_lt (Nat.lt_of_lt_of_le hlt (Nat.pow_le_pow_right (by decide) (by omega)))
  refine ⟨fun i hi => ?_, fun k hk => ?_⟩
  · have hbyte := leBytes_getElem bs.length (ofLeBytes bs) i (by simpa using hi)
    rw [extractLsb'_byte, hword, ← hbyte]
    simp only [leBytes_ofLeBytes]
  · rw [← BitVec.testBit_toNat, hword]
    exact Nat.testBit_lt_two_pow (Nat.lt_of_lt_of_le hlt (Nat.pow_le_pow_right (by decide) hk))

/-! ### The engine's reads -/

theorem initialised_eq_uninitRead {α : Type} (v : Option α) : initialised v = .error .uninitRead ↔ v = none := by
  cases v <;> simp [initialised]

theorem compRead_eq_uninitRead (s : State) (k c : Nat) :
    compRead s k c = .error .uninitRead ↔ ∃ i, i < 8 ∧ memRead s.mem (compAddr k c + i) = none := by
  unfold compRead
  simp only [except_bind_eq_error, initialised_eq_uninitRead, memReadBytes_eq_none, reduceCtorEq, and_false, exists_false,
    or_false]

theorem pixRead_eq_uninitRead (s : State) (k : Nat) :
    pixRead s k = .error .uninitRead ↔ ∃ i, i < 4 ∧ memRead s.mem (pixAddr k + i) = none := by
  unfold pixRead
  simp only [except_bind_eq_error, initialised_eq_uninitRead, memReadBytes_eq_none, reduceCtorEq, and_false, exists_false,
    or_false]

/-! ### The host's window accesses -/

/-- What the host reads of a window: the word of the bytes there. -/
theorem hostRead_window {a n : Nat} (s : State) (hok : accessOk a n = true) (hw : inWindow a = true) :
    (hostRead a n s).2 = .okay (BitVec.ofNat 32 (ofLeBytes ((List.range n).map (windowByte s a)))) := by
  have ha := window_not_register hw
  simp [hostRead, hok, hw, Nat.not_lt.mpr ha]

theorem windowByte_of_memRead {s : State} {a i : Nat} {b : Byte} (hidle : busy s = false) (h : memRead s.mem (a + i) = some b) :
    windowByte s a i = b := by
  simp [windowByte, hidle, h]

/-- Where an idle block holds the bytes that are read, the host reads them. -/
theorem windowBytes_of_holdsBytes {s : State} {a : Nat} {bs : List Byte} (hidle : busy s = false) (h : HoldsBytes s.mem a bs) :
    (List.range bs.length).map (windowByte s a) = bs := by
  refine List.ext_getElem (by simp) fun i _ hi => ?_
  rw [List.getElem_map, List.getElem_range, windowByte_of_memRead hidle (h i hi)]

/-- An idle write of a window stores the low bytes of its data. -/
theorem hostWrite_window {a n : Nat} {s : State} (v : Word) (hidle : busy s = false) (hok : accessOk a n = true)
    (hw : inWindow a = true) :
    hostWrite a n v s = ({ s with mem := memWriteBytes s.mem a (leBytes n v.toNat) }, .okay 0) := by
  have ha := window_not_register hw
  rw [hostWrite_performed v hok (.inl hidle)]
  simp [storeAccepted, hw, Nat.not_lt.mpr ha]

theorem access_le_four {a n : Nat} (hok : accessOk a n = true) : n ≤ 4 := by
  have := accessOk_cases hok
  omega

end Sys2Proof.Machine
end

section
/-! SUPPORT. The sums of the transforms as nested loops (43_transform.md R162, R163). -/

namespace Sys2Proof.Machine

/-! ### Folds -/

/-- A fold over an indexed list is a loop over its indices. -/
theorem foldl_zipIdx_eq_foldl_range {α σ : Type} (l : List α) (d : α) (f : σ → α × Nat → σ) (t : σ) :
    l.zipIdx.foldl f t = (List.range l.length).foldl (fun t k => f t (l.getD k d, k)) t := by
  have hl : l.zipIdx = (List.range l.length).map fun k => (l.getD k d, k) := by
    refine List.ext_getElem (by simp) fun k h1 h2 => ?_
    have hk : k < l.length := by simpa using h2
    simp [List.getElem?_eq_getElem hk]
  rw [hl, List.foldl_map]

/-- A loop over `h * w` indices is a loop over `h` rows of `w` indices each. -/
theorem foldl_range_mul {σ : Type} (f : σ → Nat → σ) (h w : Nat) (t : σ) :
    (List.range (h * w)).foldl f t = (List.range h).foldl (fun t y => (List.range w).foldl (fun t x => f t (y * w + x)) t) t := by
  induction h with
  | zero => simp
  | succ h ih =>
    rw [Nat.succ_mul, List.range_add, List.foldl_append, ih, List.foldl_map, List.range_succ, List.foldl_append]
    rfl

/-- A fold over the indexed entries of a grid of `w` columns and `h` rows is the two nested loops over its rows and columns. -/
theorem foldl_zipIdx_grid {α σ : Type} (l : List α) (d : α) {w h : Nat} (hl : l.length = w * h)
    (f : σ → α → Nat → Nat → σ) (t : σ) :
    l.zipIdx.foldl (fun t p => f t p.1 (p.2 % w) (p.2 / w)) t =
      (List.range h).foldl (fun t y => (List.range w).foldl (fun t x => f t (l.getD (y * w + x) d) x y) t) t := by
  rw [foldl_zipIdx_eq_foldl_range l d, hl, Nat.mul_comm, foldl_range_mul]
  refine List.foldl_ext _ _ _ fun t y _ => List.foldl_ext _ _ _ fun t x hx => ?_
  have hx : x < w := List.mem_range.mp hx
  have hmod : (y * w + x) % w = x := Nat.mul_add_mod_of_lt hx
  have hdiv : (y * w + x) / w = y := by
    rw [Nat.mul_comm, Nat.mul_add_div (by omega), Nat.div_eq_of_lt hx, Nat.add_zero]
  rw [hmod, hdiv]

/-! ### Pixel words -/

/-- The word of four bytes, the last one lowest, has each byte at its bits. -/
theorem extractLsb'_of_bytes (a b g r : Byte) :
    (a ++ b ++ g ++ r).extractLsb' 0 8 = r ∧ (a ++ b ++ g ++ r).extractLsb' 8 8 = g ∧
      (a ++ b ++ g ++ r).extractLsb' 16 8 = b ∧ (a ++ b ++ g ++ r).extractLsb' 24 8 = a := by
  have hword : (a ++ b ++ g ++ r).toNat = ((a.toNat * 2 ^ 8 + b.toNat) * 2 ^ 8 + g.toNat) * 2 ^ 8 + r.toNat := by
    simp only [toNat_append_eq_add]
  simp only [← BitVec.toNat_inj, BitVec.extractLsb'_toNat, hword, Nat.shiftRight_eq_div_pow]
  omega

theorem pixWord_samples (t : Triple) :
    (pixWord t).extractLsb' 0 8 = BitVec.ofNat 8 (genc t.r) ∧ (pixWord t).extractLsb' 8 8 = BitVec.ofNat 8 (genc t.g) ∧
      (pixWord t).extractLsb' 16 8 = BitVec.ofNat 8 (genc t.b) ∧ (pixWord t).extractLsb' 24 8 = 0xFF :=
  extractLsb'_of_bytes 0xFF _ _ _

/-! ### The grids that are stored, and how they are -/

/-- The component grid as one list: entry `k` is component `(k mod X, k // X)` (43_transform.md R162). -/
theorem fdctGrid_entries {X Y : Nat} (hX : 1 ≤ X) (hY : 1 ≤ Y) (px : List Word) (W H : Nat) :
    (fdctGrid px X Y W H).dc :: (fdctGrid px X Y W H).ac =
      (List.range (X * Y)).map fun k => fdctEntry px (k % X) (k / X) W H := by
  obtain ⟨n, hn⟩ : ∃ n, X * Y = n + 1 := Nat.exists_eq_succ_of_ne_zero (Nat.mul_pos hX hY).ne'
  rw [fdctGrid, hn, List.range_succ_eq_map, List.map_cons, Nat.zero_mod, Nat.zero_div, List.map_map, Nat.add_sub_cancel,
    List.range'_eq_map_range, List.map_map]
  simp only [Function.comp_def, Nat.succ_eq_add_one, Nat.add_comm 1]

/-- The entries of a grid that is put into the windows. -/
theorem holdsEntries_withGrid (s : State) (m : Memory) (g : Grid) :
    HoldsEntries { s with mem := gridStore m g } (g.dc :: g.ac) :=
  holdsEntries_gridStore _ g m (by dsimp only)

/-- The pixel words that are put into the windows. -/
theorem holdsPixels_withPixels (s : State) (m : Memory) (ps : List Word) : HoldsPixels { s with mem := pixStore m ps } ps :=
  holdsPixels_pixStore _ ps m (by dsimp only)

/-- A command whose results are in the windows alone completes and changes nothing else. -/
theorem exec_of_results_in_mem {i : Instr} {s : State} {m : Memory} (h : runOf i s = .ok { s with mem := m }) :
    exec i s = .next (completed { s with mem := m }) :=
  (exec_eq_next _ _ _).mpr (.inl ⟨_, h, rfl⟩)

/-! ### Reads of an image that is not written -/

theorem pixRead_ok_or_uninitRead (s : State) (k : Nat) : (∃ p, pixRead s k = .ok p) ∨ pixRead s k = .error .uninitRead := by
  unfold pixRead
  cases memReadBytes s.mem (pixAddr k) 4 with
  | none => exact .inr rfl
  | some bs => exact .inl ⟨_, rfl⟩

/-- A read of pixel words of which one is never written ends in the fault. -/
theorem pixReads_of_uninitRead {s : State} {k n j : Nat} (hj : j < n) (h : pixRead s (k + j) = .error .uninitRead) :
    pixReads s k n = .error .uninitRead := by
  induction n generalizing k j with
  | zero => omega
  | succ n ih =>
    rcases pixRead_ok_or_uninitRead s k with ⟨p, hp⟩ | hk
    · cases j with
      | zero => simp [hp] at h
      | succ j =>
        have hrest : pixReads s (k + 1) n = .error .uninitRead := ih (j := j) (by omega) (by rwa [Nat.add_right_comm])
        simp [pixReads, hp, hrest]
    · simp [pixReads, hk]

/-- The pixel word a byte of PIXRAM lies in is never written if the byte is (70_reset_and_hazards.md R244). -/
theorem pixRead_of_memRead_none {s : State} {n a : Nat} (h1 : 0x40000 ≤ a) (h2 : a < 0x40000 + 4 * n)
    (h : memRead s.mem a = none) : ∃ j, j < n ∧ pixRead s (0 + j) = .error .uninitRead := by
  refine ⟨(a - 0x40000) / 4, by omega, (pixRead_eq_uninitRead s _).mpr ⟨(a - 0x40000) % 4, by omega, ?_⟩⟩
  have haddr : pixAddr (0 + (a - 0x40000) / 4) + (a - 0x40000) % 4 = a := by
    simp only [pixAddr, pixBase]
    omega
  rw [haddr, h]

end Sys2Proof.Machine
end

section
/-! The statements of 10_state.md. -/

namespace Sys2Proof.BlockState

open Sys2Proof.Machine

/-- Settles O60: the next input is taken, and no input breaks any part of the invariant. -/
theorem everyStepKeepsTheInvariant : Obligations.EveryStepKeepsTheInvariant :=
  fun _ _ hinv hstep => hinv.step hstep

/-- Settles O59: the state after reset is what asserting and releasing `rst_n` makes of it. -/
theorem invariantHoldsAtReset : Obligations.InvariantHoldsAtReset := by
  have hreset : { powerOnReset State.reset with inReset := false }.Inv := State.Inv.powerOnReset false State.reset
  exact hreset

/-- Settles O7: acceptance cleared both flags, and either completion sets one of them. -/
theorem completionSetsExactlyOneFlag : Obligations.CompletionSetsExactlyOneFlag :=
  fun _ _ _ hexec => ⟨busy_of_exec hexec, done_eq_not_err_of_exec hexec⟩

/-- Settles O45: DONE tells the command succeeded, and its results are stored in its row of R57. -/
theorem successWritesExactlyTheFootprint : Obligations.SuccessWritesExactlyTheFootprint := by
  intro i s t hexec hdone a
  obtain ⟨u, hrun, rfl⟩ := exists_runOf_of_done hexec hdone
  have hwrites := runOf_writesExactly hrun
  rw [footprint_acceptCommand] at hwrites
  exact ⟨hwrites.written a, hwrites.kept a⟩

/-- Settles O56: a completion sets DONE or ERR, and acceptance and soft reset clear both. -/
theorem interruptFollowsCompletion : Obligations.InterruptFollowsCompletion :=
  fun s => ⟨by simp [irq], fun w => acceptCommand_irq s w, softReset_irq s, fun _ _ hexec => irq_of_exec hexec, rfl⟩

/-- Settles O5: the write of CMD is the acceptance of its value. -/
theorem commandWriteIsAccepted : Obligations.CommandWriteIsAccepted := by
  intro s w hreset hidle
  rw [hostTurn_write hreset, show (0x010 : BitVec 19).toNat = regOffset .cmd from rfl, hostWrite_register .cmd w hidle]
  rfl

/-- Settles O57: the locations an abandoned command loses are those of R57, unless it would have failed. -/
theorem softResetKeepsTheWindows : Obligations.SoftResetKeepsTheWindows := by
  intro s
  refine ⟨fun v hreset hv => ?_, regRead_softReset s, softReset_busy s, fun hidle => ?_,
    fun w i t hrun hdecode hexec a => ?_, fun w e hrun hdecode => ?_, fun w i f hrun hdecode hexec a => ?_⟩
  · rw [hostTurn_write hreset, show (0x008 : BitVec 19).toNat = regOffset .ctrl from rfl, hostWrite_ctrl, ctrlWrite, if_pos hv]
  · rw [softReset_mem, softResetMem_idle hidle]
  · rw [softReset_mem, softResetMem_running hrun, memRead_memForget, wouldWrite_of_next hdecode hexec]
    cases t.done with
    | false => simp [inRanges]
    | true => simp
  · rw [softReset_mem, softResetMem_running hrun, wouldWrite_of_illegal s hdecode, memForget_nil]
  · rw [softReset_mem, softResetMem_running hrun, memRead_memForget, wouldWrite_of_fault hdecode hexec]

/-- Settles O49, register by register. -/
theorem registerReads : Obligations.RegisterReads := by
  refine ⟨fun s r hreset => hostTurn_read_register hreset r, fun s hreset => ?_⟩
  have reads (r : Reg) {v : Nat} (hv : (regRead s r).toNat = v) := hostTurn_read_register_as hreset r hv
  have hirq : (regRead s .ctrl).toNat = s.irqEn.toNat := (toNat_reserved_append _).trans (BitVec.toNat_ofBool _)
  simp only [List.forall_mem_cons]
  exact ⟨reads .id rfl, reads .pixcap (toNat_regRead_pixcap s), reads .ctrl hirq, reads .status (toNat_statusWord s),
    reads .cmd rfl, reads .errinfo rfl, hostTurn_read_reserved hreset (.inl rfl), hostTurn_read_reserved hreset (.inr rfl),
    reads .comp (toNat_regRead_comp s), reads .width (toNat_reserved_append _), reads .height (toNat_reserved_append _),
    reads .punch rfl, reads .hashlen (toNat_reserved_append _), reads .maxq (toNat_reserved_append _),
    reads .maxvalLo (toNat_lo32 _), reads .maxvalHi (toNat_hi32 _), reads .opaLo (toNat_lo32 _), reads .opaHi (toNat_hi32 _),
    reads .opbLo (toNat_lo32 _), reads .opbHi (toNat_hi32 _), reads .resLo (toNat_lo32 _), reads .resHi (toNat_hi32 _),
    nofun⟩

/-- Settles O50: every offset is that of a register, and an idle write does what the register's own write does. -/
theorem registerWrites : Obligations.RegisterWrites := by
  intro s v hidle
  have writes (r : Reg) : hostWrite (regOffset r) 4 v s = (regWrite r v s, .okay 0) := hostWrite_register r v hidle
  have hctrl (hv : v.getLsbD 1 = false) : regWrite .ctrl v s = { s with irqEn := v.getLsbD 0 } := by
    rw [show regWrite .ctrl v s = ctrlWrite v s from rfl, ctrlWrite, hv, if_neg Bool.false_ne_true]
  refine ⟨fun hv => (writes .ctrl).trans (by rw [hctrl hv]), writes .comp, writes .width, writes .height, writes .punch,
    writes .hashlen, writes .opaLo, writes .opaHi, writes .opbLo, writes .opbHi, ?_, ?_⟩
  · simp only [List.forall_mem_cons]
    exact ⟨writes .id, writes .pixcap, writes .errinfo, writes .maxq, writes .maxvalLo, writes .maxvalHi, writes .resLo,
      writes .resHi, nofun⟩
  · simp only [writes]
    refine ⟨fun hv => ?_, regRead_regWrite_comp v s, reserved_append_extractLsb' (m := 16) (n := 16) v,
      reserved_append_extractLsb' (m := 16) (n := 16) v, rfl, reserved_append_extractLsb' (m := 23) (n := 9) v,
      lo32_setLo _ _, hi32_setHi _ _, lo32_setLo _ _, hi32_setHi _ _, by simp [regWrite]⟩
    rw [hctrl hv]
    exact reserved_append_bit v

/-- Settles O54: an access of a window moves the bytes of its data, and the engine reads the same bytes. -/
theorem windowReadsReturnWhatWasWritten : Obligations.WindowReadsReturnWhatWasWritten := by
  refine ⟨fun s a n v hidle hw hok => ?_, fun s a n hidle hw hok => ?_, fun s k c => ⟨fun x => ?_, compRead_eq_uninitRead s k c⟩,
    fun s k => ⟨fun p => ?_, pixRead_eq_uninitRead s k⟩⟩
  · have hwrite := hostWrite_window v hidle hok hw
    have hbytes := holdsBytes_memWriteBytes s.mem a (leBytes n v.toNat)
    have hsame := sameOutside_memWriteBytes s.mem a (leBytes n v.toNat)
    rw [leBytes_length] at hsame
    dsimp only
    rw [hwrite]
    refine ⟨rfl, rfl, (holdsBytes_leBytes _ a n v).mp hbytes, ?_, hsame⟩
    have hread := windowBytes_of_holdsBytes (s := { s with mem := memWriteBytes s.mem a (leBytes n v.toNat) }) hidle hbytes
    rw [leBytes_length] at hread
    rw [hostRead_window _ hok hw, hread, ofLeBytes_leBytes]
  · obtain ⟨hbyte, habove⟩ := ofLeBytes_word (bs := (List.range n).map (windowByte s a)) (by simpa using access_le_four hok)
    refine ⟨_, hostRead_window s hok hw, fun i b hi hb => ?_, fun k hk => habove k (by simpa using hk)⟩
    rw [hbyte i (by simpa using hi), List.getElem_map, List.getElem_range, windowByte_of_memRead hidle hb]
  · rw [compRead_eq_ok]
    exact holdsBytes_leBytes s.mem (compAddr k c) 8 x
  · rw [pixRead_eq_ok]
    exact holdsBytes_leBytes s.mem (pixAddr k) 4 p

/-- Settles O28: a fold over the words of an image, or over the entries of a grid, is the printed pair of loops. -/
theorem transformSumsFollowTheLoops : Obligations.TransformSumsFollowTheLoops := by
  refine ⟨fun px i j W H hlen => ⟨?_, rfl⟩, fun g X Y x y W H hlen => ?_, pixWord_samples⟩
  · exact foldl_zipIdx_grid px 0 hlen (fun t p x y => fdctAdd (fdctBasis i j x y W H) p t) zeroTriple
  · simp only [Nat.add_comm _ (_ * X)]
    exact foldl_zipIdx_grid (g.dc :: g.ac) ⟨0, 0, 0⟩ hlen (fun t c i j => idctAdd (idctBasis i j x y W H) c t) zeroTriple

/-- Settles O29: the checks pass and the pixel words are read, or one of them faults. -/
theorem fdctStoresTheComponents : Obligations.FdctStoresTheComponents := by
  intro s hX hX9 hY hY9 hW hH hcap
  have hcomp := (chkComp_eq_ok s _ _).mpr ⟨⟨rfl, rfl⟩, ⟨hX, hX9⟩, hY, hY9⟩
  have hdim := (chkDim_eq_ok s _ _).mpr ⟨⟨rfl, rfl⟩, hW, hH, hcap⟩
  refine ⟨fun px hlen hpx => ?_, fun a h1 h2 ha => ?_⟩
  · have hreads : pixReads s 0 (s.width.toNat * s.height.toNat) = .ok px :=
      (pixReads_eq_ok s 0 _ px).mpr ⟨hlen, fun j hj => by rw [Nat.zero_add]; exact hpx j hj⟩
    have hrun := (fdctRun_eq_ok s _).mpr ⟨_, _, _, _, px, hcomp, hdim, hreads, rfl⟩
    have hgrid := fdctGrid_entries hX hY px s.width.toNat s.height.toNat
    have hsize := fdctGrid_length hX hY px s.width.toNat s.height.toNat
    refine ⟨_, exec_of_results_in_mem (i := .fdct) hrun, ?_, ?_⟩
    · rw [← hgrid]
      exact holdsEntries_withGrid s s.mem _
    · rw [← hsize]
      exact sameOutside_gridStore _ _
  · obtain ⟨j, hj, hread⟩ := pixRead_of_memRead_none h1 h2 ha
    refine (exec_eq_fault .fdct s _).mpr ?_
    show fdctRun s = _
    simp [fdctRun, hcomp, hdim, pixReads_of_uninitRead hj hread]

/-- Settles O30: the checks pass, the grid is the operand, and its pixels are stored. -/
theorem idctStoresThePixels : Obligations.IdctStoresThePixels := by
  intro s g hX hX9 hY hY9 hW hH hcap hlen hentries hfinite
  have hcomp := (chkComp_eq_ok s _ _).mpr ⟨⟨rfl, rfl⟩, ⟨hX, hX9⟩, hY, hY9⟩
  have hdim := (chkDim_eq_ok s _ _).mpr ⟨⟨rfl, rfl⟩, hW, hH, hcap⟩
  obtain ⟨hdc, hac⟩ := List.forall_mem_cons.mp hfinite
  have hg := (gridOperand_eq_ok s (s.xc.toNat * s.yc.toNat) g).mpr ⟨by omega, hentries, hdc, hac⟩
  have hrun := (idctRun_eq_ok s _).mpr ⟨_, _, _, _, g, hcomp, hdim, hg, rfl⟩
  have hsame := sameOutside_pixStore s.mem (idctPixels g s.xc.toNat s.width.toNat s.height.toNat)
  rw [idctPixels_length] at hsame
  exact ⟨_, exec_of_results_in_mem (i := .idct) hrun, holdsPixels_withPixels s s.mem _, hsame⟩

end Sys2Proof.BlockState
end

section
/-! SUPPORT. The host accesses that move no data: those the port rejects and those at reserved offsets (20_memory.md R74, R75), and
what the response to a read depends on (R76). -/

namespace Sys2Proof.Machine

/-! ### Accepted and rejected accesses -/

/-- The accesses of the register region that get OKAY (20_memory.md R74). -/
theorem accessOk_below {a : Nat} (n : Nat) (ha : a < 0x100) : accessOk a n = true ↔ n = 4 ∧ a % 4 = 0 := by
  simp [accessOk, ha]

/-- The accesses elsewhere that get OKAY (20_memory.md R74). -/
theorem accessOk_above {a : Nat} (n : Nat) (ha : 0x100 ≤ a) :
    accessOk a n = true ↔ n = 1 ∨ (n = 2 ∧ a % 2 = 0) ∨ (n = 4 ∧ a % 4 = 0) := by
  simp [accessOk, Nat.not_lt.mpr ha, or_assoc]

/-! ### Reserved offsets -/

theorem regOffset_of_regAt {a : Nat} {r : Reg} (h : regAt a = some r) : regOffset r = a := by
  unfold regAt at h
  split at h <;> cases h <;> rfl

/-- No register lies at the reserved offsets of the register region (10_state.md R40). -/
theorem regAt_reserved {a : Nat} (h : a = 0x018 ∨ a = 0x01C ∨ (0x058 ≤ a ∧ a ≤ 0x0FC)) : regAt a = none := by
  refine Option.eq_none_iff_forall_ne_some.mpr fun r hr => ?_
  have ha := regOffset_of_regAt hr
  cases r <;> simp only [regOffset] at ha <;> omega

/-- An offset that is neither a register's nor a window location's (20_memory.md R72). -/
def Reserved (a : Nat) : Prop := (a < 0x100 → regAt a = none) ∧ (0x100 ≤ a → inWindow a = false)

theorem reserved_of_regAt {a : Nat} (h : regAt a = none) (ha : a < 0x100) : Reserved a :=
  ⟨fun _ => h, fun h' => absurd ha (Nat.not_lt.mpr h')⟩

theorem reserved_of_inWindow {a : Nat} (h : inWindow a = false) (ha : 0x100 ≤ a) : Reserved a :=
  ⟨fun h' => absurd h' (Nat.not_lt.mpr ha), fun _ => h⟩

/-- The gaps between the windows and above PIXRAM hold no window location (20_memory.md R72). -/
theorem inWindow_gap {a : Nat}
    (h : (0x200 ≤ a ∧ a ≤ 0x7FF) ∨ (0xF98 ≤ a ∧ a ≤ 0x3FFFF) ∨ 0x40000 + 4 * Config.pixCap ≤ a) : inWindow a = false := by
  refine Bool.eq_false_iff.mpr fun hw => ?_
  have := pixCap_bounds
  rcases (inWindow_iff a).mp hw with hin | hin | hin <;> omega

theorem hostRead_reserved {a n : Nat} (s : State) (hok : accessOk a n = true) (h : Reserved a) :
    hostRead a n s = (s, .okay 0) := by
  unfold hostRead
  by_cases ha : a < 0x100
  · simp [hok, ha, h.1 ha]
  · simp [hok, ha, h.2 (Nat.not_lt.mp ha)]

theorem storeAccepted_reserved {a : Nat} (n : Nat) (v : Word) (s : State) (h : Reserved a) : storeAccepted a n v s = s := by
  unfold storeAccepted
  by_cases ha : a < 0x100
  · simp [ha, h.1 ha]
  · simp [ha, h.2 (Nat.not_lt.mp ha)]

/-- The two offsets writable while a command runs are those of registers (70_reset_and_hazards.md R241). -/
theorem writableBusy_reserved {a : Nat} (h : Reserved a) : writableBusy a = false := by
  refine Bool.eq_false_iff.mpr fun hw => ?_
  have hreg (r : Reg) (ha : a = regOffset r) : False := by
    have hnone := h.1 (ha ▸ regOffset_lt r)
    rw [ha, regAt_regOffset] at hnone
    cases hnone
  simp only [writableBusy, Bool.or_eq_true, decide_eq_true_eq] at hw
  exact hw.elim (hreg _) (hreg _)

/-! ### The response to a read -/

/-- A response carries no more of the state than the words of the registers and the bytes of the windows. -/
theorem hostRead_response_congr {s t : State} (hreg : regRead s = regRead t) (hbyte : windowByte s = windowByte t)
    (a n : Nat) : (hostRead a n s).2 = (hostRead a n t).2 := by
  unfold hostRead
  rw [hreg, hbyte]
  split
  · rfl
  · split
    · split <;> rfl
    · split <;> rfl

theorem regRead_withMem (s : State) (m : Memory) : regRead { s with mem := m } = regRead s := by
  funext r
  cases r <;> rfl

/-- While a command runs every byte of a window read is free (70_reset_and_hazards.md R242, Log 7). -/
theorem windowByte_of_busy {s : State} (h : busy s = true) : windowByte s = fun _ j => Config.freeByte (s.freeCtr + j) := by
  funext a j
  simp [windowByte, h]

theorem windowByte_withMem_of_busy {s : State} (h : busy s = true) (m : Memory) :
    windowByte { s with mem := m } = windowByte s := by
  rw [windowByte_of_busy h]
  exact windowByte_of_busy h

end Sys2Proof.Machine
end

section
/-! SUPPORT. The two window stores of ENCODE, the grid in COMPRAM and the hash in HASH (44_hash_codec.md R176). -/

namespace Sys2Proof.Machine

/-- A command that ends early completes with its error or stops with its fault. -/
theorem exec_of_stop {i : Instr} {s : State} {e : Stop} (h : runOf i s = .error e) : exec i s = finish s (.error e) := by
  rw [exec_eq_finish, h]

/-- An image whose words PIXRAM holds is read. -/
theorem pixReads_of_holdsPixels {s : State} {px : List Word} {n : Nat} (hlen : px.length = n) (h : HoldsPixels s px) :
    pixReads s 0 n = .ok px :=
  (pixReads_eq_ok s 0 n px).mpr ⟨hlen, fun j hj => by rw [Nat.zero_add]; exact h j hj⟩

/-- What the hash encoder answers, part by part (44_hash_codec.md R173). -/
theorem qencf_result {X Y : Nat} {g : Grid} {out : HashOut} (h : qencf X Y g = .ok out) :
    out.q = (acScale g.ac).1 ∧ out.m = (acScale g.ac).2 ∧
      out.bytes = hashString X Y out.q (dcq g.dc) (g.ac.map fun t => acq t out.m) := by
  obtain ⟨-, rfl⟩ := (qencf_eq_ok X Y g out).mp h
  exact ⟨rfl, rfl, rfl⟩

/-- The quantized maximum and the normalisation value of a grid by whether it has AC terms (44_hash_codec.md R173). -/
theorem acScale_of_nil {ac : List Triple} (h : ac = []) : acScale ac = (0, fpOne) := by
  simp [acScale, h]

theorem acScale_of_ne_nil {ac : List Triple} (h : ac ≠ []) : acScale ac = (qmaxf (maxAc ac), maxv (qmaxf (maxAc ac))) := by
  simp [acScale, h]

/-- The stores of ENCODE and its completion, field by field (10_state.md R57). -/
theorem flagsDone_storeHash (X Y : Nat) (out : HashOut) (s : State) (m : Memory) :
    flagsDone (storeHash X Y out { s with mem := m }) =
      completed
        { s with
          mem := hashStore m 0 out.bytes, hashlen := BitVec.ofNat 9 (4 + 2 * (X * Y)), maxq := BitVec.ofNat 7 out.q,
          maxval := out.m } := rfl

/-- A store in HASH leaves the entries of COMPRAM as they are: the buffer ends below COMPRAM (20_memory.md R72). -/
theorem holdsEntries_hashStore_gridStore (s : State) (m : Memory) (g : Grid) {bs : List Byte} (h : bs.length ≤ 256) :
    HoldsEntries { s with mem := hashStore (gridStore m g) 0 bs } (g.dc :: g.ac) := by
  have hgrid : HoldsBytes (gridStore m g) (compAddr 0 0) ((g.dc :: g.ac).flatMap tripleBytes) := holdsBytes_memWriteBytes _ _ _
  have hboth : HoldsBytes (hashStore (gridStore m g) 0 bs) (compAddr 0 0) ((g.dc :: g.ac).flatMap tripleBytes) := by
    refine holdsBytes_of_sameOutside hgrid (sameOutside_hashStore _ 0 bs) (.inr ?_)
    simp only [hashAddr, hashBase, compAddr, compBase]
    omega
  intro k hk c hc
  have hread := compRead_of_holdsBytes { s with mem := hashStore (gridStore m g) 0 bs } 0 _ hboth k hk c hc
  rwa [Nat.zero_add] at hread

end Sys2Proof.Machine
end

section
/-! SUPPORT. How the hash decoder's reads of HASH end: the digits it finds, and the first byte that ends a field (40_base83.md R132,
R133, 44_hash_codec.md R171, R174). -/

namespace Sys2Proof.Machine

/-! ### One digit -/

section digit

variable {s : State} {k : Nat}

theorem hashDigit_of_alpha {d : Nat} (hd : d < 83) (h : memRead s.mem (0x100 + k) = some (alpha d)) : hashDigit s k = .ok d :=
  (hashDigit_eq_ok s k d).mpr ⟨_, h, digit_alpha hd⟩

/-- A byte that is no digit is INVALID_CHARACTER with its offset and value (60_exceptions.md R201). -/
theorem hashDigit_of_not_alpha {b : Byte} (hb : ∀ d, d < 83 → alpha d ≠ b) (h : memRead s.mem (0x100 + k) = some b) :
    hashDigit s k = .error (.raise .invalidCharacter (BitVec.ofNat 32 (k * 256 + b.toNat))) := by
  have hread : hashRead s k = .ok b := (hashRead_eq_ok s k b).mpr h
  simp [hashDigit, hread, (digit_eq_none b).mpr hb, raise, charInfo]

theorem hashDigit_of_uninit (h : memRead s.mem (0x100 + k) = none) : hashDigit s k = .error .uninitRead := by
  have hread : hashRead s k = .error .uninitRead := (initialised_eq_uninitRead _).mpr h
  simp [hashDigit, hread]

end digit

/-- The digits HASH holds from byte `k` on, read back. -/
theorem hashDigit_of_holdsBytes {s : State} {k : Nat} {ds : List Nat} (hd : ∀ d ∈ ds, d < 83)
    (h : HoldsBytes s.mem (0x100 + k) (ds.map alpha)) {j : Nat} (hj : j < ds.length) : hashDigit s (k + j) = .ok ds[j] := by
  refine hashDigit_of_alpha (hd _ (List.getElem_mem hj)) ?_
  have hbyte := h j (by simpa using hj)
  rwa [List.getElem_map, Nat.add_assoc] at hbyte

/-! ### Fields of digits -/

theorem hashValue_succ_of_digit {s : State} {k d : Nat} (h : hashDigit s k = .ok d) (L v : Nat) :
    hashValue s k (L + 1) v = hashValue s (k + 1) L (v * 83 + d) := by
  simp [hashValue, h]

theorem hashValue_of_digits {s : State} {k L : Nat} (h : ∀ j, k ≤ j → j < k + L → ∃ d, hashDigit s j = .ok d) (v : Nat) :
    ∃ w, hashValue s k L v = .ok w := by
  induction L generalizing k v with
  | zero => exact ⟨v, rfl⟩
  | succ L ih =>
    obtain ⟨d, hd⟩ := h k (Nat.le_refl k) (by omega)
    rw [hashValue_succ_of_digit hd]
    exact ih (fun j h1 h2 => h j (by omega) (by omega)) _

/-- Byte `p` of HASH is the first from byte `k` on that is no digit or is never written: the lookup there ends with `e`. -/
structure FirstStop (s : State) (k p : Nat) (e : Stop) : Prop where
  le : k ≤ p
  digits : ∀ j, k ≤ j → j < p → ∃ d, hashDigit s j = .ok d
  stop : hashDigit s p = .error e

theorem FirstStop.restrict {s : State} {k p : Nat} {e : Stop} (h : FirstStop s k p e) {k' : Nat} (hk : k ≤ k') (hp : k' ≤ p) :
    FirstStop s k' p e where
  le := hp
  digits j h1 h2 := h.digits j (Nat.le_trans hk h1) h2
  stop := h.stop

/-- A digit string in HASH and the byte that ends it. -/
theorem firstStop_of_holdsBytes {s : State} {k : Nat} {ds : List Nat} {e : Stop} (hd : ∀ d ∈ ds, d < 83)
    (h : HoldsBytes s.mem (0x100 + k) (ds.map alpha)) (hstop : hashDigit s (k + ds.length) = .error e) :
    FirstStop s k (k + ds.length) e where
  le := Nat.le_add_right k _
  digits j h1 h2 := by
    obtain ⟨i, rfl⟩ := Nat.exists_eq_add_of_le h1
    exact ⟨_, hashDigit_of_holdsBytes hd h (by omega)⟩
  stop := hstop

theorem hashValue_of_firstStop {s : State} {k p L : Nat} {e : Stop} (h : FirstStop s k p e) (hp : p < k + L) (v : Nat) :
    hashValue s k L v = .error e := by
  induction L generalizing k v with
  | zero => exact absurd h.le (by omega)
  | succ L ih =>
    rcases Nat.eq_or_lt_of_le h.le with rfl | hlt
    · simp [hashValue, h.stop]
    · obtain ⟨d, hd⟩ := h.digits k (Nat.le_refl k) hlt
      rw [hashValue_succ_of_digit hd]
      exact ih (h.restrict (Nat.le_succ k) hlt) (by omega) _

/-- The AC fields end at the first byte in them that is no digit (44_hash_codec.md R174). -/
theorem acEntries_of_firstStop {s : State} {m : F64} {k n p : Nat} {e : Stop} (h : FirstStop s (4 + 2 * k) p e)
    (hp : p < 4 + 2 * (k + n)) : acEntries s m k n = .error e := by
  induction n generalizing k with
  | zero => exact absurd h.le (by omega)
  | succ n ih =>
    rcases Nat.lt_or_ge p (4 + 2 * k + 2) with hin | hpast
    · simp [acEntries, hashValue_of_firstStop h hin]
    · obtain ⟨v, hv⟩ := hashValue_of_digits (fun j h1 h2 => h.digits j h1 (Nat.lt_of_lt_of_le h2 hpast)) 0
      have hrest : acEntries s m (k + 1) n = .error e := ih (h.restrict (by omega) hpast) (by omega)
      simp [acEntries, hv, hrest]

/-! ### The digits of a value -/

/-- The number whose digits are those of `v` is `v`, as far as the digits reach (40_base83.md R130, R132). -/
theorem foldl_b83_digits (v L : Nat) :
    ((List.range L).map fun i => v / 83 ^ (L - 1 - i) % 83).foldl (fun a d => a * 83 + d) 0 = v % 83 ^ L := by
  induction L generalizing v with
  | zero => simp [Nat.mod_one]
  | succ L ih =>
    have hhigh : ((List.range L).map fun i => v / 83 ^ (L + 1 - 1 - i) % 83) =
        (List.range L).map fun i => v / 83 / 83 ^ (L - 1 - i) % 83 := by
      refine List.map_congr_left fun i hi => ?_
      have hi : i < L := List.mem_range.mp hi
      rw [Nat.div_div_eq_div_mul, ← Nat.pow_succ', show (L - 1 - i).succ = L + 1 - 1 - i by omega]
    have hlow : v / 83 ^ (L + 1 - 1 - L) % 83 = v % 83 := by simp
    rw [List.range_succ, List.map_append, List.foldl_append, hhigh, ih, List.map_singleton, List.foldl_cons, List.foldl_nil, hlow,
      Nat.pow_succ', Nat.mod_mul, Nat.mul_comm, Nat.add_comm]

/-- A value whose digits HASH holds is read back (40_base83.md R132). -/
theorem hashValue_of_b83Digits {s : State} {k v L : Nat} (hv : v < 83 ^ L) (h : HoldsBytes s.mem (0x100 + k) (b83Digits v L)) :
    hashValue s k L 0 = .ok v := by
  have hdigits : b83Digits v L = ((List.range L).map fun i => v / 83 ^ (L - 1 - i) % 83).map alpha := by
    simp [b83Digits, Function.comp_def]
  have hlt : ∀ d ∈ (List.range L).map (fun i => v / 83 ^ (L - 1 - i) % 83), d < 83 := by
    intro d hd
    obtain ⟨i, -, rfl⟩ := List.mem_map.mp hd
    exact Nat.mod_lt _ (by decide)
  rw [hdigits] at h
  refine (hashValue_eq_ok s k L 0 v).mpr ⟨_, by simp, fun j hj => hashDigit_of_holdsBytes hlt h hj, ?_⟩
  rw [foldl_b83_digits, Nat.mod_eq_of_lt hv]

/-- A field of one digit is its digit. -/
theorem hashDigit_of_b83Digits {s : State} {k v : Nat} (hv : v < 83) (h : HoldsBytes s.mem (0x100 + k) (b83Digits v 1)) :
    hashDigit s k = .ok v := by
  refine hashDigit_of_alpha hv ?_
  have hbyte := h 0 (by simp)
  simpa [b83Digits, Nat.mod_eq_of_lt hv] using hbyte

/-! ### The header -/

section header

variable {s : State}

theorem parseHdr_of_short (h : s.hashlen.toNat < 6) :
    parseHdr s = .error (.raise .invalidHash (BitVec.ofNat 32 (s.hashlen.toNat * 65536))) := by
  simp [parseHdr, h, raise, hashInfo]

theorem parseHdr_of_digit_error {e : Stop} (hlen : 6 ≤ s.hashlen.toNat) (h : hashDigit s 0 = .error e) :
    parseHdr s = .error e := by
  simp [parseHdr, Nat.not_lt.mpr hlen, h]

theorem parseHdr_of_large_flag {d : Nat} (hlen : 6 ≤ s.hashlen.toNat) (h : hashDigit s 0 = .ok d) (hd : 80 < d) :
    parseHdr s = .error (.raise .invalidHash (BitVec.ofNat 32 (s.hashlen.toNat * 65536 + 2))) := by
  simp [parseHdr, Nat.not_lt.mpr hlen, h, hd, raise, hashInfo]

theorem parseHdr_of_wrong_length {d : Nat} (hlen : 6 ≤ s.hashlen.toNat) (h : hashDigit s 0 = .ok d) (hd : d ≤ 80)
    (hne : s.hashlen.toNat ≠ 4 + 2 * ((d % 9 + 1) * (d / 9 + 1))) :
    parseHdr s = .error (.raise .invalidHash (BitVec.ofNat 32 (s.hashlen.toNat * 65536 + 1))) := by
  simp [parseHdr, Nat.not_lt.mpr hlen, h, Nat.not_lt.mpr hd, hne, raise, hashInfo]

/-- The size flag of a legal grid gives its counts back (44_hash_codec.md R170, R171). -/
theorem parseHdr_of_flag {X Y : Nat} (hX : 1 ≤ X) (hX9 : X ≤ 9) (hY : 1 ≤ Y) (hY9 : Y ≤ 9)
    (hlen : s.hashlen.toNat = 4 + 2 * (X * Y)) (h : hashDigit s 0 = .ok ((X - 1) + (Y - 1) * 9)) : parseHdr s = .ok (X, Y) := by
  have hx : ((X - 1) + (Y - 1) * 9) % 9 + 1 = X := by omega
  have hy : ((X - 1) + (Y - 1) * 9) / 9 + 1 = Y := by omega
  have hpos := Nat.mul_pos hX hY
  exact (parseHdr_eq_ok s X Y).mpr ⟨_, by omega, h, by omega, by rw [hx, hy, hlen], hx.symm, hy.symm⟩

/-- The commands that parse the header end where it ends. -/
theorem runOf_of_parseHdr_error {i : Instr} {e : Stop} (hi : i ∈ [Instr.components, .qdec, .decode]) (h : parseHdr s = .error e) :
    runOf i s = .error e := by
  simp only [List.mem_cons, List.not_mem_nil, or_false] at hi
  rcases hi with rfl | rfl | rfl
  · simp [runOf, componentsRun, h]
  · simp [runOf, qdecRun, qdecf, h]
  · simp [runOf, decodeRun, qdecf, h]

/-- The commands that decode the hash end where the decoder ends. -/
theorem runOf_of_qdecf_error {i : Instr} {e : Stop} (hi : i ∈ [Instr.qdec, .decode]) (h : qdecf s = .error e) :
    runOf i s = .error e := by
  simp only [List.mem_cons, List.not_mem_nil, or_false] at hi
  rcases hi with rfl | rfl
  · simp [runOf, qdecRun, h]
  · simp [runOf, decodeRun, h]

/-! ### The fields -/

variable {X Y : Nat} {e : Stop} (hp : parseHdr s = .ok (X, Y))
include hp

theorem qdecf_of_q_error (h : hashDigit s 1 = .error e) : qdecf s = .error e := by
  simp [qdecf, hp, h]

theorem qdecf_of_dc_error {q : Nat} (hq : hashDigit s 1 = .ok q) (h : hashValue s 2 4 0 = .error e) : qdecf s = .error e := by
  simp [qdecf, hp, hq, h]

theorem qdecf_of_large_dc {q dc : Nat} (hq : hashDigit s 1 = .ok q) (hdc : hashValue s 2 4 0 = .ok dc) (h : 0xFFFFFF < dc) :
    qdecf s = .error (.raise .dcRange (BitVec.ofNat 32 dc)) := by
  simp [qdecf, hp, hq, hdc, h, raise]

theorem qdecf_of_ac_error {q dc : Nat} (hq : hashDigit s 1 = .ok q) (hdc : hashValue s 2 4 0 = .ok dc) (hle : dc ≤ 0xFFFFFF)
    (h : ∀ m, acEntries s m 1 (X * Y - 1) = .error e) : qdecf s = .error e := by
  simp [qdecf, hp, hq, hdc, Nat.not_lt.mpr hle, h]

/-- The decoder ends at the first byte after the size flag that is no digit: the quantized maximum, a byte of the DC field, or, where
the DC value is in range, a byte of an AC field (44_hash_codec.md R174). -/
theorem qdecf_of_firstStop {p : Nat} (h : FirstStop s 1 p e) (hend : p < 4 + 2 * (X * Y))
    (hrange : 6 ≤ p → ∃ dc, hashValue s 2 4 0 = .ok dc ∧ dc ≤ 0xFFFFFF) : qdecf s = .error e := by
  rcases Nat.eq_or_lt_of_le h.le with rfl | hp1
  · exact qdecf_of_q_error hp h.stop
  · obtain ⟨q, hq⟩ := h.digits 1 (Nat.le_refl 1) hp1
    rcases Nat.lt_or_ge p 6 with hdc | hac
    · exact qdecf_of_dc_error hp hq (hashValue_of_firstStop (h.restrict (by decide) hp1) hdc 0)
    · obtain ⟨dc, hdc, hle⟩ := hrange hac
      exact qdecf_of_ac_error hp hq hdc hle fun m => acEntries_of_firstStop (h.restrict (by decide) hac) (by omega)

end header

end Sys2Proof.Machine
end

section
/-! SUPPORT. Where the reads of a command can fault: at window locations among its operands only (20_memory.md R85, 30_encoding.md
R106, 70_reset_and_hazards.md R244). -/

namespace Sys2Proof.Machine

/-- Each of the `n` bytes from `base` on is an operand of the ranges and a window location. -/
def OperandBytes (rs : List (Nat × Nat)) (base n : Nat) : Prop :=
  ∀ a, base ≤ a → a < base + n → inRanges rs a = true ∧ inWindow a = true

/-- Where the outcome is the fault, a window location among the ranges is never written. -/
def FaultsOnlyIn {α : Type} (m : Memory) (rs : List (Nat × Nat)) (x : Except Stop α) : Prop :=
  x = .error .uninitRead → ∃ a, inRanges rs a = true ∧ inWindow a = true ∧ memRead m a = none

/-! ### Operand ranges -/

theorem OperandBytes.sub {rs : List (Nat × Nat)} {base n base' n' : Nat} (h : OperandBytes rs base n) (hlo : base ≤ base')
    (hhi : base' + n' ≤ base + n) : OperandBytes rs base' n' := fun a h1 h2 => h a (by omega) (by omega)

theorem operandBytes_of_le {base n k : Nat} (hk : k ≤ n) (hw : ∀ a, base ≤ a → a < base + k → inWindow a = true) :
    OperandBytes [(base, n)] base k := fun a h1 h2 => ⟨(inRanges_single base n a).mpr (by omega), hw a h1 h2⟩

/-- Bytes of HASH within the buffer. -/
theorem operandBytes_hash {off n k : Nat} (hk : k ≤ n) (h : off + k ≤ 256) :
    OperandBytes [(hashBase + off, n)] (hashAddr off) k :=
  operandBytes_of_le hk fun a h1 h2 => by
    simp only [hashBase] at h1 h2
    exact inWindow_of_hash (by omega) (by omega)

/-- The entries of a grid of at most 81 components. -/
theorem operandBytes_entries {n : Nat} (h : n ≤ 81) : OperandBytes [(compBase, 24 * n)] compBase (24 * n) :=
  operandBytes_of_le (Nat.le_refl _) fun a h1 h2 => by
    simp only [compBase] at h1 h2
    exact inWindow_of_comp (by omega) (by omega)

/-- The words of an image within the capacity. -/
theorem operandBytes_pixels {n : Nat} (h : n ≤ Config.pixCap) : OperandBytes [(pixBase, 4 * n)] pixBase (4 * n) :=
  operandBytes_of_le (Nat.le_refl _) fun a h1 h2 => by
    simp only [pixBase] at h1 h2
    exact inWindow_of_pix (by omega) (by omega)

/-! ### Sequencing -/

section sequencing

variable {α β : Type} {m : Memory} {rs : List (Nat × Nat)}

theorem faultsOnlyIn_ok (a : α) : FaultsOnlyIn m rs (.ok a) := nofun

theorem faultsOnlyIn_raise (e : ErrCode) (info : Nat) : FaultsOnlyIn m rs (raise e info : Except Stop α) := nofun

theorem FaultsOnlyIn.bind {x : Except Stop α} {f : α → Except Stop β} (hx : FaultsOnlyIn m rs x)
    (hf : ∀ a, x = .ok a → FaultsOnlyIn m rs (f a)) : FaultsOnlyIn m rs (x >>= f) := by
  intro h
  rcases (except_bind_eq_error _ _ _).mp h with h | ⟨a, ha, h⟩
  · exact hx h
  · exact hf a ha h

theorem FaultsOnlyIn.ite {c : Prop} [Decidable c] {x y : Except Stop α} (hx : c → FaultsOnlyIn m rs x)
    (hy : ¬c → FaultsOnlyIn m rs y) : FaultsOnlyIn m rs (if c then x else y) := by
  split
  · exact hx ‹c›
  · exact hy ‹¬c›

/-- A read of bytes that are operands. -/
theorem memReadBytes_faultsOnlyIn {a n : Nat} (h : OperandBytes rs a n) :
    FaultsOnlyIn m rs (initialised (memReadBytes m a n)) := by
  intro hfault
  obtain ⟨k, hk, hnone⟩ := (memReadBytes_eq_none m a n).mp ((initialised_eq_uninitRead _).mp hfault)
  obtain ⟨hin, hw⟩ := h (a + k) (by omega) (by omega)
  exact ⟨a + k, hin, hw, hnone⟩

theorem memRead_faultsOnlyIn {a : Nat} (h : OperandBytes rs a 1) : FaultsOnlyIn m rs (initialised (memRead m a)) := by
  intro hfault
  obtain ⟨hin, hw⟩ := h a (Nat.le_refl a) (Nat.lt_succ_self a)
  exact ⟨a, hin, hw, (initialised_eq_uninitRead _).mp hfault⟩

theorem finiteOperand_faultsOnlyIn (k : Nat) (x : F64) : FaultsOnlyIn m rs (finiteOperand k x) :=
  .ite (fun _ => faultsOnlyIn_ok _) fun _ => faultsOnlyIn_raise _ _

theorem b83e_faultsOnlyIn (v L : Nat) : FaultsOnlyIn m rs (b83e v L) :=
  .ite (fun _ => faultsOnlyIn_raise _ _) fun _ => faultsOnlyIn_ok _

theorem acFields_faultsOnlyIn (x : F64) (ts : List Triple) : FaultsOnlyIn m rs (acFields x ts) := by
  induction ts with
  | nil => exact faultsOnlyIn_ok _
  | cons t ts ih => exact .bind (b83e_faultsOnlyIn _ _) fun _ _ => .bind ih fun _ _ => faultsOnlyIn_ok _

/-- The hash encoder reads no window. -/
theorem qencf_faultsOnlyIn (X Y : Nat) (g : Grid) : FaultsOnlyIn m rs (qencf X Y g) :=
  .bind (b83e_faultsOnlyIn _ _) fun _ _ => .bind (b83e_faultsOnlyIn _ _) fun _ _ => .bind (b83e_faultsOnlyIn _ _) fun _ _ =>
    .bind (acFields_faultsOnlyIn _ _) fun _ _ => faultsOnlyIn_ok _

end sequencing

/-! ### The operands -/

section operands

variable {s : State} {rs : List (Nat × Nat)}

theorem chkComp_faultsOnlyIn : FaultsOnlyIn s.mem rs (chkComp s) :=
  .ite (fun _ => faultsOnlyIn_raise _ _) fun _ => .ite (fun _ => faultsOnlyIn_raise _ _) fun _ => faultsOnlyIn_ok _

theorem chkDim_faultsOnlyIn : FaultsOnlyIn s.mem rs (chkDim s) :=
  .ite (fun _ => faultsOnlyIn_raise _ _) fun _ => .ite (fun _ => faultsOnlyIn_raise _ _) fun _ =>
    .ite (fun _ => faultsOnlyIn_raise _ _) fun _ => faultsOnlyIn_ok _

theorem pixReads_faultsOnlyIn {k n : Nat} (h : OperandBytes rs (pixAddr k) (4 * n)) : FaultsOnlyIn s.mem rs (pixReads s k n) := by
  induction n generalizing k with
  | zero => exact faultsOnlyIn_ok _
  | succ n ih =>
    have hnext : pixAddr (k + 1) = pixAddr k + 4 := by simp only [pixAddr]; omega
    have hread : FaultsOnlyIn s.mem rs (pixRead s k) :=
      .bind (memReadBytes_faultsOnlyIn (h.sub (Nat.le_refl _) (by omega))) fun _ _ => faultsOnlyIn_ok _
    exact .bind hread fun _ _ => .bind (ih (h.sub (by omega) (by omega))) fun _ _ => faultsOnlyIn_ok _

theorem entryOperand_faultsOnlyIn {k : Nat} (h : OperandBytes rs (compAddr k 0) 24) : FaultsOnlyIn s.mem rs (entryOperand s k) :=
  have channel (c : Nat) (hc : c < 3) : FaultsOnlyIn s.mem rs (compOperand s k c) := by
    have haddr : compAddr k c = compAddr k 0 + 8 * c := by simp only [compAddr]; omega
    have hread : FaultsOnlyIn s.mem rs (compRead s k c) :=
      .bind (memReadBytes_faultsOnlyIn (h.sub (by omega) (by omega))) fun _ _ => faultsOnlyIn_ok _
    exact .bind hread fun _ _ => finiteOperand_faultsOnlyIn _ _
  .bind (channel 0 (by decide)) fun _ _ => .bind (channel 1 (by decide)) fun _ _ => .bind (channel 2 (by decide)) fun _ _ =>
    faultsOnlyIn_ok _

theorem entryOperands_faultsOnlyIn {k n : Nat} (h : OperandBytes rs (compAddr k 0) (24 * n)) :
    FaultsOnlyIn s.mem rs (entryOperands s k n) := by
  induction n generalizing k with
  | zero => exact faultsOnlyIn_ok _
  | succ n ih =>
    have hnext : compAddr (k + 1) 0 = compAddr k 0 + 24 := by simp only [compAddr]; omega
    exact .bind (entryOperand_faultsOnlyIn (h.sub (Nat.le_refl _) (by omega))) fun _ _ =>
      .bind (ih (h.sub (by omega) (by omega))) fun _ _ => faultsOnlyIn_ok _

theorem gridOperand_faultsOnlyIn {n : Nat} (hn : 1 ≤ n) (h : OperandBytes rs compBase (24 * n)) :
    FaultsOnlyIn s.mem rs (gridOperand s n) := by
  have hfirst : compAddr 0 0 = compBase := rfl
  have hnext : compAddr 1 0 = compBase + 24 := rfl
  exact .bind (entryOperand_faultsOnlyIn (h.sub (by omega) (by omega))) fun _ _ =>
    .bind (entryOperands_faultsOnlyIn (h.sub (by omega) (by omega))) fun _ _ => faultsOnlyIn_ok _

/-! ### The hash decoder -/

theorem hashDigit_faultsOnlyIn {k : Nat} (h : OperandBytes rs (hashAddr k) 1) : FaultsOnlyIn s.mem rs (hashDigit s k) := by
  refine .bind (memRead_faultsOnlyIn h) fun b _ => ?_
  split
  · exact faultsOnlyIn_raise _ _
  · exact faultsOnlyIn_ok _

theorem hashValue_faultsOnlyIn {k L : Nat} (h : OperandBytes rs (hashAddr k) L) (v : Nat) :
    FaultsOnlyIn s.mem rs (hashValue s k L v) := by
  induction L generalizing k v with
  | zero => exact faultsOnlyIn_ok _
  | succ L ih =>
    have hnext : hashAddr (k + 1) = hashAddr k + 1 := rfl
    exact .bind (hashDigit_faultsOnlyIn (h.sub (Nat.le_refl _) (by omega))) fun _ _ => ih (h.sub (by omega) (by omega)) _

theorem acEntries_faultsOnlyIn {k n : Nat} (x : F64) (h : OperandBytes rs (hashAddr (4 + 2 * k)) (2 * n)) :
    FaultsOnlyIn s.mem rs (acEntries s x k n) := by
  induction n generalizing k with
  | zero => exact faultsOnlyIn_ok _
  | succ n ih =>
    have hnext : hashAddr (4 + 2 * (k + 1)) = hashAddr (4 + 2 * k) + 2 := rfl
    exact .bind (hashValue_faultsOnlyIn (h.sub (Nat.le_refl _) (by omega)) _) fun _ _ =>
      .bind (ih (h.sub (by omega) (by omega))) fun _ _ => faultsOnlyIn_ok _

theorem parseHdr_faultsOnlyIn (h : 6 ≤ s.hashlen.toNat → OperandBytes rs (hashAddr 0) 1) :
    FaultsOnlyIn s.mem rs (parseHdr s) :=
  .ite (fun _ => faultsOnlyIn_raise _ _) fun hlen => .bind (hashDigit_faultsOnlyIn (h (Nat.not_lt.mp hlen))) fun _ _ =>
    .ite (fun _ => faultsOnlyIn_raise _ _) fun _ => .ite (fun _ => faultsOnlyIn_raise _ _) fun _ => faultsOnlyIn_ok _

/-- The counts of a header that parses, and the length that goes with them (44_hash_codec.md R171). -/
theorem parseHdr_counts {X Y : Nat} (h : parseHdr s = .ok (X, Y)) :
    s.hashlen.toNat = 4 + 2 * (X * Y) ∧ 1 ≤ X * Y ∧ X * Y ≤ 81 := by
  obtain ⟨d, -, -, hd, hlen, rfl, rfl⟩ := (parseHdr_eq_ok s X Y).mp h
  exact ⟨hlen, Nat.mul_pos (Nat.succ_pos _) (Nat.succ_pos _), grid_size_le (by omega) (by omega)⟩

/-- The hash decoder reads the `HASHLEN` bytes of the hash and no other. -/
theorem qdecf_faultsOnlyIn : FaultsOnlyIn s.mem [(hashBase, s.hashlen.toNat)] (qdecf s) := by
  have hash {k : Nat} (hk : k ≤ s.hashlen.toNat) (h : k ≤ 256) : OperandBytes [(hashBase, s.hashlen.toNat)] (hashAddr 0) k :=
    operandBytes_hash (off := 0) hk (by omega)
  refine .bind (parseHdr_faultsOnlyIn fun h6 => hash (by omega) (by decide)) fun counts hp => ?_
  obtain ⟨hlen, hpos, hle⟩ := parseHdr_counts hp
  have field (k n : Nat) (h : k + n ≤ s.hashlen.toNat) : OperandBytes [(hashBase, s.hashlen.toNat)] (hashAddr k) n :=
    (hash (Nat.le_refl _) (by omega)).sub (by simp only [hashAddr]; omega) (by simp only [hashAddr]; omega)
  exact .bind (hashDigit_faultsOnlyIn (field 1 1 (by omega))) fun _ _ =>
    .bind (hashValue_faultsOnlyIn (field 2 4 (by omega)) 0) fun _ _ => .ite (fun _ => faultsOnlyIn_raise _ _) fun _ =>
      .bind (acEntries_faultsOnlyIn _ (field 6 (2 * (counts.1 * counts.2 - 1)) (by omega))) fun _ _ => faultsOnlyIn_ok _

end operands

/-! ### The commands -/

/-- A command that faults has a never-written window location among its operands. -/
theorem runOf_faultsOnlyIn (i : Instr) (s : State) : FaultsOnlyIn s.mem (operandRanges i s) (runOf i s) := by
  have pixels {W H : Nat} (h : chkDim s = .ok (W, H)) :
      FaultsOnlyIn s.mem [(pixBase, 4 * (s.width.toNat * s.height.toNat))] (pixReads s 0 (W * H)) := by
    obtain ⟨⟨rfl, rfl⟩, -, -, hcap⟩ := (chkDim_eq_ok s W H).mp h
    exact pixReads_faultsOnlyIn (operandBytes_pixels hcap)
  have entries {X Y : Nat} (h : chkComp s = .ok (X, Y)) :
      FaultsOnlyIn s.mem [(compBase, 24 * (s.xc.toNat * s.yc.toNat))] (gridOperand s (X * Y)) := by
    obtain ⟨⟨rfl, rfl⟩, ⟨hX, hX9⟩, hY, hY9⟩ := (chkComp_eq_ok s X Y).mp h
    exact gridOperand_faultsOnlyIn (Nat.mul_pos hX hY) (operandBytes_entries (grid_size_le hX9 hY9))
  cases i with
  | nop => exact faultsOnlyIn_ok _
  | encode =>
    exact .bind chkComp_faultsOnlyIn fun _ _ => .bind chkDim_faultsOnlyIn fun _ hdim => .bind (pixels hdim) fun _ _ =>
      .bind (qencf_faultsOnlyIn _ _ _) fun _ _ => faultsOnlyIn_ok _
  | decode => exact .bind qdecf_faultsOnlyIn fun _ _ => .bind chkDim_faultsOnlyIn fun _ _ => faultsOnlyIn_ok _
  | components =>
    exact .bind (parseHdr_faultsOnlyIn fun _ => operandBytes_hash (off := 0) (Nat.le_refl 1) (by decide)) fun _ _ =>
      faultsOnlyIn_ok _
  | fdct =>
    exact .bind chkComp_faultsOnlyIn fun _ _ => .bind chkDim_faultsOnlyIn fun _ hdim => .bind (pixels hdim) fun _ _ =>
      faultsOnlyIn_ok _
  | qenc =>
    exact .bind chkComp_faultsOnlyIn fun _ hcomp => .bind (entries hcomp) fun _ _ => .bind (qencf_faultsOnlyIn _ _ _) fun _ _ =>
      faultsOnlyIn_ok _
  | qdec => exact .bind qdecf_faultsOnlyIn fun _ _ => faultsOnlyIn_ok _
  | idct =>
    exact .bind chkComp_faultsOnlyIn fun _ hcomp => .bind chkDim_faultsOnlyIn fun _ _ => .bind (entries hcomp) fun _ _ =>
      faultsOnlyIn_ok _
  | b83Enc off len =>
    exact .ite (fun _ => faultsOnlyIn_raise _ _) fun _ => .bind (b83e_faultsOnlyIn _ _) fun _ _ => faultsOnlyIn_ok _
  | b83Dec off len =>
    exact .ite (fun _ => faultsOnlyIn_raise _ _) fun hfit =>
      .bind (hashValue_faultsOnlyIn (operandBytes_hash (Nat.le_refl _) (Nat.not_lt.mp hfit)) 0) fun _ _ => faultsOnlyIn_ok _
  | gammaDec imm => exact faultsOnlyIn_ok _
  | gammaEnc => exact .bind (finiteOperand_faultsOnlyIn _ _) fun _ _ => faultsOnlyIn_ok _
  | quantMax => exact .bind (finiteOperand_faultsOnlyIn _ _) fun _ _ => faultsOnlyIn_ok _
  | quantAc =>
    exact .bind (finiteOperand_faultsOnlyIn _ _) fun _ _ => .bind (finiteOperand_faultsOnlyIn _ _) fun _ _ =>
      .ite (fun _ => faultsOnlyIn_raise _ _) fun _ => faultsOnlyIn_ok _
  | dequantAc imm => exact .bind (finiteOperand_faultsOnlyIn _ _) fun _ _ => faultsOnlyIn_ok _

end Sys2Proof.Machine
end

section
/-! The statements of 20_memory.md. -/

namespace Sys2Proof.MemoryAccess

open Sys2Proof.Machine

/-- Settles O48: the port rejects the access before it looks at what lies at the offset. -/
theorem busErrorsChangeNothing : Obligations.BusErrorsChangeNothing := by
  intro s off n v hreset hregion hwindow
  have hbad : accessOk off.toNat n = false := by
    refine Bool.eq_false_iff.mpr fun hok => ?_
    rcases Nat.lt_or_ge off.toNat 0x100 with hoff | hoff
    · exact hregion hoff ((accessOk_below n hoff).mp hok)
    · exact hwindow hoff ((accessOk_above n hoff).mp hok)
  rw [hostTurn_read hreset, hostTurn_write hreset, hostRead_rejected s hbad, hostWrite_rejected v s hbad]
  exact ⟨rfl, rfl⟩

/-- Settles O51: a reserved offset names no register and no window location, so an access there finds nothing to move. -/
theorem reservedOffsetsReadZero : Obligations.ReservedOffsetsReadZero := by
  intro s off n v hreset haccess
  obtain ⟨hok, hres⟩ : accessOk off.toNat n = true ∧ Reserved off.toNat := by
    have hcap := pixCap_bounds
    rcases haccess with ⟨hn, halign, hoff⟩ | ⟨halign, hoff⟩
    · have hlow : off.toNat < 0x100 := by omega
      exact ⟨(accessOk_below n hlow).mpr ⟨hn, halign⟩, reserved_of_regAt (regAt_reserved hoff) hlow⟩
    · have hhigh : 0x100 ≤ off.toNat := by omega
      exact ⟨(accessOk_above n hhigh).mpr halign, reserved_of_inWindow (inWindow_gap hoff) hhigh⟩
  rw [hostTurn_read hreset, hostTurn_write hreset, hostRead_reserved s hok hres]
  refine ⟨rfl, fun hidle => ?_, fun hbusy => ?_⟩
  · rw [hostWrite_performed v hok (.inl hidle), storeAccepted_reserved n v s hres]
  · rw [hostWrite_dropped v hok hbusy (writableBusy_reserved hres)]
    rfl

/-- Settles O53: the state after a read, and the bytes of a read while a command runs. -/
theorem readsHaveNoSideEffect : Obligations.ReadsHaveNoSideEffect := by
  refine ⟨fun s t off n hturn => ?_, fun s a n m hbusy => ?_⟩
  · by_cases hreset : s.inReset = true
    · simp [hostTurn, hreset] at hturn
    · rw [hostTurn_read (Bool.eq_false_of_not_eq_true hreset), hostRead_state] at hturn
      cases hturn
      rfl
  · exact hostRead_response_congr (regRead_withMem s m).symm (windowByte_withMem_of_busy hbusy m).symm a n

/-- Settles O38: the grid and the hash are stored in windows that do not meet, or a pixel read faults. -/
theorem encodeStoresGridAndHash : Obligations.EncodeStoresGridAndHash := by
  intro s hX hX9 hY hY9 hW hH hcap
  have hcomp := (chkComp_eq_ok s _ _).mpr ⟨⟨rfl, rfl⟩, ⟨hX, hX9⟩, hY, hY9⟩
  have hdim := (chkDim_eq_ok s _ _).mpr ⟨⟨rfl, rfl⟩, hW, hH, hcap⟩
  refine ⟨fun px hlen hpx => ?_, fun a h1 h2 ha => ?_⟩
  · have hsize := fdctGrid_length hX hY px s.width.toNat s.height.toNat
    have hle := grid_size_le hX9 hY9
    obtain ⟨out, hq⟩ := qencf_of_legal hX9 hY9 (fdctGrid px s.xc.toNat s.yc.toNat s.width.toNat s.height.toNat)
    have hbytes := qencf_bytes_length hq hsize
    have hrun := (encodeRun_eq_ok s _).mpr ⟨_, _, _, _, px, out, hcomp, hdim, pixReads_of_holdsPixels hlen hpx, hq, rfl⟩
    obtain ⟨hmax, hval, hstring⟩ := qencf_result hq
    generalize fdctGrid px s.xc.toNat s.yc.toNat s.width.toNat s.height.toNat = g at *
    have hheld := holdsBytes_hashStore (gridStore s.mem g) 0 out.bytes
    have hgridFrame := sameOutside_gridStore s.mem g
    have hhashFrame := sameOutside_hashStore (gridStore s.mem g) 0 out.bytes
    rw [hsize] at hgridFrame
    rw [hbytes] at hhashFrame
    refine ⟨hashStore (gridStore s.mem g) 0 out.bytes, g, out.q, out.m, rfl,
      (exec_eq_next .encode s _).mpr (.inl ⟨_, hrun, (flagsDone_storeHash _ _ out s _).symm⟩), fun hnil => ?_, fun hne => ?_,
      holdsEntries_hashStore_gridStore s s.mem g (by omega), ?_, fun a hgrid hhash => ?_⟩
    · rw [hmax, hval, acScale_of_nil hnil]
      exact ⟨rfl, rfl⟩
    · simp only [hmax, hval, acScale_of_ne_nil hne, and_self]
    · rw [← hstring]
      exact hheld
    · rw [hhashFrame a hhash, hgridFrame a hgrid]
  · obtain ⟨j, hj, hread⟩ := pixRead_of_memRead_none h1 h2 ha
    have hrun : runOf .encode s = .error .uninitRead := by
      simp [runOf, encodeRun, hcomp, hdim, pixReads_of_uninitRead hj hread]
    exact exec_of_stop hrun

/-- Settles O13: the loop over the digits ends at the first byte that gives none. -/
theorem b83DecErrors : Obligations.B83DecErrors := by
  refine fun s off len => ⟨fun hbounds => ?_, fun ds hfit hlen hd hbytes => ?_⟩
  · have hrun : runOf (.b83Dec off len) s = raise .bounds (Sys2Proof.encode (.b83Dec off len)).toNat := if_pos hbounds
    exact exec_of_stop hrun
  · rw [← Nat.add_assoc]
    have ends {e : Stop} (hstop : hashDigit s (off.toNat + ds.length) = .error e) :
        exec (.b83Dec off len) s = finish s (.error e) := by
      have hvalue := hashValue_of_firstStop (firstStop_of_holdsBytes hd hbytes hstop) (Nat.add_lt_add_left hlen off.toNat) 0
      exact exec_of_stop (by simp [runOf, b83DecRun, Nat.not_lt.mpr hfit, hvalue])
    refine ⟨fun b hb hbad => ends (hashDigit_of_not_alpha hbad ?_), fun hnone => ends (hashDigit_of_uninit ?_)⟩
    · rwa [← Nat.add_assoc]
    · rwa [← Nat.add_assoc]

/-- Settles O34: the header parse ends at its first check that fails. -/
theorem headerErrors : Obligations.HeaderErrors := by
  intro s i hi
  have ends {e : Stop} (h : parseHdr s = .error e) : exec i s = finish s (.error e) :=
    exec_of_stop (runOf_of_parseHdr_error hi h)
  refine ⟨fun hshort => ends (parseHdr_of_short hshort), fun hlen => ⟨fun hnone => ?_, fun b hb hbad => ?_, fun d hd hb => ?_⟩⟩
  · exact ends (parseHdr_of_digit_error hlen (hashDigit_of_uninit hnone))
  · have hdigit := hashDigit_of_not_alpha (k := 0) hbad hb
    rw [Nat.zero_mul, Nat.zero_add] at hdigit
    exact ends (parseHdr_of_digit_error hlen hdigit)
  · have hdigit : hashDigit s 0 = .ok d := hashDigit_of_alpha hd hb
    exact ⟨fun hlarge => ends (parseHdr_of_large_flag hlen hdigit hlarge),
      fun hle hne => ends (parseHdr_of_wrong_length hlen hdigit hle hne)⟩

/-- Settles O37: after a legal header the decoder ends at the first byte that is no digit, or at the DC value. -/
theorem hashFieldErrors : Obligations.HashFieldErrors := by
  refine ⟨fun s i X Y ds hi hX hX9 hY hY9 hlen hpos hend hd hflag hrange hbytes => ?_,
    fun s i X Y q dc rest hi hX hX9 hY hY9 hq hlarge hdc hlen hbytes => ?_⟩
  · have hdigit {j : Nat} (hj : j < ds.length) : hashDigit s j = .ok (ds.getD j 0) := by
      have hread := hashDigit_of_holdsBytes (k := 0) hd hbytes hj
      rwa [Nat.zero_add, ← List.getD_eq_getElem _ 0 hj] at hread
    have hp : parseHdr s = .ok (X, Y) := parseHdr_of_flag hX hX9 hY hY9 hlen (hflag ▸ hdigit hpos)
    have ends {e : Stop} (hstop : hashDigit s ds.length = .error e) : exec i s = finish s (.error e) := by
      have hfirst : FirstStop s 1 ds.length e := ⟨hpos, fun j _ hj => ⟨_, hdigit hj⟩, hstop⟩
      refine exec_of_stop (runOf_of_qdecf_error hi (qdecf_of_firstStop hp hfirst hend fun h6 => ⟨_, ?_, hrange h6⟩))
      simp [hashValue, hdigit (show 2 < ds.length by omega), hdigit (show 3 < ds.length by omega),
        hdigit (show 4 < ds.length by omega), hdigit (show 5 < ds.length by omega)]
    exact ⟨fun b hb hbad => ends (hashDigit_of_not_alpha hbad hb), fun hnone => ends (hashDigit_of_uninit hnone)⟩
  · simp only [hashString, holdsBytes_append, List.length_append, b83Digits_length] at hbytes
    obtain ⟨⟨⟨⟨hflag, hmax⟩, hvalue⟩, -⟩, -⟩ := hbytes
    have hp := parseHdr_of_flag hX hX9 hY hY9 hlen (hashDigit_of_b83Digits (k := 0) (by omega) hflag)
    have hdecode := qdecf_of_large_dc hp (hashDigit_of_b83Digits hq hmax) (hashValue_of_b83Digits hdc hvalue) hlarge
    exact exec_of_stop (runOf_of_qdecf_error hi hdecode)

/-- Settles O47: only a read of a window faults, and a command reads its operands only; where it has none, nothing can fault. -/
theorem faultsOnlyOnNeverWritten : Obligations.FaultsOnlyOnNeverWritten := by
  intro i s f hfault
  obtain ⟨a, hin, hw, hnone⟩ := runOf_faultsOnlyIn i s ((exec_eq_fault i s f).mp hfault)
  have hoperands : operandRanges i s ≠ [] := fun hnil => by simp [hnil, inRanges] at hin
  refine ⟨by cases f; rfl, ⟨a, hin, hw, hnone⟩, fun hi => ?_, ?_, ?_, ?_⟩
  · simp only [List.mem_cons, List.not_mem_nil, or_false] at hi
    rcases hi with rfl | rfl | rfl | rfl <;> exact hoperands rfl
  · rintro off len rfl
    exact hoperands rfl
  · rintro imm rfl
    exact hoperands rfl
  · rintro imm rfl
    exact hoperands rfl

end Sys2Proof.MemoryAccess
end

section
/-! SUPPORT. Command words as numbers: the fields of a word, and the words of each format (30_encoding.md R100 to R103). -/

namespace Sys2Proof

open Sys2Proof.Machine

/-! ### The fields of a word -/

theorem toNat_opcField (w : Word) : (opcField w).toNat = w.toNat % 256 := by
  simp [opcField]

theorem toNat_byteField (w : Word) : (byteField w).toNat = w.toNat / 2 ^ 8 % 2 ^ 8 := by
  simp [byteField, Nat.shiftRight_eq_div_pow]

theorem toNat_lenField (w : Word) : (lenField w).toNat = w.toNat / 2 ^ 16 % 16 := by
  simp [lenField, Nat.shiftRight_eq_div_pow]

/-- The reserved bits of a word, those from bit `k` on, are 0. -/
theorem extractLsb'_upper_eq_zero {k n : Nat} (h : 32 ≤ k + n) (w : Word) : w.extractLsb' k n = 0 ↔ w.toNat / 2 ^ k = 0 := by
  have hlt : w.toNat / 2 ^ k < 2 ^ n :=
    Nat.div_lt_of_lt_mul (Nat.pow_add 2 k n ▸ Nat.lt_of_lt_of_le w.isLt (Nat.pow_le_pow_right (by decide) h))
  rw [← BitVec.toNat_inj, BitVec.extractLsb'_toNat, Nat.shiftRight_eq_div_pow, Nat.mod_eq_of_lt hlt]
  rfl

/-! ### The words of a format -/

theorem toNat_wordN (opc : BitVec 8) : (wordN opc).toNat = opc.toNat := toNat_reserved_append opc

theorem toNat_wordB (opc off : BitVec 8) (len : BitVec 4) :
    (wordB opc off len).toNat = (len.toNat * 2 ^ 8 + off.toNat) * 2 ^ 8 + opc.toNat := by
  refine (toNat_append_eq_add _ opc).trans ?_
  rw [toNat_append_eq_add, toNat_reserved_append]

theorem toNat_wordI (opc imm : BitVec 8) : (wordI opc imm).toNat = imm.toNat * 2 ^ 8 + opc.toNat := by
  refine (toNat_append_eq_add _ opc).trans ?_
  rw [toNat_reserved_append]

/-- A word is the format N word of an opcode exactly if it has the opcode and its reserved bits are 0 (R101). -/
theorem wordN_eq_iff (opc : BitVec 8) (w : Word) : wordN opc = w ↔ opcField w = opc ∧ w.toNat / 2 ^ 8 = 0 := by
  rw [← BitVec.toNat_inj, ← BitVec.toNat_inj, toNat_wordN, toNat_opcField]
  omega

/-- A word is the format B word of its fields exactly if its reserved bits are 0 (R102). -/
theorem wordB_eq_iff (opc off : BitVec 8) (len : BitVec 4) (w : Word) :
    wordB opc off len = w ↔ opcField w = opc ∧ byteField w = off ∧ lenField w = len ∧ w.toNat / 2 ^ 20 = 0 := by
  simp only [← BitVec.toNat_inj, toNat_wordB, toNat_opcField, toNat_byteField, toNat_lenField]
  omega

/-- A word is the format I word of its fields exactly if its reserved bits are 0 (R103). -/
theorem wordI_eq_iff (opc imm : BitVec 8) (w : Word) :
    wordI opc imm = w ↔ opcField w = opc ∧ byteField w = imm ∧ w.toNat / 2 ^ 16 = 0 := by
  simp only [← BitVec.toNat_inj, toNat_wordI, toNat_opcField, toNat_byteField]
  omega

theorem lenLegal_lenField (w : Word) : lenLegal (lenField w) = decide (w.toNat / 2 ^ 16 % 16 ≤ 10) := by
  rw [lenLegal, toNat_lenField]

/-! ### What each format accepts -/

theorem decodeN_eq_ok (w : Word) (i j : Instr) : decodeN w i = .ok j ↔ w.toNat / 2 ^ 8 = 0 ∧ i = j := by
  rw [← extractLsb'_upper_eq_zero (n := 24) (by decide), decodeN]
  split <;> simp_all

theorem decodeB_eq_ok (w : Word) (mk : BitVec 8 → BitVec 4 → Instr) (j : Instr) :
    decodeB w mk = .ok j ↔
      w.toNat / 2 ^ 20 = 0 ∧ lenLegal (lenField w) = true ∧ mk (byteField w) (lenField w) = j := by
  rw [← extractLsb'_upper_eq_zero (n := 12) (by decide), decodeB]
  split
  · split <;> simp_all
  · simp_all

theorem decodeI_eq_ok (w : Word) (mk : BitVec 8 → Instr) (j : Instr) :
    decodeI w mk = .ok j ↔ w.toNat / 2 ^ 16 = 0 ∧ mk (byteField w) = j := by
  rw [← extractLsb'_upper_eq_zero (n := 16) (by decide), decodeI]
  split <;> simp_all

/-- A decoder rejects a word exactly if it answers no command. -/
theorem exists_error_iff {ε α : Type} (x : Except ε α) : (∃ e, x = .error e) ↔ ¬ ∃ a, x = .ok a := by
  cases x <;> simp

end Sys2Proof
end

section
/-! SUPPORT. The opcode map row by row (30_encoding.md R104): each opcode with its format and its command, and what the decoder, the
encoder and the list of illegal words of R107 say of it. -/

namespace Sys2Proof

open Sys2Proof.Machine

/-- The rows of R104 in format N: an opcode and its command. -/
inductive FormatN : BitVec 8 → Instr → Prop
  | nop : FormatN 0x00 .nop
  | encode : FormatN 0x01 .encode
  | decode : FormatN 0x02 .decode
  | components : FormatN 0x03 .components
  | fdct : FormatN 0x10 .fdct
  | qenc : FormatN 0x11 .qenc
  | qdec : FormatN 0x12 .qdec
  | idct : FormatN 0x13 .idct
  | gammaEnc : FormatN 0x31 .gammaEnc
  | quantMax : FormatN 0x40 .quantMax
  | quantAc : FormatN 0x41 .quantAc

/-- The rows of R104 in format B: an opcode and its command of OFF and LEN. -/
inductive FormatB : BitVec 8 → (BitVec 8 → BitVec 4 → Instr) → Prop
  | b83Enc : FormatB 0x20 .b83Enc
  | b83Dec : FormatB 0x21 .b83Dec

/-- The rows of R104 in format I: an opcode and its command of IMM8. -/
inductive FormatI : BitVec 8 → (BitVec 8 → Instr) → Prop
  | gammaDec : FormatI 0x30 .gammaDec
  | dequantAc : FormatI 0x42 .dequantAc

/-! ### The rows are the whole map -/

/-- R104 lists no opcode without a row. -/
theorem row_of_mem_opcodes :
    ∀ n ∈ opcodes,
      (∃ i, FormatN (BitVec.ofNat 8 n) i) ∨ (∃ mk, FormatB (BitVec.ofNat 8 n) mk) ∨ ∃ mk, FormatI (BitVec.ofNat 8 n) mk := by
  simp only [opcodes, List.forall_mem_cons]
  exact ⟨.inl ⟨_, .nop⟩, .inl ⟨_, .encode⟩, .inl ⟨_, .decode⟩, .inl ⟨_, .components⟩, .inl ⟨_, .fdct⟩, .inl ⟨_, .qenc⟩,
    .inl ⟨_, .qdec⟩, .inl ⟨_, .idct⟩, .inr (.inl ⟨_, .b83Enc⟩), .inr (.inl ⟨_, .b83Dec⟩), .inr (.inr ⟨_, .gammaDec⟩),
    .inl ⟨_, .gammaEnc⟩, .inl ⟨_, .quantMax⟩, .inl ⟨_, .quantAc⟩, .inr (.inr ⟨_, .dequantAc⟩), nofun⟩

/-- Every opcode stands in one row, or in none. -/
theorem opcode_cases (opc : BitVec 8) :
    (∃ i, FormatN opc i) ∨ (∃ mk, FormatB opc mk) ∨ (∃ mk, FormatI opc mk) ∨ opc.toNat ∉ opcodes := by
  by_cases h : opc.toNat ∈ opcodes
  · have hrow := row_of_mem_opcodes opc.toNat h
    rw [BitVec.ofNat_toNat, BitVec.setWidth_eq] at hrow
    exact hrow.imp_right (Or.imp_right Or.inl)
  · exact .inr (.inr (.inr h))

/-- Every command stands in one row. -/
theorem instr_cases (i : Instr) :
    (∃ opc, FormatN opc i) ∨ (∃ opc mk off len, FormatB opc mk ∧ i = mk off len) ∨ ∃ opc mk imm, FormatI opc mk ∧ i = mk imm := by
  cases i with
  | b83Enc off len => exact .inr (.inl ⟨_, _, off, len, .b83Enc, rfl⟩)
  | b83Dec off len => exact .inr (.inl ⟨_, _, off, len, .b83Dec, rfl⟩)
  | gammaDec imm => exact .inr (.inr ⟨_, _, imm, .gammaDec, rfl⟩)
  | dequantAc imm => exact .inr (.inr ⟨_, _, imm, .dequantAc, rfl⟩)
  | _ => exact .inl ⟨_, by constructor⟩

/-! ### The encoder -/

theorem FormatN.encode_eq {opc : BitVec 8} {i : Instr} (h : FormatN opc i) : Sys2Proof.encode i = wordN opc := by
  cases h <;> rfl

theorem FormatN.wellFormed {opc : BitVec 8} {i : Instr} (h : FormatN opc i) : i.wellFormed = true := by
  cases h <;> rfl

theorem FormatB.encode_eq {opc : BitVec 8} {mk : BitVec 8 → BitVec 4 → Instr} (h : FormatB opc mk) (off : BitVec 8)
    (len : BitVec 4) : Sys2Proof.encode (mk off len) = wordB opc off len := by
  cases h <;> rfl

theorem FormatB.wellFormed_eq {opc : BitVec 8} {mk : BitVec 8 → BitVec 4 → Instr} (h : FormatB opc mk) (off : BitVec 8)
    (len : BitVec 4) : (mk off len).wellFormed = lenLegal len := by
  cases h <;> rfl

theorem FormatI.encode_eq {opc : BitVec 8} {mk : BitVec 8 → Instr} (h : FormatI opc mk) (imm : BitVec 8) :
    Sys2Proof.encode (mk imm) = wordI opc imm := by
  cases h <;> rfl

theorem FormatI.wellFormed {opc : BitVec 8} {mk : BitVec 8 → Instr} (h : FormatI opc mk) (imm : BitVec 8) :
    (mk imm).wellFormed = true := by
  cases h <;> rfl

/-! ### The decoder -/

section decode

variable {w : Word}

theorem decode_of_formatN {i : Instr} (h : FormatN (opcField w) i) : Sys2Proof.decode w = decodeN w i := by
  generalize hopc : opcField w = opc at h
  rw [Sys2Proof.decode, hopc]
  cases h <;> rfl

theorem decode_of_formatB {mk : BitVec 8 → BitVec 4 → Instr} (h : FormatB (opcField w) mk) :
    Sys2Proof.decode w = decodeB w mk := by
  generalize hopc : opcField w = opc at h
  rw [Sys2Proof.decode, hopc]
  cases h <;> rfl

theorem decode_of_formatI {mk : BitVec 8 → Instr} (h : FormatI (opcField w) mk) : Sys2Proof.decode w = decodeI w mk := by
  generalize hopc : opcField w = opc at h
  rw [Sys2Proof.decode, hopc]
  cases h <;> rfl

theorem decode_of_unknown (h : (opcField w).toNat ∉ opcodes) : Sys2Proof.decode w = .error .unknownOpcode := by
  unfold Sys2Proof.decode
  split <;> simp_all [opcodes]

end decode

/-! ### The illegal words -/

section illegalWord

variable {w : Word}

theorem illegalWord_of_formatN {i : Instr} (h : FormatN (opcField w) i) : illegalWord w = decide (w.toNat / 2 ^ 8 ≠ 0) := by
  simp only [illegalWord, ← toNat_opcField]
  generalize opcField w = opc at h
  cases h <;> rfl

theorem illegalWord_of_formatB {mk : BitVec 8 → BitVec 4 → Instr} (h : FormatB (opcField w) mk) :
    illegalWord w = (decide (w.toNat / 2 ^ 20 ≠ 0) || decide (10 < w.toNat / 2 ^ 16 % 16)) := by
  simp only [illegalWord, ← toNat_opcField]
  generalize opcField w = opc at h
  cases h <;> rfl

theorem illegalWord_of_formatI {mk : BitVec 8 → Instr} (h : FormatI (opcField w) mk) :
    illegalWord w = decide (w.toNat / 2 ^ 16 ≠ 0) := by
  simp only [illegalWord, ← toNat_opcField]
  generalize opcField w = opc at h
  cases h <;> rfl

theorem illegalWord_of_unknown (h : (opcField w).toNat ∉ opcodes) : illegalWord w = true := by
  rw [toNat_opcField] at h
  exact if_neg h

end illegalWord

end Sys2Proof
end

section
/-! SUPPORT. The two directions of the round trip of command words (30_encoding.md R100 to R105). -/

namespace Sys2Proof

variable {w : Word} {i : Instr}

/-- A word that decodes is the encoding of its command, by the row its opcode stands in. -/
theorem wellFormed_encode_of_decode (hdecode : Sys2Proof.decode w = .ok i) : i.wellFormed = true ∧ Sys2Proof.encode i = w := by
  rcases opcode_cases (opcField w) with ⟨j, h⟩ | ⟨mk, h⟩ | ⟨mk, h⟩ | h
  · rw [decode_of_formatN h, decodeN_eq_ok] at hdecode
    obtain ⟨hres, rfl⟩ := hdecode
    rw [h.encode_eq, wordN_eq_iff]
    exact ⟨h.wellFormed, rfl, hres⟩
  · rw [decode_of_formatB h, decodeB_eq_ok] at hdecode
    obtain ⟨hres, hlen, rfl⟩ := hdecode
    rw [h.encode_eq, h.wellFormed_eq, wordB_eq_iff]
    exact ⟨hlen, rfl, rfl, rfl, hres⟩
  · rw [decode_of_formatI h, decodeI_eq_ok] at hdecode
    obtain ⟨hres, rfl⟩ := hdecode
    rw [h.encode_eq, wordI_eq_iff]
    exact ⟨h.wellFormed _, rfl, rfl, hres⟩
  · rw [decode_of_unknown h] at hdecode
    cases hdecode

/-- The encoding of a command decodes to it, by the row the command stands in. -/
theorem decode_of_encode (hwf : i.wellFormed = true) (hencode : Sys2Proof.encode i = w) : Sys2Proof.decode w = .ok i := by
  rcases instr_cases i with ⟨opc, h⟩ | ⟨opc, mk, off, len, h, rfl⟩ | ⟨opc, mk, imm, h, rfl⟩
  · rw [h.encode_eq, wordN_eq_iff] at hencode
    obtain ⟨rfl, hres⟩ := hencode
    rw [decode_of_formatN h, decodeN_eq_ok]
    exact ⟨hres, rfl⟩
  · rw [h.encode_eq, wordB_eq_iff] at hencode
    rw [h.wellFormed_eq] at hwf
    obtain ⟨rfl, rfl, rfl, hres⟩ := hencode
    rw [decode_of_formatB h, decodeB_eq_ok]
    exact ⟨hres, hwf, rfl⟩
  · rw [h.encode_eq, wordI_eq_iff] at hencode
    obtain ⟨rfl, rfl, hres⟩ := hencode
    rw [decode_of_formatI h, decodeI_eq_ok]
    exact ⟨hres, rfl⟩

end Sys2Proof
end

section
/-! SUPPORT. The engine on a word that is no command (30_encoding.md R107). -/

namespace Sys2Proof.Machine

theorem engineTurn_of_illegal {s : State} {w : Word} {e : DecodeError} (hreset : s.inReset = false) (hrun : s.engine = .running w)
    (hdecode : Sys2Proof.decode w = .error e) : engineTurn s = .next (raiseError .illegalCmd w s) := by
  simp [engineTurn, hreset, hrun, hdecode]

end Sys2Proof.Machine
end

section
/-! The statements of 30_encoding.md. -/

namespace Sys2Proof.Encoding

open Sys2Proof.Machine

/-- Settles O1: the opcode fixes the row, and in a row both directions say the same of the fields and the reserved bits. -/
theorem decodeAndEncodeAgree : Obligations.DecodeAndEncodeAgree :=
  fun _ _ => ⟨wellFormed_encode_of_decode, fun ⟨hwf, hencode⟩ => decode_of_encode hwf hencode⟩

/-- Settles O2: the opcode fixes the row, and R107 lists what the row's format rejects. -/
theorem rejectedWordsAreTheIllegalOnes : Obligations.RejectedWordsAreTheIllegalOnes := by
  intro w
  rw [exists_error_iff]
  rcases opcode_cases (opcField w) with ⟨i, h⟩ | ⟨mk, h⟩ | ⟨mk, h⟩ | h
  · simp [illegalWord_of_formatN h, decode_of_formatN h, decodeN_eq_ok]
  · simp [illegalWord_of_formatB h, decode_of_formatB h, decodeB_eq_ok, lenLegal_lenField, imp_iff_not_or]
  · simp [illegalWord_of_formatI h, decode_of_formatI h, decodeI_eq_ok]
  · simp [illegalWord_of_unknown h, decode_of_unknown h]

/-- Settles O6: the write of CMD accepts the word (R77), and the decoder rejects it when the engine's turn comes. -/
theorem illegalCommandIsReported : Obligations.IllegalCommandIsReported := by
  have reported {s : State} {w : Word} (hreset : s.inReset = false) (hrun : s.engine = .running w)
      (hillegal : illegalWord w = true) : engineTurn s = .next (raiseError .illegalCmd w s) := by
    obtain ⟨e, hdecode⟩ := (rejectedWordsAreTheIllegalOnes w).mp hillegal
    exact engineTurn_of_illegal hreset hrun hdecode
  refine ⟨fun s w hreset hidle hillegal => ?_, fun s w hreset hrun hillegal => ⟨fun hp => ?_, fun es hp => ?_⟩⟩
  · exact ⟨_, BlockState.commandWriteIsAccepted s w hreset hidle, rfl, reported hreset rfl hillegal⟩
  · rw [step_of_no_pending s hp]
    exact reported hreset hrun hillegal
  · rw [step_of_pending s _ es hp]
    exact reported (s := { s with pending := es }) hreset hrun hillegal

/-- Settles O3: each word is the encoding of its command, which decodes to it. -/
theorem sampleWordsDecodeRight : Obligations.SampleWordsDecodeRight := by
  refine ⟨?_, ?_, ?_, ?_, ?_, ?_, ?_, ?_, ?_⟩ <;> exact decode_of_encode rfl rfl

end Sys2Proof.Encoding
end

section
/-! SUPPORT. The digits of a value, and the decoding of byte strings: encoding and decoding invert each other (40_base83.md R130,
R132). -/

namespace Sys2Proof.Machine

/-! ### The digits of a value -/

/-- The `L` digits that R130 writes for `v`, most significant first, before the alphabet. -/
def digitsOf (v L : Nat) : List Nat := (List.range L).map fun i => v / 83 ^ (L - 1 - i) % 83

theorem b83Digits_eq_map (v L : Nat) : b83Digits v L = (digitsOf v L).map alpha := by
  simp [b83Digits, digitsOf, Function.comp_def]

theorem b83Digits_getElem (v : Nat) {L k : Nat} (hk : k < (b83Digits v L).length) :
    (b83Digits v L)[k] = alpha (v / 83 ^ (L - 1 - k) % 83) := by
  simp [b83Digits]

@[simp] theorem digitsOf_length (v L : Nat) : (digitsOf v L).length = L := by simp [digitsOf]

theorem digitsOf_lt (v L : Nat) : ∀ d ∈ digitsOf v L, d < 83 := by
  intro d hd
  obtain ⟨i, -, rfl⟩ := List.mem_map.mp hd
  exact Nat.mod_lt _ (by decide)

/-- A value that fits in its digits is read back from them. -/
theorem foldl_digitsOf {v L : Nat} (h : v < 83 ^ L) : (digitsOf v L).foldl (fun a d => a * 83 + d) 0 = v :=
  (foldl_b83_digits v L).trans (Nat.mod_eq_of_lt h)

/-! ### The value of a digit string -/

/-- The decoder's loop reads a digit string as Mathlib's base-83 value of its digits, least significant first. -/
theorem foldl_eq_ofDigits (ds : List Nat) : ds.foldl (fun a d => a * 83 + d) 0 = Nat.ofDigits 83 ds.reverse := by
  rw [Nat.ofDigits_eq_foldr, List.foldr_reverse]
  exact List.foldl_ext _ _ _ fun a d _ => by rw [Nat.cast_id, Nat.mul_comm, Nat.add_comm]

theorem foldl_digits_lt {ds : List Nat} (hd : ∀ d ∈ ds, d < 83) : ds.foldl (fun a d => a * 83 + d) 0 < 83 ^ ds.length := by
  rw [foldl_eq_ofDigits, ← List.length_reverse]
  exact Nat.ofDigits_lt_base_pow_length (by decide) fun d h => hd d (List.mem_reverse.mp h)

/-- Digit strings of one length with one value are equal. -/
theorem eq_of_foldl_digits_eq {ds es : List Nat} (hlen : ds.length = es.length) (hd : ∀ d ∈ ds, d < 83) (he : ∀ d ∈ es, d < 83)
    (h : ds.foldl (fun a d => a * 83 + d) 0 = es.foldl (fun a d => a * 83 + d) 0) : ds = es := by
  rw [foldl_eq_ofDigits, foldl_eq_ofDigits] at h
  refine List.reverse_injective (Nat.ofDigits_inj_of_len_eq (by decide) (by simpa) ?_ ?_ h)
  · exact fun d hmem => hd d (List.mem_reverse.mp hmem)
  · exact fun d hmem => he d (List.mem_reverse.mp hmem)

/-- The digits of the value of a digit string are the string. -/
theorem digitsOf_foldl {ds : List Nat} (hd : ∀ d ∈ ds, d < 83) :
    digitsOf (ds.foldl (fun a d => a * 83 + d) 0) ds.length = ds :=
  eq_of_foldl_digits_eq (digitsOf_length _ _) (digitsOf_lt _ _) hd (foldl_digitsOf (foldl_digits_lt hd))

/-! ### The decoder of byte strings -/

/-- The loop of `B83D` succeeds exactly on the written form of a digit string. -/
theorem b83dFrom_eq_ok (k v w : Nat) (bs : List Byte) :
    b83dFrom k v bs = .ok w ↔
      ∃ ds : List Nat, (∀ d ∈ ds, d < 83) ∧ bs = ds.map alpha ∧ w = ds.foldl (fun a d => a * 83 + d) v := by
  induction bs generalizing k v with
  | nil => simp [b83dFrom, eq_comm]
  | cons b bs ih =>
    constructor
    · intro h
      cases hb : digit b with
      | none => simp [b83dFrom, hb] at h
      | some d =>
        simp only [b83dFrom, hb] at h
        obtain ⟨ds, hds, rfl, rfl⟩ := (ih _ _).mp h
        exact ⟨d :: ds, List.forall_mem_cons.mpr ⟨digit_lt hb, hds⟩, by rw [List.map_cons, alpha_of_digit hb], rfl⟩
    · rintro ⟨ds, hds, hbs, rfl⟩
      cases ds with
      | nil => cases hbs
      | cons d ds =>
        obtain ⟨hd, hds⟩ := List.forall_mem_cons.mp hds
        obtain ⟨rfl, rfl⟩ := List.cons.inj hbs
        simp only [b83dFrom, digit_alpha hd]
        exact (ih _ _).mpr ⟨ds, hds, rfl, rfl⟩

/-- `B83D` answers a value exactly on the digits of that value (R132, R134). -/
theorem b83d_eq_ok (bs : List Byte) (v : Nat) : b83d bs = .ok v ↔ v < 83 ^ bs.length ∧ b83Digits v bs.length = bs := by
  rw [b83d, b83dFrom_eq_ok]
  constructor
  · rintro ⟨ds, hds, rfl, rfl⟩
    rw [List.length_map, b83Digits_eq_map, digitsOf_foldl hds]
    exact ⟨foldl_digits_lt hds, rfl⟩
  · rintro ⟨hv, hbs⟩
    exact ⟨_, digitsOf_lt v bs.length, by rw [← b83Digits_eq_map, hbs], (foldl_digitsOf hv).symm⟩

/-! ### The alphabet -/

/-- The bytes of the digits are the alphabet in its order (R129). -/
theorem map_alpha_range : (List.range 83).map alpha = alphabet := by
  refine List.ext_getElem (by simp [alphabet_length]) fun i hi hlt => ?_
  rw [List.getElem_map, List.getElem_range, alpha, List.getD_eq_getElem _ _ hlt]

/-! ### The two commands -/

theorem exec_b83Enc {off : BitVec 8} {len : BitVec 4} {s : State} (hfit : off.toNat + len.toNat ≤ 256)
    (hv : s.opa.toNat < 83 ^ len.toNat) :
    exec (.b83Enc off len) s =
      .next (completed { s with mem := hashStore s.mem off.toNat (b83Digits s.opa.toNat len.toNat) }) :=
  exec_of_results_in_mem ((b83EncRun_eq_ok off len s _).mpr ⟨hfit, hv, rfl⟩)

theorem exec_b83Dec {off : BitVec 8} {len : BitVec 4} {s : State} {v : Nat} (hfit : off.toNat + len.toNat ≤ 256)
    (hv : hashValue s off.toNat len.toNat 0 = .ok v) :
    exec (.b83Dec off len) s = .next (completed { s with res := BitVec.ofNat 64 v }) :=
  (exec_eq_next _ s _).mpr (.inl ⟨_, (b83DecRun_eq_ok off len s _).mpr ⟨hfit, v, hv, rfl⟩, rfl⟩)

end Sys2Proof.Machine
end

section
/-! The statements of 40_base83.md. -/

namespace Sys2Proof.Base83

open Sys2Proof.Machine

/-- Settles O10: the store in HASH puts the digits there and leaves every other byte; the bytes of the digits are the model's
alphabet, which is R129's. -/
theorem b83EncWritesTheDigits : Obligations.B83EncWritesTheDigits := by
  refine ⟨fun s off len hfit hv => ⟨_, exec_b83Enc hfit hv, fun k hk => ?_, ?_⟩, map_alpha_range⟩
  · have hbyte := holdsBytes_hashStore s.mem off.toNat (b83Digits s.opa.toNat len.toNat) k (by simpa using hk)
    rwa [b83Digits_getElem, hashAddr, Nat.add_assoc] at hbyte
  · have hframe := sameOutside_hashStore s.mem off.toNat (b83Digits s.opa.toNat len.toNat)
    rwa [b83Digits_length] at hframe

/-- Settles O12: the loop over HASH finds the digits; ten of them stay below 83^10, which 64 bits hold. -/
theorem b83DecReadsTheValue : Obligations.B83DecReadsTheValue := by
  refine fun s off len ds hfit hlen hd hbytes => ⟨exec_b83Dec hfit ?_, fun hten => ?_⟩
  · exact (hashValue_eq_ok s _ _ 0 _).mpr ⟨ds, hlen, fun _ hj => hashDigit_of_holdsBytes hd hbytes hj, rfl⟩
  · calc ds.foldl (fun v d => v * 83 + d) 0
      _ < 83 ^ ds.length := foldl_digits_lt hd
      _ ≤ 83 ^ 10 := Nat.pow_le_pow_right (by decide) (hlen ▸ hten)
      _ < 2 ^ 64 := by decide

/-- Settles O14: digits and value determine each other, and B83_DEC reads the bytes B83_ENC stored. -/
theorem base83RoundTrip : Obligations.Base83RoundTrip := by
  refine ⟨fun v L hv => ⟨(b83e_eq_ok v L _).mpr ⟨hv, rfl⟩, (b83d_eq_ok _ v).mpr ?_⟩, fun bs v => (b83d_eq_ok bs v).mp,
    fun s t off len _ hexec hdone => ?_⟩
  · rw [b83Digits_length]
    exact ⟨hv, rfl⟩
  · obtain ⟨u, hrun, rfl⟩ := exists_runOf_of_done hexec hdone
    obtain ⟨hfit, hv, rfl⟩ := (b83EncRun_eq_ok off len _ _).mp hrun
    have hheld := holdsBytes_hashStore s.mem off.toNat (b83Digits s.opa.toNat len.toNat)
    have hres : BitVec.ofNat 64 s.opa.toNat = s.opa := by simp
    exact ⟨_, exec_b83Dec hfit (hashValue_of_b83Digits hv hheld), rfl, hres, rfl⟩

/-- Settles O11: the bounds are checked first, then whether the value fits. -/
theorem b83EncErrors : Obligations.B83EncErrors := by
  refine fun s off len => ⟨fun hbounds => ?_, fun hfit hlarge => ?_⟩
  · have hrun : runOf (.b83Enc off len) s = raise .bounds (Sys2Proof.encode (.b83Enc off len)).toNat := if_pos hbounds
    exact exec_of_stop hrun
  · have hdigits : b83e s.opa.toNat len.toNat = raise .invalidLength len.toNat := if_pos hlarge
    have hrun : runOf (.b83Enc off len) s = raise .invalidLength len.toNat := by
      simp [runOf, b83EncRun, Nat.not_lt.mpr hfit, hdigits, raise]
    exact exec_of_stop hrun

end Sys2Proof.Base83
end

section
/-! SUPPORT. The gamma table by its branches (41_gamma.md R140): the samples from 11 on lie past the end of the linear branch. -/

namespace Sys2Proof.Machine

theorem linLut_power {v : Byte} (h : fpLt (fpLit 4045 100000) (fpDiv (fpOfNat v.toNat) (fpLit 255 1)) = true) :
    linLut v =
      pow64 (fpDiv (fpAdd (fpDiv (fpOfNat v.toNat) (fpLit 255 1)) (fpLit 55 1000)) (fpLit 1055 1000)) (fpLit 24 10) := by
  have hnot : fpLe (fpDiv (fpOfNat v.toNat) (fpLit 255 1)) (fpLit 4045 100000) = false :=
    Bool.eq_false_iff.mpr fun hle => by simp [fpLt_eq_false_of_fpLe hle] at h
  simp only [linLut, hnot, Bool.false_eq_true, if_false]

/-- Rounding keeps a lower bound that is itself a pattern: the last pattern not above the quotient is at least the bound. -/
theorem le_fpRoundMag {n d k : Nat} (hd : 0 < d) (hk : k ≤ fpInfMag) (h : magUnits k * d ≤ n) : k ≤ fpRoundMag n d := by
  rcases Nat.lt_or_ge n (searchReach * d) with hreach | hlarge
  · obtain ⟨f, r, ⟨_, hgt, hr⟩, hround⟩ := fpRoundMag_nearest hd hreach
    have hkf : k < f + 1 := magUnits_strictMono.lt_iff_lt.mp (Nat.lt_of_mul_lt_mul_right (Nat.lt_of_le_of_lt h hgt))
    rw [hround]
    exact Nat.le_min.mpr ⟨by omega, hk⟩
  · rw [fpRoundMag_of_large hd hlarge]
    exact hk

theorem fpIsNan_fpRound (neg : Bool) (n d : Nat) : fpIsNan (fpRound neg n d) = false := by
  rw [fpIsNan, fpMag_fpRound, decide_eq_false_iff_not]
  exact Nat.not_lt.mpr (fpRoundMag_le n d)

theorem fpKey_fpRound_false (n d : Nat) : fpKey (fpRound false n d) = fpRoundMag n d := by
  rw [fpKey, fpSign_fpRound, fpMag_fpRound, if_neg Bool.false_ne_true]

/-- A rounded quotient without sign is above every finite literal whose next pattern is at most the exact quotient. -/
theorem fpLit_lt_fpRound {a b n d : Nat} (hd : 0 < d) (hfin : fpRoundMag (a * 2 ^ 1074) b < fpInfMag)
    (h : magUnits (fpRoundMag (a * 2 ^ 1074) b + 1) * d ≤ n) : fpLt (fpLit a b) (fpRound false n d) = true := by
  refine fpLt_iff.mpr ⟨fpIsNan_fpRound .., fpIsNan_fpRound .., ?_⟩
  rw [fpLit, fpKey_fpRound_false, fpKey_fpRound_false]
  exact Int.ofNat_lt.mpr (le_fpRoundMag hd hfin h)

theorem fpOfNat_exact {n : Nat} (h : n < 2 ^ 53) :
    fpIsFinite (fpOfNat n) = true ∧ fpSign (fpOfNat n) = false ∧ fpUnits (fpOfNat n) = n * 2 ^ 1074 := by
  obtain ⟨hfin, hval⟩ := fpOfInt_exact (z := n) h
  have hsign : fpSign (fpOfNat n) = false := fpSign_fpRound _ _ _
  rw [← fpOfNat, fpInt, hsign, fpSigned, if_neg Bool.false_ne_true] at hval
  exact ⟨hfin, hsign, Int.ofNat_inj.mp (by rw [hval, Nat.cast_mul, Nat.cast_pow, Nat.cast_ofNat])⟩

/-- `RN(n / 255.0)` is one rounding of the exact quotient. -/
theorem fpDiv_sample {n : Nat} (h : n < 2 ^ 53) :
    fpDiv (fpOfNat n) (fpLit 255 1) = fpRound false (n * 2 ^ 1074 * 2 ^ 1074) (255 * 2 ^ 1074) := by
  obtain ⟨hfin, hsign, hunits⟩ := fpOfNat_exact h
  have hden : fpUnits (fpLit 255 1) = 255 * 2 ^ 1074 := by decide +kernel
  have hpos : fpSign (fpLit 255 1) = false := fpSign_fpRound _ _ _
  rw [fpDiv_of_finite hfin (by decide +kernel) (by rw [hden]; positivity), hsign, hpos, hunits, hden, Bool.xor_false]

/-- From 11 on, `RN(n / 255.0)` is above 0.04045 (R140: 10/255 ≤ 0.04045 < 11/255). -/
theorem linear_end_lt_sample {n : Nat} (h11 : 11 ≤ n) (h : n < 2 ^ 53) :
    fpLt (fpLit 4045 100000) (fpDiv (fpOfNat n) (fpLit 255 1)) = true := by
  have hbound : magUnits (fpRoundMag (4045 * 2 ^ 1074) 100000 + 1) * (255 * 2 ^ 1074) ≤ 11 * 2 ^ 1074 * 2 ^ 1074 := by
    decide +kernel
  rw [fpDiv_sample h]
  refine fpLit_lt_fpRound (by positivity) (by decide +kernel) (Nat.le_trans hbound ?_)
  exact Nat.mul_le_mul_right _ (Nat.mul_le_mul_right _ h11)

theorem linLut_of_eleven_le {v : Byte} (h : 11 ≤ v.toNat) :
    linLut v =
      pow64 (fpDiv (fpAdd (fpDiv (fpOfNat v.toNat) (fpLit 255 1)) (fpLit 55 1000)) (fpLit 1055 1000)) (fpLit 24 10) :=
  linLut_power (linear_end_lt_sample h (Nat.lt_trans v.isLt (by decide)))

/-- The base of the power branch at 255 is 1.0 after its roundings, so the entry is 1.0 whatever POW64 is (R8, R140). -/
theorem linLut_255 : linLut 255 = fpOne := by
  have hbase : fpDiv (fpAdd (fpDiv (fpOfNat 255) (fpLit 255 1)) (fpLit 55 1000)) (fpLit 1055 1000) = fpOne := by
    decide +kernel
  calc linLut 255
    _ = pow64 fpOne (fpLit 24 10) := by rw [← hbase]; exact linLut_of_eleven_le (by decide)
    _ = fpOne := pow64_one (by decide +kernel)

end Sys2Proof.Machine
end

section
/-! SUPPORT. The commands with a binary64 operand that must be finite (41_gamma.md R143, 42_quantizer.md R153 to R155). -/

namespace Sys2Proof.Machine

/-- The operand check in terms of the exponent field: all ones exactly for a NaN and the infinities. -/
theorem fpIsFinite_iff_not_expAllOnes {x : F64} : fpIsFinite x = true ↔ ¬expAllOnes x := by
  rw [fpIsFinite_iff, fpMag, fpInfMag, expAllOnes]
  omega

theorem finiteOperand_of_expAllOnes {x : F64} (k : Nat) (h : expAllOnes x) : finiteOperand k x = raise .operand k :=
  finiteOperand_of_not k (Bool.eq_false_iff.mpr fun hfin => fpIsFinite_iff_not_expAllOnes.mp hfin h)

/-- A command that succeeds completes with its results and changes nothing else but BUSY and DONE. -/
theorem exec_of_results {i : Instr} {s u : State} (h : runOf i s = .ok u) : exec i s = .next (completed u) :=
  (exec_eq_next _ _ _).mpr (.inl ⟨u, h, rfl⟩)

/-- A command that checks an operand first fails with OPERAND where the operand is a NaN or an infinity. -/
theorem exec_of_operand_not_finite {i : Instr} {s : State} {k : Nat} {x : F64} {f : F64 → Except Stop State}
    (hrun : runOf i s = finiteOperand k x >>= f) (h : expAllOnes x) : exec i s = .next (failedWith 10 k s) := by
  rw [finiteOperand_of_expAllOnes k h, raise_bind] at hrun
  exact exec_of_stop hrun

end Sys2Proof.Machine
end

section
/-! The statements of 41_gamma.md and of the commands with one finite operand. -/

namespace Sys2Proof.Gamma

open Sys2Proof.Machine

/-- Settles O15: the linear entries are computed; those from 11 on lie past the end of the linear branch, and at 255 the power
branch has base 1.0. -/
theorem gammaDecLooksUp : Obligations.GammaDecLooksUp :=
  ⟨fun _ _ => exec_of_results rfl, by decide +kernel, linLut_255, fun _ => linLut_of_eleven_le⟩

/-- Settles O16: each command checks its operand and then stores its function of it in RES. -/
theorem finiteOperandCommands : Obligations.FiniteOperandCommands := by
  refine fun s => ⟨fun ha => ?_, fun ha => ?_, fun imm => ⟨fun hb => ?_, fun hb => ?_⟩⟩
  · have hfin := fpIsFinite_iff_not_expAllOnes.mpr ha
    exact ⟨exec_of_results ((gammaEncRun_eq_ok s _).mpr ⟨hfin, rfl⟩), exec_of_results ((quantMaxRun_eq_ok s _).mpr ⟨hfin, rfl⟩)⟩
  · exact ⟨exec_of_operand_not_finite rfl ha, exec_of_operand_not_finite rfl ha⟩
  · have hfin := fpIsFinite_iff_not_expAllOnes.mpr hb
    exact exec_of_results ((dequantAcRun_eq_ok imm s _).mpr ⟨hfin, rfl⟩)
  · exact exec_of_operand_not_finite rfl hb

end Sys2Proof.Gamma
end

section
/-! SUPPORT. The operand check of QUANT_AC (42_quantizer.md R154): which finite divisors are at or below 0, by their pattern. -/

namespace Sys2Proof.Machine

theorem fpIsNan_of_finite {x : F64} (h : fpIsFinite x = true) : fpIsNan x = false :=
  decide_eq_false (Nat.lt_asymm (fpIsFinite_iff.mp h))

/-- A finite value is at or below 0 where its sign is set or it is +0.0. -/
theorem fpLe_zero_iff {x : F64} (h : fpIsFinite x = true) : fpLe x fpZero = true ↔ x = 0 ∨ 2 ^ 63 ≤ x.toNat := by
  have hzero : x = 0 ↔ x.toNat = 0 := BitVec.toNat_inj.symm
  have hkey : fpKey fpZero = 0 := by decide
  rw [fpLe_iff, and_iff_right (fpIsNan_of_finite h), and_iff_right (by decide), hkey, hzero, fpKey, fpSign, fpMag]
  simp only [decide_eq_true_eq]
  split <;> omega

theorem fpLt_zero_left_iff {x : F64} (h : fpIsFinite x = true) :
    fpLt fpZero x = true ↔ fpSign x = false ∧ fpMag x ≠ 0 := by
  have hkey : fpKey fpZero = 0 := by decide
  rw [fpLt_iff, and_iff_right (by decide), and_iff_right (fpIsNan_of_finite h), hkey, fpKey]
  cases fpSign x with
  | false => simp [Nat.pos_iff_ne_zero]
  | true => simp

/-- QUANT_AC fails with OPERAND(1) where OPA is finite and OPB is not, or is not above 0. -/
theorem quantAcRun_of_bad_divisor {s : State} (ha : fpIsFinite s.opa = true)
    (hb : fpIsFinite s.opb = false ∨ fpLe s.opb fpZero = true) : quantAcRun s = raise .operand opbIndex := by
  rw [quantAcRun, finiteOperand_of_finite _ ha, ok_bind]
  cases hfin : fpIsFinite s.opb with
  | false => rw [finiteOperand_of_not _ hfin, raise_bind]
  | true =>
    have hle : fpLe s.opb fpZero = true := hb.resolve_left (by simp [hfin])
    rw [finiteOperand_of_finite _ hfin, ok_bind, if_pos hle]

end Sys2Proof.Machine
end

section
/-! SUPPORT. Exact roundings (00_scope.md R11): a quotient that is a pattern's value, and a fraction that is not in lowest terms. -/

namespace Sys2Proof.Machine

theorem magUnits_lt_overflow {k : Nat} (h : k < fpInfMag) : magUnits k < fpOverflow := by
  have hlast : magUnits k ≤ magUnits (fpInfMag - 1) := magUnits_strictMono.monotone (by omega)
  have hinf : magUnits (fpInfMag - 1) < magUnits fpInfMag := magUnits_strictMono (by decide)
  have := magUnits_overflow
  omega

/-- Rounding keeps an upper bound that is itself a pattern. -/
theorem fpRoundMag_le_of_le {n d k : Nat} (hd : 0 < d) (h : n ≤ magUnits k * d) : fpRoundMag n d ≤ k := by
  rcases Nat.lt_or_ge k fpInfMag with hk | hk
  · have hlt : n < fpOverflow * d := Nat.lt_of_le_of_lt h (Nat.mul_lt_mul_of_pos_right (magUnits_lt_overflow hk) hd)
    obtain ⟨f, hle, _, hr⟩ := fpRoundMag_nearest_of_lt hd hlt
    have hfk : f ≤ k := magUnits_strictMono.le_iff_le.mp (Nat.le_of_mul_le_mul_right (Nat.le_trans hle h) hd)
    rcases Nat.lt_or_eq_of_le hfk with hlt | rfl
    · omega
    · have hnext : magUnits f * d < magUnits (f + 1) * d :=
        Nat.mul_lt_mul_of_pos_right (magUnits_strictMono (Nat.lt_succ_self f)) hd
      rw [Nat.add_mul] at hr
      omega
  · exact Nat.le_trans (fpRoundMag_le n d) hk

/-- Rounding keeps the value of a pattern. -/
theorem fpRoundMag_magUnits {d k : Nat} (hd : 0 < d) (hk : k ≤ fpInfMag) : fpRoundMag (magUnits k * d) d = k :=
  Nat.le_antisymm (fpRoundMag_le_of_le hd le_rfl) (le_fpRoundMag hd hk le_rfl)

theorem fpRoundMag_zero {d : Nat} (hd : 0 < d) : fpRoundMag 0 d = 0 := by
  simpa [magUnits] using fpRoundMag_magUnits hd (Nat.zero_le fpInfMag)

/-- A common factor of the fraction does not change what it rounds to. -/
theorem fpRoundMag_mul_right (n d : Nat) {c : Nat} (hc : 0 < c) : fpRoundMag (n * c) (d * c) = fpRoundMag n d := by
  have hden (e : Nat) : d * c * 2 ^ e = d * 2 ^ e * c := Nat.mul_right_comm ..
  have hhalf (den r : Nat) : den * c < 2 * (r * c) ↔ den < 2 * r := by
    rw [← Nat.mul_assoc, Nat.mul_lt_mul_right hc]
  have htie (den r : Nat) : 2 * (r * c) = den * c ↔ 2 * r = den := by
    rw [← Nat.mul_assoc, Nat.mul_left_inj hc.ne']
  simp only [fpRoundMag, hden, Nat.mul_div_mul_right _ _ hc, Nat.mul_mod_mul_right, hhalf, htie]

theorem fpUnits_eq_zero_iff {x : F64} (h : fpIsFinite x = true) : fpUnits x = 0 ↔ fpMag x = 0 := by
  rw [fpUnits_eq_magUnits h]
  exact magUnits_strictMono.injective.eq_iff (b := 0)

/-- A factor of 1.0 or -1.0 changes the sign only. -/
theorem fpMul_of_unit {t x : F64} (ht : fpIsFinite t = true) (hunit : fpUnits t = 2 ^ 1074) (hx : fpIsFinite x = true) :
    fpMul t x = fpPack (fpSign t ^^ fpSign x) (fpMag x) := by
  have hd : 0 < 2 ^ 1074 := pow_pos two_pos 1074
  rw [fpMul_of_finite ht hx, hunit, fpUnits_eq_magUnits hx, Nat.mul_comm, fpRound,
    fpRoundMag_magUnits hd (Nat.le_of_lt (fpIsFinite_iff.mp hx))]

theorem fpMul_of_zero {t x : F64} (ht : fpIsFinite t = true) (hzero : fpUnits t = 0) (hx : fpIsFinite x = true) :
    fpMul t x = fpPack (fpSign t ^^ fpSign x) 0 := by
  rw [fpMul_of_finite ht hx, hzero, Nat.zero_mul, fpRound, fpRoundMag_zero (Nat.two_pow_pos 1074)]

theorem fpDiv_of_zero {x m : F64} (hx : fpIsFinite x = true) (hzero : fpUnits x = 0) (hm : fpIsFinite m = true)
    (hm0 : fpUnits m ≠ 0) : fpDiv x m = fpPack (fpSign x ^^ fpSign m) 0 := by
  rw [fpDiv_of_finite hx hm hm0, hzero, Nat.zero_mul, fpRound, fpRoundMag_zero (Nat.pos_of_ne_zero hm0)]

/-- A quotient of equal magnitudes is 1.0 or -1.0. -/
theorem fpDiv_of_same_units {x m : F64} (hx : fpIsFinite x = true) (hm : fpIsFinite m = true) (hm0 : fpUnits m ≠ 0)
    (h : fpUnits x = fpUnits m) : fpDiv x m = fpPack (fpSign x ^^ fpSign m) (fpMag fpOne) := by
  have hone : magUnits (fpMag fpOne) = 2 ^ 1074 := by decide +kernel
  rw [fpDiv_of_finite hx hm hm0, h, Nat.mul_comm, ← hone, fpRound,
    fpRoundMag_magUnits (Nat.pos_of_ne_zero hm0) (by decide)]

end Sys2Proof.Machine
end

section
/-! SUPPORT. The quantizers at the values their rules name (42_quantizer.md R152 to R157). -/

namespace Sys2Proof.Machine

/-! ### The maximum quantizer -/

/-- Not a NaN, and the sign set: the values at or below -0.0, with -inf. -/
structure NegSigned (x : F64) : Prop where
  notNan : fpIsNan x = false
  sign : fpSign x = true

theorem NegSigned.inf_or_finite {x : F64} (h : NegSigned x) : fpMag x = fpInfMag ∨ fpIsFinite x = true := by
  have hle : fpMag x ≤ fpInfMag := Nat.not_lt.mp (of_decide_eq_false h.notNan)
  exact (Nat.eq_or_lt_of_le hle).imp_right fpIsFinite_iff.mpr

theorem negSigned_fpPack {mag : Nat} (h : mag ≤ fpInfMag) : NegSigned (fpPack true mag) := by
  have hlt : mag < 2 ^ 63 := Nat.lt_of_le_of_lt h fpInfMag_lt
  refine ⟨?_, fpSign_fpPack true hlt⟩
  rw [fpIsNan, fpMag_fpPack true hlt]
  exact decide_eq_false (Nat.not_lt.mpr h)

theorem negSigned_fpRound (n d : Nat) : NegSigned (fpRound true n d) := negSigned_fpPack (fpRoundMag_le n d)

theorem negSigned_of_fpLt_zero {x : F64} (h : fpLt x fpZero = true) : NegSigned x := by
  obtain ⟨hnan, _, hkey⟩ := fpLt_iff.mp h
  refine ⟨hnan, by_contra fun hs => ?_⟩
  rw [fpKey, if_neg hs, show fpKey fpZero = 0 by decide] at hkey
  omega

theorem NegSigned.fpMul {x y : F64} (h : NegSigned x) (hy : fpIsFinite y = true) (hs : fpSign y = false)
    (h0 : fpUnits y ≠ 0) : NegSigned (fpMul x y) := by
  rcases h.inf_or_finite with hinf | hfin
  · obtain ⟨k, f, hv, hu⟩ := fpView_units hy
    have hk : k ≠ 0 := fun hk => h0 (by rw [hu, hk, Nat.zero_mul])
    have hmul : Machine.fpMul x y = fpPack true fpInfMag := by simp [Machine.fpMul, fpView_of_inf hinf, hv, hk, h.sign, hs]
    rw [hmul]
    exact negSigned_fpPack le_rfl
  · rw [fpMul_of_finite hfin hy, h.sign, hs]
    exact negSigned_fpRound _ _

theorem NegSigned.fpAdd {x y : F64} (h : NegSigned x) (hy : fpIsFinite y = true) (hs : fpSign y = true) :
    NegSigned (fpAdd x y) := by
  rcases h.inf_or_finite with hinf | hfin
  · rwa [fpAdd_inf_left hinf hy]
  · have hx : fpInt x ≤ 0 := by simp [fpInt, fpSigned, h.sign]
    have hy' : fpInt y ≤ 0 := by simp [fpInt, fpSigned, hs]
    rw [fpAdd_of_finite hfin hy]
    split
    · rw [h.sign, hs]
      exact negSigned_fpPack (Nat.zero_le _)
    · rw [decide_eq_true (by omega)]
      exact negSigned_fpRound _ _

/-- No floor above 0, so a clamp from 0 on gives 0. -/
theorem NegSigned.clampi_floor {x : F64} (h : NegSigned x) {hi : Int} (hhi : 0 ≤ hi) : clampi (fpFloor x) 0 hi = 0 := by
  have hpos : (0 : Int) < (2 ^ 1074 : Nat) := Int.natCast_pos.mpr (pow_pos two_pos 1074)
  rcases h.inf_or_finite with hinf | hfin
  · simp only [fpFloor, fpView_of_inf hinf, h.sign, if_true, clampi]
  · have hint : fpInt x ≤ 0 := by simp [fpInt, fpSigned, h.sign]
    have hfloor : fpInt x / (2 ^ 1074 : Nat) ≤ 0 := Int.ediv_nonpos_of_nonpos_of_neg hint hpos
    rw [fpFloor_of_finite hfin, clampi]
    generalize fpInt x / (2 ^ 1074 : Nat) = z at *
    split <;> omega

/-- Below 0 the product and the difference keep their sign, down to -inf. -/
theorem qmaxf_of_neg {a : F64} (h : fpLt a fpZero = true) : qmaxf a = 0 := by
  have hmul : NegSigned (fpMul a (fpLit 166 1)) :=
    (negSigned_of_fpLt_zero h).fpMul (by decide +kernel) (by decide +kernel) (by decide +kernel)
  have hsub : NegSigned (fpSub (fpMul a (fpLit 166 1)) (fpLit 1 2)) := hmul.fpAdd (by decide +kernel) (by decide +kernel)
  rw [qmaxf, hsub.clampi_floor (by decide), Int.toNat_zero]

/-! ### The normalisation value -/

/-- `MAXV(q)` is one rounding of `(q + 1) / 166` (R152). -/
theorem maxv_eq_fpRound {q : Nat} (h : q + 1 < 2 ^ 53) : maxv q = fpRound false ((q + 1) * 2 ^ 1074) 166 := by
  obtain ⟨hfin, hsign, hunits⟩ := fpOfNat_exact h
  have hden : fpUnits (fpLit 166 1) = 166 * 2 ^ 1074 := by decide +kernel
  have hpos : fpSign (fpLit 166 1) = false := fpSign_fpRound _ _ _
  rw [maxv, fpDiv_of_finite hfin (by decide +kernel) (by rw [hden]; positivity), hsign, hpos, hunits, hden, Bool.xor_false,
    fpRound, fpRoundMag_mul_right _ _ (pow_pos two_pos 1074), fpRound]

/-! ### The dequantizer -/

/-- The factor of level `q`, `t * |t|` for `t = (q - 9) / 9` (R155). -/
def levelFactor (q : Nat) : F64 :=
  fpMul (fpDiv (fpOfInt ((q : Int) - 9)) (fpLit 9 1)) (fpAbs (fpDiv (fpOfInt ((q : Int) - 9)) (fpLit 9 1)))

theorem dqf_eq (q : Nat) (m : F64) : dqf q m = fpMul (levelFactor q) m := rfl

theorem levelFactor_18 : levelFactor 18 = fpOne := by decide +kernel

theorem levelFactor_0 : levelFactor 0 = fpMinusOne := by decide +kernel

theorem levelFactor_9 : levelFactor 9 = fpZero := by decide +kernel

theorem fpUnits_fpOne : fpUnits fpOne = 2 ^ 1074 := by decide +kernel

theorem fpUnits_fpMinusOne : fpUnits fpMinusOne = 2 ^ 1074 := by decide +kernel

theorem fpUnits_fpZero : fpUnits fpZero = 0 := by decide

theorem dqf_18 {m : F64} (h : fpIsFinite m = true) : dqf 18 m = m := by
  rw [dqf_eq, levelFactor_18, fpMul_of_unit (by decide) fpUnits_fpOne h, show fpSign fpOne = false by decide,
    Bool.false_xor, fpPack_sign_mag]

theorem dqf_0 {m : F64} (h : fpIsFinite m = true) : dqf 0 m = fpNeg m := by
  rw [dqf_eq, levelFactor_0, fpMul_of_unit (by decide) fpUnits_fpMinusOne h, show fpSign fpMinusOne = true by decide,
    Bool.true_xor, fpNeg]

theorem dqf_9 {m : F64} (h : fpIsFinite m = true) : dqf 9 m = fpPack (fpSign m) 0 := by
  rw [dqf_eq, levelFactor_9, fpMul_of_zero (by decide) fpUnits_fpZero h, show fpSign fpZero = false by decide,
    Bool.false_xor]

/-! ### The AC quantizer -/

/-- The level of the normalised value `t = v / m` (R154). -/
def levelOf (t : F64) : Nat :=
  (clampi (fpFloor (fpAdd (fpMul (signSqrt t) (fpLit 9 1)) (fpLit 95 10))) 0 18).toNat

theorem qacf_eq (v m : F64) : qacf v m = levelOf (fpDiv v m) := rfl

theorem levelOf_zero (s : Bool) : levelOf (fpPack s 0) = 9 := by
  cases s <;> decide +kernel

theorem levelOf_one : levelOf (fpPack false (fpMag fpOne)) = 18 := by decide +kernel

theorem levelOf_minusOne : levelOf (fpPack true (fpMag fpOne)) = 0 := by decide +kernel

section divisor
variable {m : F64} (hm : fpIsFinite m = true) (hpos : fpLt fpZero m = true)
include hm hpos

theorem fpUnits_ne_zero_of_pos : fpUnits m ≠ 0 :=
  mt (fpUnits_eq_zero_iff hm).mp ((fpLt_zero_left_iff hm).mp hpos).2

/-- Either zero is quantized to the middle level. -/
theorem qacf_of_zero {v : F64} (hv : fpIsFinite v = true) (hzero : fpUnits v = 0) : qacf v m = 9 := by
  rw [qacf_eq, fpDiv_of_zero hv hzero hm (fpUnits_ne_zero_of_pos hm hpos), levelOf_zero]

theorem qacf_self : qacf m m = 18 := by
  rw [qacf_eq, fpDiv_of_same_units hm hm (fpUnits_ne_zero_of_pos hm hpos) rfl, Bool.xor_self, levelOf_one]

theorem qacf_fpNeg_self : qacf (fpNeg m) m = 0 := by
  have hunits : fpUnits (fpNeg m) = fpUnits m := by
    rw [fpUnits_eq_magUnits (fpIsFinite_fpNeg hm), fpMag_fpNeg, ← fpUnits_eq_magUnits hm]
  rw [qacf_eq, fpDiv_of_same_units (fpIsFinite_fpNeg hm) hm (fpUnits_ne_zero_of_pos hm hpos) hunits, fpSign_fpNeg,
    Bool.not_xor_self, levelOf_minusOne]

end divisor

/-! ### The packing of fields -/

theorem acd_packed {a b c : Nat} (m : F64) (hb : b < 19) (hc : c < 19) :
    acd (a * 361 + b * 19 + c) m = ⟨dqf a m, dqf b m, dqf c m⟩ := by
  have hr : (a * 361 + b * 19 + c) / 361 = a := by omega
  have hg : (a * 361 + b * 19 + c) / 19 % 19 = b := by omega
  have hb' : (a * 361 + b * 19 + c) % 19 = c := by omega
  rw [acd, hr, hg, hb']

theorem dcd_packed (r g b : Byte) :
    dcd (r.toNat * 65536 + g.toNat * 256 + b.toNat) = ⟨linLut r, linLut g, linLut b⟩ := by
  have byte {n : Nat} {x : Byte} (h : n % 256 = x.toNat) : BitVec.ofNat 8 n = x :=
    BitVec.eq_of_toNat_eq ((BitVec.toNat_ofNat n 8).trans h)
  rw [dcd, byte (x := r) (by omega), byte (x := g) (by omega), byte (x := b) (by omega)]

end Sys2Proof.Machine
end

section
/-! SUPPORT. Relative error, counted in steps of `2^-52` (00_scope.md R11): what rounding puts between two numbers, and how the steps
of a chain of operations add up. -/

namespace Sys2Proof.Machine

/-- The ratio of two neighbouring significands is at most this. -/
def relStep : ℚ := 1 + 1 / 2 ^ 52

theorem one_le_relStep : 1 ≤ relStep := by norm_num [relStep]

theorem relStep_pow_pos (k : Nat) : 0 < relStep ^ k := pow_pos (lt_of_lt_of_le one_pos one_le_relStep) k

theorem one_le_relStep_pow (k : Nat) : 1 ≤ relStep ^ k := one_le_pow₀ one_le_relStep

/-- `a` and `b` lie within `k` steps of each other. -/
structure Near (k : Nat) (a b : ℚ) : Prop where
  le : a ≤ b * relStep ^ k
  ge : b ≤ a * relStep ^ k

namespace Near

variable {i j k : Nat} {a b c d : ℚ}

theorem trans (hab : Near i a b) (hbc : Near j b c) : Near (i + j) a c where
  le := calc
    a ≤ b * relStep ^ i := hab.le
    _ ≤ c * relStep ^ j * relStep ^ i := mul_le_mul_of_nonneg_right hbc.le (relStep_pow_pos i).le
    _ = c * relStep ^ (i + j) := by ring
  ge := calc
    c ≤ b * relStep ^ j := hbc.ge
    _ ≤ a * relStep ^ i * relStep ^ j := mul_le_mul_of_nonneg_right hab.ge (relStep_pow_pos j).le
    _ = a * relStep ^ (i + j) := by ring

theorem mul (hab : Near i a b) (hcd : Near j c d) (ha : 0 ≤ a) (hb : 0 ≤ b) (hc : 0 ≤ c) (hd : 0 ≤ d) :
    Near (i + j) (a * c) (b * d) where
  le := calc
    a * c ≤ b * relStep ^ i * (d * relStep ^ j) :=
      mul_le_mul hab.le hcd.le hc (mul_nonneg hb (relStep_pow_pos i).le)
    _ = b * d * relStep ^ (i + j) := by ring
  ge := calc
    b * d ≤ a * relStep ^ i * (c * relStep ^ j) :=
      mul_le_mul hab.ge hcd.ge hd (mul_nonneg ha (relStep_pow_pos i).le)
    _ = a * c * relStep ^ (i + j) := by ring

theorem scale (hab : Near i a b) (hc : 0 ≤ c) : Near i (a * c) (b * c) where
  le := (mul_le_mul_of_nonneg_right hab.le hc).trans_eq (mul_right_comm ..)
  ge := (mul_le_mul_of_nonneg_right hab.ge hc).trans_eq (mul_right_comm ..)

/-- The sides of two squares are as near as the squares. -/
theorem of_sq (h : Near k (a ^ 2) (b ^ 2)) (ha : 0 ≤ a) (hb : 0 ≤ b) : Near k a b := by
  have side {x y : ℚ} (hy : 0 ≤ y) (hxy : x ^ 2 ≤ y ^ 2 * relStep ^ k) : x ≤ y * relStep ^ k := by
    refine le_of_sq_le_sq (hxy.trans ?_) (mul_nonneg hy (relStep_pow_pos k).le)
    rw [mul_pow]
    exact mul_le_mul_of_nonneg_left (le_self_pow₀ (one_le_relStep_pow k) two_ne_zero) (sq_nonneg y)
  exact ⟨side hb h.le, side ha h.ge⟩

/-- Either end of an interval that spans at most `k` steps is near to all of it. -/
theorem of_between {lo hi x : ℚ} (h0 : 0 ≤ lo) (hspan : hi ≤ lo * relStep ^ k) (hlo : lo ≤ x) (hhi : x ≤ hi)
    (ha : a = lo ∨ a = hi) : Near k a x := by
  have grow {y : ℚ} (hy : 0 ≤ y) : y ≤ y * relStep ^ k := le_mul_of_one_le_right hy (one_le_relStep_pow k)
  have hx : 0 ≤ x := h0.trans hlo
  rcases ha with rfl | rfl
  · exact ⟨hlo.trans (grow hx), hhi.trans hspan⟩
  · exact ⟨hspan.trans (mul_le_mul_of_nonneg_right hlo (relStep_pow_pos k).le), hhi.trans (grow (hx.trans hhi))⟩

/-- Up to ten steps move a number by less than one part in a hundred. -/
theorem within_percent (h : Near k a b) (hk : k ≤ 10) (ha : 0 ≤ a) (hb : 0 ≤ b) : a ≤ b * 1.01 ∧ b ≤ a * 1.01 := by
  have hsmall : relStep ^ k ≤ 1.01 := (pow_le_pow_right₀ one_le_relStep hk).trans (by norm_num [relStep])
  exact ⟨h.le.trans (mul_le_mul_of_nonneg_left hsmall hb), h.ge.trans (mul_le_mul_of_nonneg_left hsmall ha)⟩

end Near

/-- Within `2^-n` and `2^n`: far from underflow and overflow for small `n`. -/
structure InBand (n : Nat) (a : ℚ) : Prop where
  lower : 1 ≤ a * 2 ^ n
  upper : a ≤ 2 ^ n

namespace InBand

variable {n k : Nat} {a b : ℚ}

theorem pos (h : InBand n a) : 0 < a := pos_of_mul_pos_left (one_pos.trans_le h.lower) (by positivity)

theorem mono (h : InBand n a) (hnk : n ≤ k) : InBand k a := by
  have hpow : (2 : ℚ) ^ n ≤ 2 ^ k := pow_le_pow_right₀ one_le_two hnk
  exact ⟨h.lower.trans (mul_le_mul_of_nonneg_left hpow h.pos.le), h.upper.trans hpow⟩

theorem mul (ha : InBand n a) (hb : InBand k b) : InBand (n + k) (a * b) where
  lower := calc
    1 ≤ a * 2 ^ n * (b * 2 ^ k) := one_le_mul_of_one_le_of_one_le ha.lower hb.lower
    _ = a * b * 2 ^ (n + k) := by ring
  upper := calc
    a * b ≤ 2 ^ n * 2 ^ k := mul_le_mul ha.upper hb.upper hb.pos.le (by positivity)
    _ = 2 ^ (n + k) := by ring

theorem of_near (h : Near k a b) (hb : InBand n b) (ha : 0 ≤ a) (hk : k ≤ 10) : InBand (n + 1) a := by
  obtain ⟨hle, hge⟩ := h.within_percent hk ha hb.pos.le
  have hlower : b * 2 ^ n ≤ a * 1.01 * 2 ^ n := mul_le_mul_of_nonneg_right hge (by positivity)
  have := hb.lower
  have := hb.upper
  have : 0 ≤ a * 2 ^ n := by positivity
  constructor <;> rw [pow_succ] <;> linarith

end InBand

end Sys2Proof.Machine
end

section
/-! SUPPORT. The relative error of each operation, away from underflow and overflow: one step a rounding (00_scope.md R11). -/

namespace Sys2Proof.Machine

/-! ### Magnitudes as rational numbers -/

/-- The units in 1.0. -/
def fpScale : ℚ := 2 ^ 1074

theorem fpScale_pos : 0 < fpScale := pow_pos two_pos 1074

theorem natCast_fpScale : ((2 ^ 1074 : Nat) : ℚ) = fpScale := by rw [fpScale, Nat.cast_pow, Nat.cast_ofNat]

/-- The magnitude of a finite value. -/
def fpSize (x : F64) : ℚ := fpUnits x / fpScale

theorem fpUnits_eq_fpSize (x : F64) : (fpUnits x : ℚ) = fpSize x * fpScale := (div_mul_cancel₀ _ fpScale_pos.ne').symm

theorem fpSize_nonneg (x : F64) : 0 ≤ fpSize x := div_nonneg (Nat.cast_nonneg _) fpScale_pos.le

theorem fpSize_fpPack (s : Bool) {k : Nat} (h : k < fpInfMag) : fpSize (fpPack s k) = magUnits k / fpScale := by
  have h63 : k < 2 ^ 63 := Nat.lt_trans h fpInfMag_lt
  have hfin : fpIsFinite (fpPack s k) = true := by rw [fpIsFinite_fpPack s h63, decide_eq_true h]
  rw [fpSize, fpUnits_eq_magUnits hfin, fpMag_fpPack s h63]

/-! ### Neighbouring patterns -/

/-- Above the subnormals neighbouring patterns are one step apart. -/
theorem magUnits_succ_le {f : Nat} (h : 2 ^ 52 ≤ f) : (magUnits (f + 1) : ℚ) ≤ magUnits f * relStep := by
  obtain ⟨e, q, rfl, hnormal, hq⟩ := exists_significand f
  have hq' : 2 ^ 52 ≤ q := by omega
  rw [Nat.add_assoc, magUnits_pattern hnormal (Nat.le_of_lt hq), magUnits_pattern (by omega) hq]
  have hq52 : (2 : ℚ) ^ 52 ≤ q := by exact_mod_cast hq'
  have hstep : ((q + 1 : Nat) : ℚ) ≤ q * relStep := by
    rw [relStep, Nat.cast_succ]
    linarith
  calc (((q + 1) * 2 ^ e : Nat) : ℚ) = (q + 1 : Nat) * 2 ^ e := by push_cast; ring
    _ ≤ q * relStep * 2 ^ e := mul_le_mul_of_nonneg_right hstep (by positivity)
    _ = (q * 2 ^ e : Nat) * relStep := by push_cast; ring

/-- The pattern after `f` is above the least normal exactly from the least normal on. -/
theorem normal_of_lt_magUnits_succ {f : Nat} (h : 2 ^ 52 < magUnits (f + 1)) : 2 ^ 52 ≤ f := by
  have hleast : magUnits (2 ^ 52) = 2 ^ 52 := by decide
  rw [← hleast] at h
  exact Nat.le_of_lt_succ (magUnits_strictMono.lt_iff_lt.mp h)

/-! ### Rounding -/

/-- The band keeps away from the subnormals. -/
theorem pow_lt_fpScale : (2 : ℚ) ^ (52 + 200) < fpScale := pow_lt_pow_right₀ one_lt_two (by decide)

/-- The band keeps away from overflow. -/
theorem scaled_lt_fpOverflow : 2 ^ 200 * fpScale < (fpOverflow : ℚ) := by
  have hover : (fpOverflow : ℚ) = (2 ^ 54 - 1) * 2 ^ 2044 := by
    rw [fpOverflow, Nat.cast_mul, Nat.cast_pow, Nat.cast_ofNat]
    norm_num
  have hpow : (2 : ℚ) ^ (200 + 1074) < 2 ^ 2044 := pow_lt_pow_right₀ one_lt_two (by decide)
  rw [hover, fpScale, ← pow_add]
  exact hpow.trans_le (le_mul_of_one_le_left (by positivity) (by norm_num))

section quotient

variable {n d : Nat} {a : ℚ} (hd : 0 < d) (hval : (n : ℚ) = a * fpScale * d) (ha : InBand 200 a)
include hd hval ha

theorem lt_overflow_of_inBand : n < fpOverflow * d := by
  have hdq : (0 : ℚ) < d := Nat.cast_pos.mpr hd
  have hband : a * fpScale < fpOverflow := (mul_le_mul_of_nonneg_right ha.upper fpScale_pos.le).trans_lt scaled_lt_fpOverflow
  refine Nat.cast_lt (α := ℚ).mp ?_
  rw [hval, Nat.cast_mul]
  exact mul_lt_mul_of_pos_right hband hdq

/-- The quotient lies between two neighbouring normal patterns, and rounding takes one of them. -/
theorem fpRoundMag_between :
    ∃ f, 2 ^ 52 ≤ f ∧ (magUnits f : ℚ) ≤ a * fpScale ∧ a * fpScale ≤ magUnits (f + 1) ∧
      (fpRoundMag n d = f ∨ fpRoundMag n d = f + 1) := by
  have hdq : (0 : ℚ) < d := Nat.cast_pos.mpr hd
  obtain ⟨f, hlo, hhi, hk⟩ := fpRoundMag_nearest_of_lt hd (lt_overflow_of_inBand hd hval ha)
  have hlo' : (magUnits f : ℚ) ≤ a * fpScale := by
    refine le_of_mul_le_mul_right ?_ hdq
    rw [← hval, ← Nat.cast_mul]
    exact Nat.cast_le.mpr hlo
  have hhi' : a * fpScale ≤ magUnits (f + 1) := by
    refine le_of_mul_le_mul_right ?_ hdq
    rw [← hval, ← Nat.cast_mul]
    exact Nat.cast_le.mpr hhi.le
  have hleast : (2 : ℚ) ^ 52 < a * fpScale := calc
    (2 : ℚ) ^ 52 ≤ a * 2 ^ 200 * 2 ^ 52 := le_mul_of_one_le_left (by positivity) ha.lower
    _ = a * 2 ^ (52 + 200) := by ring
    _ < a * fpScale := mul_lt_mul_of_pos_left pow_lt_fpScale ha.pos
  have hnormal : 2 ^ 52 < magUnits (f + 1) := by
    refine Nat.cast_lt (α := ℚ).mp ?_
    rw [Nat.cast_pow, Nat.cast_ofNat]
    exact hleast.trans_le hhi'
  exact ⟨f, normal_of_lt_magUnits_succ hnormal, hlo', hhi', hk.imp And.left And.left⟩

/-- In the band a rounding is finite and moves the quotient by at most a step. -/
theorem fpRound_near (neg : Bool) :
    fpIsFinite (fpRound neg n d) = true ∧ Near 1 (fpSize (fpRound neg n d)) a := by
  have hover := lt_overflow_of_inBand hd hval ha
  obtain ⟨f, hnormal, hlo, hhi, hk⟩ := fpRoundMag_between hd hval ha
  refine ⟨(fpIsFinite_fpRound neg hd).mpr hover, ?_⟩
  rw [fpRound, fpSize_fpPack neg ((fpRoundMag_lt_iff hd).mpr hover)]
  refine Near.of_between (lo := magUnits f / fpScale) (hi := magUnits (f + 1) / fpScale)
    (div_nonneg (Nat.cast_nonneg _) fpScale_pos.le) ?_ ((div_le_iff₀ fpScale_pos).mpr hlo) ((le_div_iff₀ fpScale_pos).mpr hhi)
    (hk.imp (fun h => by rw [h]) (fun h => by rw [h]))
  rw [pow_one, div_mul_eq_mul_div]
  exact div_le_div_of_nonneg_right (magUnits_succ_le hnormal) fpScale_pos.le

end quotient

/-! ### The operations -/

theorem fpSize_pos_iff {x : F64} : 0 < fpSize x ↔ fpUnits x ≠ 0 := by
  rw [fpSize, div_pos_iff_of_pos_right fpScale_pos, Nat.cast_pos, Nat.pos_iff_ne_zero]

section operations

variable {x y : F64} (hx : fpIsFinite x = true) (hy : fpIsFinite y = true)
include hx hy

theorem fpMul_near (h : InBand 200 (fpSize x * fpSize y)) :
    fpIsFinite (fpMul x y) = true ∧ fpSign (fpMul x y) = (fpSign x ^^ fpSign y) ∧
      Near 1 (fpSize (fpMul x y)) (fpSize x * fpSize y) := by
  have hval : ((fpUnits x * fpUnits y : Nat) : ℚ) = fpSize x * fpSize y * fpScale * (2 ^ 1074 : Nat) := by
    rw [Nat.cast_mul, fpUnits_eq_fpSize, fpUnits_eq_fpSize, natCast_fpScale]
    ring
  obtain ⟨hfin, hnear⟩ := fpRound_near (pow_pos two_pos 1074) hval h (fpSign x ^^ fpSign y)
  rw [fpMul_of_finite hx hy]
  exact ⟨hfin, fpSign_fpRound .., hnear⟩

theorem fpDiv_near (h : InBand 200 (fpSize x / fpSize y)) (h0 : 0 < fpSize y) :
    fpIsFinite (fpDiv x y) = true ∧ fpSign (fpDiv x y) = (fpSign x ^^ fpSign y) ∧
      Near 1 (fpSize (fpDiv x y)) (fpSize x / fpSize y) := by
  have hunits := fpSize_pos_iff.mp h0
  have hval : ((fpUnits x * 2 ^ 1074 : Nat) : ℚ) = fpSize x / fpSize y * fpScale * fpUnits y := by
    rw [Nat.cast_mul, fpUnits_eq_fpSize, fpUnits_eq_fpSize, natCast_fpScale]
    field_simp
  obtain ⟨hfin, hnear⟩ := fpRound_near (Nat.pos_of_ne_zero hunits) hval h (fpSign x ^^ fpSign y)
  rw [fpDiv_of_finite hx hy hunits]
  exact ⟨hfin, fpSign_fpRound .., hnear⟩

end operations

/-- The signed value of a finite pattern. -/
def fpVal (x : F64) : ℚ := fpInt x / fpScale

theorem fpVal_eq (x : F64) : fpVal x = if fpSign x then -fpSize x else fpSize x := by
  rw [fpVal, fpInt, fpSigned, fpSize]
  split
  · rw [Int.cast_neg, Int.cast_natCast, neg_div]
  · rw [Int.cast_natCast]

/-- A sum above 0 has no sign. -/
theorem fpAdd_near_of_pos {x y : F64} (hx : fpIsFinite x = true) (hy : fpIsFinite y = true)
    (h : InBand 200 (fpVal x + fpVal y)) :
    fpIsFinite (fpAdd x y) = true ∧ fpSign (fpAdd x y) = false ∧ Near 1 (fpSize (fpAdd x y)) (fpVal x + fpVal y) := by
  have hsum : ((fpInt x + fpInt y : Int) : ℚ) = (fpVal x + fpVal y) * fpScale := by
    rw [fpVal, fpVal, ← add_div, div_mul_cancel₀ _ fpScale_pos.ne', Int.cast_add]
  have hpos : 0 < fpInt x + fpInt y := Int.cast_pos (R := ℚ).mp (hsum ▸ mul_pos h.pos fpScale_pos)
  have hval : ((fpInt x + fpInt y).natAbs : ℚ) = (fpVal x + fpVal y) * fpScale * (1 : Nat) := by
    rw [← hsum, Nat.cast_one, mul_one, ← Int.cast_natCast, Int.natAbs_of_nonneg hpos.le]
  obtain ⟨hfin, hnear⟩ := fpRound_near Nat.one_pos hval h false
  rw [fpAdd_of_finite hx hy, if_neg hpos.ne', decide_eq_false hpos.le.not_gt]
  exact ⟨hfin, fpSign_fpRound .., hnear⟩

/-- The pattern after the root is above the least normal. -/
theorem normal_of_root_lt {u f : Nat} (hu : u ≠ 0) (h : u * 2 ^ 1074 < magUnits (f + 1) * magUnits (f + 1)) : 2 ^ 52 ≤ f := by
  refine normal_of_lt_magUnits_succ (Nat.mul_self_lt_mul_self_iff.mp (Nat.lt_of_le_of_lt ?_ h))
  calc 2 ^ 52 * 2 ^ 52 ≤ 1 * 2 ^ 1074 := by decide +kernel
    _ ≤ u * 2 ^ 1074 := Nat.mul_le_mul_right _ (Nat.pos_of_ne_zero hu)

/-- The square of the root is within two steps of the radicand: one for each factor. -/
theorem fpSqrt_near {x : F64} (hx : fpIsFinite x = true) (hs : fpSign x = false) (h0 : 0 < fpSize x) :
    fpIsFinite (fpSqrt x) = true ∧ fpSign (fpSqrt x) = false ∧ Near 2 (fpSize (fpSqrt x) ^ 2) (fpSize x) := by
  have hu := fpSize_pos_iff.mp h0
  obtain ⟨hfin, hsign, f, hlo, hhi, hk⟩ := fpSqrt_of_positive hx hu hs
  have hstep : (magUnits (f + 1) / fpScale : ℚ) ≤ magUnits f / fpScale * relStep := by
    rw [div_mul_eq_mul_div]
    exact div_le_div_of_nonneg_right (magUnits_succ_le (normal_of_root_lt hu hhi)) fpScale_pos.le
  have hlo' : (magUnits f / fpScale : ℚ) ^ 2 ≤ fpSize x := by
    rw [div_pow, div_le_iff₀ (pow_pos fpScale_pos 2), sq fpScale, ← mul_assoc, ← fpUnits_eq_fpSize, ← natCast_fpScale, sq]
    exact_mod_cast hlo
  have hhi' : fpSize x ≤ (magUnits (f + 1) / fpScale : ℚ) ^ 2 := by
    rw [div_pow, le_div_iff₀ (pow_pos fpScale_pos 2), sq fpScale, ← mul_assoc, ← fpUnits_eq_fpSize, ← natCast_fpScale, sq]
    exact_mod_cast hhi.le
  have hf (g : Nat) : (0 : ℚ) ≤ magUnits g / fpScale := div_nonneg (Nat.cast_nonneg _) fpScale_pos.le
  refine ⟨hfin, hsign, Near.of_between (sq_nonneg _) ?_ hlo' hhi' ?_⟩
  · rw [← mul_pow]
    exact pow_le_pow_left₀ (hf _) hstep 2
  · rw [fpSize, fpUnits_eq_magUnits hfin]
    exact hk.imp (fun h => by rw [h.1]) (fun h => by rw [h.1])

/-! ### Signs -/

theorem fpSize_fpNeg {x : F64} (h : fpIsFinite x = true) : fpSize (fpNeg x) = fpSize x := by
  rw [fpSize, fpUnits_eq_magUnits (fpIsFinite_fpNeg h), fpMag_fpNeg, ← fpUnits_eq_magUnits h, fpSize]

theorem fpAbs_of_finite {x : F64} (h : fpIsFinite x = true) :
    fpIsFinite (fpAbs x) = true ∧ fpSign (fpAbs x) = false ∧ fpSize (fpAbs x) = fpSize x := by
  have hlt := fpIsFinite_iff.mp h
  have hfin : fpIsFinite (fpAbs x) = true := by rw [fpAbs, fpIsFinite_fpPack false (fpMag_lt x), decide_eq_true hlt]
  refine ⟨hfin, fpSign_fpPack false (fpMag_lt x), ?_⟩
  rw [fpAbs, fpSize_fpPack false hlt, ← fpUnits_eq_magUnits h, fpSize]

/-- The signed root has the sign of its argument, and the root of its magnitude. -/
theorem signSqrt_near {x : F64} (hx : fpIsFinite x = true) (h0 : 0 < fpSize x) :
    fpIsFinite (signSqrt x) = true ∧ fpSign (signSqrt x) = fpSign x ∧ Near 2 (fpSize (signSqrt x) ^ 2) (fpSize x) := by
  obtain ⟨hafin, hasign, hasize⟩ := fpAbs_of_finite hx
  obtain ⟨hfin, hsign, hnear⟩ := fpSqrt_near hafin hasign (hasize ▸ h0)
  rw [hasize] at hnear
  have hmag : fpMag x ≠ 0 := mt (fpUnits_eq_zero_iff hx).mpr (fpSize_pos_iff.mp h0)
  have hlt : fpLt x fpZero = fpSign x := by
    rw [Bool.eq_iff_iff, fpLt_iff, and_iff_right (fpIsNan_of_finite hx), and_iff_right (by decide),
      show fpKey fpZero = 0 by decide, fpKey]
    cases fpSign x with
    | false => simp
    | true => simp [Nat.pos_of_ne_zero hmag]
  rw [signSqrt, hlt]
  cases fpSign x with
  | false => exact ⟨hfin, hsign, hnear⟩
  | true =>
    refine ⟨fpIsFinite_fpNeg hfin, ?_, ?_⟩
    · rw [if_pos rfl, fpSign_fpNeg, hsign, Bool.not_false]
    · rwa [if_pos rfl, fpSize_fpNeg hfin]

end Sys2Proof.Machine
end

section
/-! SUPPORT. The AC quantizer gives a dequantized level back (42_quantizer.md R157): the roundings on the way move the level by far
less than the half that `floor` leaves on both sides. -/

namespace Sys2Proof.Machine

/-! ### Integers -/

theorem natAbs_fpInt (x : F64) : (fpInt x).natAbs = fpUnits x := by
  rw [fpInt, fpSigned]
  split
  · rw [Int.natAbs_neg, Int.natAbs_natCast]
  · rw [Int.natAbs_natCast]

theorem natAbs_mul_two_pow (z : Int) (e : Nat) : (z * 2 ^ e).natAbs = z.natAbs * 2 ^ e := by
  rw [Int.natAbs_mul, Int.natAbs_pow]
  rfl

theorem fpOfInt_size {z : Int} (h : z.natAbs < 2 ^ 53) :
    fpIsFinite (fpOfInt z) = true ∧ fpSign (fpOfInt z) = decide (z < 0) ∧ fpSize (fpOfInt z) = z.natAbs := by
  obtain ⟨hfin, hint⟩ := fpOfInt_exact h
  have hunits : fpUnits (fpOfInt z) = z.natAbs * 2 ^ 1074 := by
    rw [← natAbs_fpInt, hint, natAbs_mul_two_pow]
  refine ⟨hfin, fpSign_fpRound .., ?_⟩
  rw [fpSize, hunits, Nat.cast_mul, natCast_fpScale, mul_div_cancel_right₀ _ fpScale_pos.ne']

theorem fpFloor_eq {x : F64} {q : Nat} (hx : fpIsFinite x = true) (hs : fpSign x = false) (hlo : (q : ℚ) ≤ fpSize x)
    (hhi : fpSize x < q + 1) : fpFloor x = .int q := by
  have hlo' : q * 2 ^ 1074 ≤ fpUnits x := by
    refine Nat.cast_le (α := ℚ).mp ?_
    rw [fpUnits_eq_fpSize, Nat.cast_mul, natCast_fpScale]
    exact mul_le_mul_of_nonneg_right hlo fpScale_pos.le
  have hhi' : fpUnits x < (q + 1) * 2 ^ 1074 := by
    refine Nat.cast_lt (α := ℚ).mp ?_
    rw [fpUnits_eq_fpSize, Nat.cast_mul, natCast_fpScale, Nat.cast_succ]
    exact mul_lt_mul_of_pos_right hhi fpScale_pos
  rw [fpFloor_of_finite hx, fpInt, hs, fpSigned, if_neg Bool.false_ne_true, ← Int.natCast_ediv,
    Nat.div_eq_of_lt_le hlo' hhi']

/-! ### The way of a level -/

theorem fpLit_9_size : fpIsFinite (fpLit 9 1) = true ∧ fpSign (fpLit 9 1) = false ∧ fpSize (fpLit 9 1) = 9 := by
  have hunits : fpUnits (fpLit 9 1) = 9 * 2 ^ 1074 := by decide +kernel
  refine ⟨by decide +kernel, by decide +kernel, ?_⟩
  rw [fpSize, hunits, Nat.cast_mul, natCast_fpScale, mul_div_cancel_right₀ _ fpScale_pos.ne', Nat.cast_ofNat]

theorem fpLit_95_10_val : fpIsFinite (fpLit 95 10) = true ∧ fpVal (fpLit 95 10) = 19 / 2 := by
  have hunits : 2 * fpUnits (fpLit 95 10) = 19 * 2 ^ 1074 := by decide +kernel
  have hsign : fpSign (fpLit 95 10) = false := fpSign_fpRound ..
  refine ⟨by decide +kernel, ?_⟩
  have hq : (2 : ℚ) * fpUnits (fpLit 95 10) = 19 * fpScale := by
    have hcast := congrArg (Nat.cast (R := ℚ)) hunits
    rwa [Nat.cast_mul, Nat.cast_mul, natCast_fpScale] at hcast
  rw [fpVal_eq, hsign, if_neg Bool.false_ne_true, fpSize, div_eq_div_iff fpScale_pos.ne' two_ne_zero, mul_comm, hq]

/-- The levels other than the middle one lie 1 to 9 levels away from it. -/
theorem inBand_ninth {k : Nat} (h1 : 1 ≤ k) (h9 : k ≤ 9) : InBand 4 ((k : ℚ) / 9) := by
  have h1' : (1 : ℚ) ≤ k := Nat.one_le_cast.mpr h1
  have h9' : (k : ℚ) ≤ 9 := by exact_mod_cast h9
  constructor <;> linarith

theorem inBand_ninth_sq {k : Nat} (h1 : 1 ≤ k) (h9 : k ≤ 9) : InBand 8 (((k : ℚ) / 9) ^ 2) := by
  rw [sq]
  exact (inBand_ninth h1 h9).mul (inBand_ninth h1 h9)

/-- The factor of a level, after its two roundings. -/
theorem levelFactor_near {q : Nat} (hq : q ≤ 18) (h9 : q ≠ 9) :
    fpIsFinite (levelFactor q) = true ∧ fpSign (levelFactor q) = decide ((q : Int) - 9 < 0) ∧
      Near 3 (fpSize (levelFactor q)) ((((q : Int) - 9).natAbs / 9 : ℚ) ^ 2) := by
  obtain ⟨hzfin, hzsign, hzsize⟩ := fpOfInt_size (z := (q : Int) - 9) (by omega)
  obtain ⟨h9fin, h9sign, h9size⟩ := fpLit_9_size
  have hband := inBand_ninth (k := ((q : Int) - 9).natAbs) (by omega) (by omega)
  rw [← hzsize, ← h9size] at hband ⊢
  obtain ⟨htfin, htsign, htnear⟩ := fpDiv_near hzfin h9fin (hband.mono (by decide)) (h9size ▸ by norm_num)
  rw [hzsign, h9sign, Bool.xor_false] at htsign
  unfold levelFactor
  generalize fpDiv (fpOfInt ((q : Int) - 9)) (fpLit 9 1) = t at *
  obtain ⟨hafin, hasign, hasize⟩ := fpAbs_of_finite htfin
  have htband := InBand.of_near htnear hband (fpSize_nonneg t) (by decide)
  obtain ⟨hfin, hsign, hnear⟩ := fpMul_near htfin hafin (by rw [hasize]; exact (htband.mul htband).mono (by decide))
  rw [hasize] at hnear
  refine ⟨hfin, by rw [hsign, hasign, Bool.xor_false, htsign], ?_⟩
  rw [sq]
  exact hnear.trans (htnear.mul htnear (fpSize_nonneg t) hband.pos.le (fpSize_nonneg t) hband.pos.le)

/-- A product divided by its second factor gives the first one back but for the two roundings. -/
theorem fpDiv_fpMul_near {p m : F64} (hp : fpIsFinite p = true) (hm : fpIsFinite m = true) (hpb : InBand 50 (fpSize p))
    (hmb : InBand 100 (fpSize m)) :
    fpIsFinite (fpDiv (fpMul p m) m) = true ∧ fpSign (fpDiv (fpMul p m) m) = fpSign p ∧
      Near 2 (fpSize (fpDiv (fpMul p m) m)) (fpSize p) := by
  obtain ⟨hwfin, hwsign, hwnear⟩ := fpMul_near hp hm ((hpb.mul hmb).mono (by decide))
  have hback : Near 1 (fpSize (fpMul p m) / fpSize m) (fpSize p) := by
    have := hwnear.scale (inv_nonneg.mpr hmb.pos.le)
    rwa [mul_assoc, mul_inv_cancel₀ hmb.pos.ne', mul_one, ← div_eq_mul_inv] at this
  have hband : InBand 51 (fpSize (fpMul p m) / fpSize m) :=
    InBand.of_near hback hpb (div_nonneg (fpSize_nonneg _) hmb.pos.le) (by decide)
  obtain ⟨hfin, hsign, hnear⟩ := fpDiv_near hwfin hm (hband.mono (by decide)) hmb.pos
  exact ⟨hfin, by rw [hsign, hwsign, Bool.xor_assoc, Bool.xor_self, Bool.xor_false], hnear.trans hback⟩

/-- Nine times the signed root of a value near `(k / 9)^2` is near `k`: three more roundings, one of them counted twice. -/
theorem nine_signSqrt_near {t : F64} {k : Nat} (ht : fpIsFinite t = true) (h1 : 1 ≤ k) (h9 : k ≤ 9)
    (hnear : Near 5 (fpSize t) ((k / 9 : ℚ) ^ 2)) :
    fpIsFinite (fpMul (signSqrt t) (fpLit 9 1)) = true ∧ fpSign (fpMul (signSqrt t) (fpLit 9 1)) = fpSign t ∧
      Near 8 (fpSize (fpMul (signSqrt t) (fpLit 9 1))) k := by
  obtain ⟨h9fin, h9sign, h9size⟩ := fpLit_9_size
  have hband := inBand_ninth h1 h9
  have htband := InBand.of_near hnear (inBand_ninth_sq h1 h9) (fpSize_nonneg t) (by decide)
  obtain ⟨hrfin, hrsign, hrnear⟩ := signSqrt_near ht htband.pos
  have hroot : Near 7 (fpSize (signSqrt t)) (k / 9) := (hrnear.trans hnear).of_sq (fpSize_nonneg _) hband.pos.le
  have hrband := InBand.of_near hroot hband (fpSize_nonneg _) (by decide)
  have h9band : InBand 4 (9 : ℚ) := by constructor <;> norm_num
  obtain ⟨hfin, hsign, hy⟩ := fpMul_near hrfin h9fin (by rw [h9size]; exact (hrband.mul h9band).mono (by decide))
  have hscaled := hroot.scale (c := 9) (by norm_num)
  rw [div_mul_cancel₀ _ (by norm_num)] at hscaled
  rw [h9size] at hy
  exact ⟨hfin, by rw [hsign, hrsign, h9sign, Bool.xor_false], hy.trans hscaled⟩

/-- A magnitude near that of a level, with its sign, is within a quarter of it, counted from the middle level. -/
theorem fpVal_dist_le {y : F64} {z : Int} (hs : fpSign y = decide (z < 0)) (h9 : z.natAbs ≤ 9)
    (hnear : Near 8 (fpSize y) z.natAbs) : |fpVal y - z| ≤ 1 / 4 := by
  have hk : (z.natAbs : ℚ) ≤ 9 := by exact_mod_cast h9
  obtain ⟨hle, hge⟩ := hnear.within_percent (by decide) (fpSize_nonneg y) (Nat.cast_nonneg _)
  have hdist : |fpSize y - z.natAbs| ≤ 1 / 4 := abs_le.mpr ⟨by linarith, by linarith⟩
  rw [fpVal_eq, hs]
  by_cases hz : z < 0
  · have hzq : (z : ℚ) = -z.natAbs := by rw [Nat.cast_natAbs, abs_of_neg hz, Int.cast_neg, neg_neg]
    rw [decide_eq_true hz, if_pos rfl, hzq, neg_sub_neg, abs_sub_comm]
    exact hdist
  · have hzq : (z : ℚ) = z.natAbs := by rw [Nat.cast_natAbs, abs_of_nonneg (not_lt.mp hz)]
    rwa [decide_eq_false hz, if_neg Bool.false_ne_true, hzq]

/-- So `floor` after the shift by 9.5 finds the level. -/
theorem levelOf_of_near {t : F64} {q : Nat} (hq : q ≤ 18) (h9 : q ≠ 9) (ht : fpIsFinite t = true)
    (hs : fpSign t = decide ((q : Int) - 9 < 0)) (hnear : Near 5 (fpSize t) ((((q : Int) - 9).natAbs / 9 : ℚ) ^ 2)) :
    levelOf t = q := by
  obtain ⟨hyfin, hysign, hynear⟩ := nine_signSqrt_near ht (by omega) (by omega) hnear
  obtain ⟨hcfin, hcval⟩ := fpLit_95_10_val
  obtain ⟨hlo, hhi⟩ := abs_le.mp (fpVal_dist_le (hysign.trans hs) (by omega) hynear)
  have hq' : (q : ℚ) ≤ 18 := by exact_mod_cast hq
  have hq0 : (0 : ℚ) ≤ q := Nat.cast_nonneg q
  rw [levelOf]
  generalize fpMul (signSqrt t) (fpLit 9 1) = y at *
  push_cast at hlo hhi
  have hband : InBand 5 (fpVal y + fpVal (fpLit 95 10)) := by
    rw [hcval]
    constructor <;> linarith
  obtain ⟨hfin, hsign, hznear⟩ := fpAdd_near_of_pos hyfin hcfin (hband.mono (by decide))
  obtain ⟨hle, hge⟩ := hznear.within_percent (by decide) (fpSize_nonneg _) hband.pos.le
  rw [hcval] at hle hge
  have hfloor := fpFloor_eq (q := q) hfin hsign (by linarith) (by linarith)
  rw [hfloor, clampi, if_neg (by omega), if_neg (by omega), Int.toNat_natCast]

/-- R157 for every normalisation value in a wide band: the level comes back. -/
theorem qacf_dqf {q : Nat} {m : F64} (hq : q ≤ 18) (hm : fpIsFinite m = true) (hs : fpSign m = false)
    (hmb : InBand 100 (fpSize m)) : qacf (dqf q m) m = q := by
  by_cases h9 : q = 9
  · have hpos : fpLt fpZero m = true :=
      (fpLt_zero_left_iff hm).mpr ⟨hs, mt (fpUnits_eq_zero_iff hm).mpr (fpSize_pos_iff.mp hmb.pos)⟩
    rw [h9, dqf_9 hm, hs]
    exact qacf_of_zero hm hpos (by decide) (by decide)
  · obtain ⟨hpfin, hpsign, hpnear⟩ := levelFactor_near hq h9
    have hpband := InBand.of_near hpnear (inBand_ninth_sq (by omega) (by omega)) (fpSize_nonneg _) (by decide)
    obtain ⟨hfin, hsign, hnear⟩ := fpDiv_fpMul_near hpfin hm (hpband.mono (by decide)) hmb
    rw [qacf_eq, dqf_eq]
    exact levelOf_of_near hq h9 hfin (hsign.trans hpsign) (hnear.trans hpnear)

theorem maxv_inBand {Q : Nat} (hQ : Q ≤ 82) :
    fpIsFinite (maxv Q) = true ∧ fpSign (maxv Q) = false ∧ InBand 9 (fpSize (maxv Q)) := by
  have hval : (((Q + 1) * 2 ^ 1074 : Nat) : ℚ) = (Q + 1 : Nat) / 166 * fpScale * (166 : Nat) := by
    rw [Nat.cast_mul, natCast_fpScale, Nat.cast_ofNat]
    ring
  have hlo : (1 : ℚ) ≤ (Q + 1 : Nat) := Nat.one_le_cast.mpr (Nat.le_add_left 1 Q)
  have hhi : ((Q + 1 : Nat) : ℚ) ≤ 83 := by exact_mod_cast Nat.succ_le_succ hQ
  have hband : InBand 8 (((Q + 1 : Nat) : ℚ) / 166) := by constructor <;> linarith
  obtain ⟨hfin, hnear⟩ := fpRound_near (by decide) hval (hband.mono (by decide)) false
  rw [maxv_eq_fpRound (by omega)]
  exact ⟨hfin, fpSign_fpRound .., InBand.of_near hnear hband (fpSize_nonneg _) (by decide)⟩

end Sys2Proof.Machine
end

section
/-! The statements of 42_quantizer.md. -/

namespace Sys2Proof.Quantizer

open Sys2Proof.Machine

/-- Settles O18: the checks of OPA, then of OPB, then the quantizer. -/
theorem quantAcQuantizes : Obligations.QuantAcQuantizes := by
  refine fun s => ⟨exec_of_operand_not_finite rfl, fun ha hb => ?_, fun ha hb => ?_⟩
  · have hfin := fpIsFinite_iff_not_expAllOnes.mpr ha
    have hbad : fpIsFinite s.opb = false ∨ fpLe s.opb fpZero = true := by
      by_cases hexp : expAllOnes s.opb
      · exact .inl (Bool.eq_false_iff.mpr fun h => fpIsFinite_iff_not_expAllOnes.mp h hexp)
      · exact .inr ((fpLe_zero_iff (fpIsFinite_iff_not_expAllOnes.mpr hexp)).mpr (hb.resolve_left hexp))
    have hrun : runOf .quantAc s = raise .operand opbIndex := quantAcRun_of_bad_divisor hfin hbad
    exact exec_of_stop hrun
  · obtain ⟨hexp, hpos⟩ := not_or.mp hb
    have hfin := fpIsFinite_iff_not_expAllOnes.mpr hexp
    have hle := Bool.eq_false_iff.mpr (mt (fpLe_zero_iff hfin).mp hpos)
    exact exec_of_results ((quantAcRun_eq_ok s _).mpr ⟨fpIsFinite_iff_not_expAllOnes.mpr ha, hfin, hle, rfl⟩)

/-- Settles O19: the clamps bound the levels, the levels bound the fields, and the fields fit the encoder's digits. -/
theorem quantizersFitTheirDigits : Obligations.QuantizersFitTheirDigits :=
  ⟨qacf_le, acq_le, qmaxf_le, dcq_le, by decide, by decide, by decide, fun _ _ g _ hX _ hY => qencf_of_legal hX hY g⟩

/-- Settles O20: the factors of levels 18, 0 and 9 are 1, -1 and 0, and a product with one of them is exact. -/
theorem dequantizerGridPoints : Obligations.DequantizerGridPoints := by
  refine ⟨fun m hm => ⟨dqf_18 hm, dqf_0 hm, ?_⟩, by decide +kernel, by decide +kernel, fun _ _ _ m => acd_packed m,
    dcd_packed⟩
  rw [dqf_9 hm]
  cases fpSign m <;> decide

/-- Settles O21: below 0 the maximum quantizer clamps, the normalisation value is one rounding, and the quotients `0 / m`, `m / m`
and `-m / m` are exact; the samples are evaluated. -/
theorem quantizerCornerValues : Obligations.QuantizerCornerValues := by
  refine ⟨fun _ => qmaxf_of_neg, by decide +kernel, fun q hq => ?_, fun m hm hpos => ?_, by decide +kernel, fun _ => rfl,
    fun _ _ => rfl⟩
  · rw [maxv_eq_fpRound (by omega)]
    exact roundsTo_fpRound false (by decide)
  · exact ⟨qacf_of_zero hm hpos (by decide) (by decide), qacf_of_zero hm hpos (by decide) (by decide), qacf_self hm hpos,
      qacf_fpNeg_self hm hpos⟩

/-- Settles O22: a normalisation value lies far from underflow and overflow, where the roundings of both quantizers together stay
below half a level. -/
theorem levelsComeBack : Obligations.LevelsComeBack := by
  intro Q q hQ hq
  obtain ⟨hfin, hsign, hband⟩ := maxv_inBand hQ
  exact qacf_dqf hq hfin hsign (hband.mono (by decide))

end Sys2Proof.Quantizer
end

section
/-! SUPPORT. Bounds on the magnitude of finite values: what each operation makes of them, away from overflow (00_scope.md R11). -/

namespace Sys2Proof.Machine

/-- Finite, and of magnitude at most `b`. -/
structure Within (b : Nat) (x : F64) : Prop where
  finite : fpIsFinite x = true
  units_le : fpUnits x ≤ b * 2 ^ 1074

theorem Within.mono {b c : Nat} {x : F64} (h : Within b x) (hbc : b ≤ c) : Within c x :=
  ⟨h.finite, Nat.le_trans h.units_le (Nat.mul_le_mul_right _ hbc)⟩

/-! ### Rounding -/

/-- A rounded quotient of at most an integer that is itself a value stays at most that integer. -/
theorem within_fpRound {b n d : Nat} (hb : b < 2 ^ 53) (hd : 0 < d) (h : n ≤ b * 2 ^ 1074 * d) (neg : Bool) :
    Within b (fpRound neg n d) := by
  obtain ⟨k, hk, hfin⟩ := exists_pattern_of_lt hb (e := 1074) (by decide) (by decide)
  have hround : fpRoundMag n d ≤ k := fpRoundMag_le_of_le hd (by rwa [hk])
  have hx : fpIsFinite (fpRound neg n d) = true := by
    rw [fpIsFinite_iff, fpMag_fpRound]
    exact Nat.lt_of_le_of_lt hround hfin
  refine ⟨hx, ?_⟩
  rw [fpUnits_eq_magUnits hx, fpMag_fpRound, ← hk]
  exact magUnits_strictMono.monotone hround

/-- Rounding is monotone. -/
theorem fpRoundMag_mono {n n' d : Nat} (hd : 0 < d) (h : n ≤ n') : fpRoundMag n d ≤ fpRoundMag n' d := by
  rcases Nat.lt_or_ge n' (fpOverflow * d) with hlt | hge
  · obtain ⟨f, hlo, hhi, hk⟩ := fpRoundMag_nearest_of_lt hd (Nat.lt_of_le_of_lt h hlt)
    obtain ⟨f', hlo', hhi', hk'⟩ := fpRoundMag_nearest_of_lt hd hlt
    have hff : f < f' + 1 :=
      magUnits_strictMono.lt_iff_lt.mp (Nat.lt_of_mul_lt_mul_right (Nat.lt_of_le_of_lt (Nat.le_trans hlo h) hhi'))
    rcases Nat.lt_or_eq_of_le (Nat.le_of_lt_succ hff) with hlt | rfl
    · omega
    · omega
  · rw [(fpRoundMag_overflow_iff hd).mpr hge]
    exact fpRoundMag_le n d

/-! ### The operations -/

theorem within_fpPack_zero (s : Bool) : Within 0 (fpPack s 0) := by
  have hfin : fpIsFinite (fpPack s 0) = true := fpIsFinite_fpPack s (by decide)
  refine ⟨hfin, ?_⟩
  rw [fpUnits_eq_magUnits hfin, fpMag_fpPack s (by decide)]
  exact Nat.zero_le _

theorem within_fpOfInt {z : Int} (h : z.natAbs < 2 ^ 53) : Within z.natAbs (fpOfInt z) := by
  obtain ⟨hfin, hint⟩ := fpOfInt_exact h
  refine ⟨hfin, ?_⟩
  rw [← natAbs_fpInt, hint, natAbs_mul_two_pow]

theorem within_fpOfNat {n : Nat} (h : n < 2 ^ 53) : Within n (fpOfNat n) := within_fpOfInt (z := n) h

theorem Within.fpAbs {b : Nat} {x : F64} (h : Within b x) : Within b (fpAbs x) := by
  have hlt := fpIsFinite_iff.mp h.finite
  have hfin : fpIsFinite (Machine.fpAbs x) = true := (fpAbs_of_finite h.finite).1
  refine ⟨hfin, ?_⟩
  rw [fpUnits_eq_magUnits hfin, Machine.fpAbs, fpMag_fpPack false (fpMag_lt x), ← fpUnits_eq_magUnits h.finite]
  exact h.units_le

theorem Within.fpMul {a b : Nat} {x y : F64} (hx : Within a x) (hy : Within b y) (h : a * b < 2 ^ 53) :
    Within (a * b) (fpMul x y) := by
  rw [fpMul_of_finite hx.finite hy.finite]
  refine within_fpRound h (pow_pos two_pos 1074) ?_ _
  calc fpUnits x * fpUnits y
    _ ≤ a * 2 ^ 1074 * (b * 2 ^ 1074) := Nat.mul_le_mul hx.units_le hy.units_le
    _ = a * b * 2 ^ 1074 * 2 ^ 1074 := by rw [Nat.mul_mul_mul_comm, Nat.mul_assoc (a * b)]

theorem Within.fpAdd {a b : Nat} {x y : F64} (hx : Within a x) (hy : Within b y) (h : a + b < 2 ^ 53) :
    Within (a + b) (fpAdd x y) := by
  rw [fpAdd_of_finite hx.finite hy.finite]
  split
  · exact (within_fpPack_zero _).mono (Nat.zero_le _)
  · refine within_fpRound h Nat.one_pos ?_ _
    calc (fpInt x + fpInt y).natAbs
      _ ≤ fpUnits x + fpUnits y := by
        rw [← natAbs_fpInt x, ← natAbs_fpInt y]
        exact Int.natAbs_add_le _ _
      _ ≤ (a + b) * 2 ^ 1074 * 1 := by
        rw [Nat.mul_one, Nat.add_mul]
        exact Nat.add_le_add hx.units_le hy.units_le

/-- A quotient is bounded by any integer that bounds the ratio of the magnitudes. -/
theorem within_fpDiv {b : Nat} {x y : F64} (hx : fpIsFinite x = true) (hy : fpIsFinite y = true) (h0 : fpUnits y ≠ 0)
    (h : fpUnits x ≤ b * fpUnits y) (hb : b < 2 ^ 53) : Within b (fpDiv x y) := by
  rw [fpDiv_of_finite hx hy h0]
  refine within_fpRound hb (Nat.pos_of_ne_zero h0) ?_ _
  rw [Nat.mul_right_comm]
  exact Nat.mul_le_mul_right _ h

/-- A divisor of at least 1.0 does not enlarge. -/
theorem Within.fpDiv {a : Nat} {x y : F64} (hx : Within a x) (hy : fpIsFinite y = true) (hone : 2 ^ 1074 ≤ fpUnits y)
    (h : a < 2 ^ 53) : Within a (fpDiv x y) :=
  within_fpDiv hx.finite hy (Nat.lt_of_lt_of_le (pow_pos two_pos 1074) hone).ne'
    (Nat.le_trans hx.units_le (Nat.mul_le_mul_left a hone)) h

/-! ### Values of at most 1.0 -/

theorem fpMag_fpOne_units : magUnits (fpMag fpOne) = 2 ^ 1074 := by decide +kernel

/-- A magnitude of at most 1.0 in the order of the patterns. -/
theorem within_one_iff {x : F64} : Within 1 x ↔ fpMag x ≤ fpMag fpOne := by
  constructor
  · intro h
    have := h.units_le
    rw [fpUnits_eq_magUnits h.finite, Nat.one_mul, ← fpMag_fpOne_units] at this
    exact magUnits_strictMono.le_iff_le.mp this
  · intro h
    have hfin : fpIsFinite x = true := fpIsFinite_iff.mpr (Nat.lt_of_le_of_lt h (by decide))
    refine ⟨hfin, ?_⟩
    rw [fpUnits_eq_magUnits hfin, Nat.one_mul, ← fpMag_fpOne_units]
    exact magUnits_strictMono.monotone h

theorem within_one_of_fpInSymUnit {x : F64} (h : fpInSymUnit x = true) : Within 1 x := by
  obtain ⟨hlo, hhi⟩ := fpInSymUnit_iff.mp h
  have hlo := fpKey_le_of_fpLe hlo
  have hhi := fpKey_le_of_fpLe hhi
  have hone : fpKey fpOne = fpMag fpOne := by decide
  have hminus : fpKey fpMinusOne = -fpMag fpOne := by decide
  have hmag := natAbs_fpKey x
  exact within_one_iff.mpr (by omega)

/-- Without sign a magnitude of at most 1.0 is a value in `[0, 1]`. -/
theorem Within.fpInUnit {x : F64} (h : Within 1 x) (hs : fpSign x = false) : fpInUnit x = true := by
  have hmag := within_one_iff.mp h
  have hnan := fpIsNan_of_finite h.finite
  have hkey : fpKey x = fpMag x := by rw [fpKey, hs, if_neg Bool.false_ne_true]
  have hzero : fpKey fpZero = 0 := by decide
  have hone : fpKey fpOne = fpMag fpOne := by decide
  exact fpInUnit_iff.mpr ⟨fpLe_iff.mpr ⟨by decide, hnan, by omega⟩, fpLe_iff.mpr ⟨hnan, by decide, by omega⟩⟩

theorem within_one_of_fpInUnit {x : F64} (h : fpInUnit x = true) : Within 1 x := by
  obtain ⟨hlo, hhi⟩ := fpInUnit_iff.mp h
  exact within_one_of_fpInSymUnit (fpInSymUnit_iff.mpr ⟨fpLe_trans (by decide) hlo, hhi⟩)

/-! ### The gamma table -/

theorem fpInt_of_not_sign {x : F64} (hs : fpSign x = false) : fpInt x = fpUnits x := by
  rw [fpInt, hs, fpSigned, if_neg Bool.false_ne_true]

/-- A sum of values without sign, one of them not 0, is the rounded sum of their units. -/
theorem fpAdd_of_not_sign {x y : F64} (hx : fpIsFinite x = true) (hy : fpIsFinite y = true) (hxs : fpSign x = false)
    (hys : fpSign y = false) (hy0 : fpUnits y ≠ 0) : fpAdd x y = fpRound false (fpUnits x + fpUnits y) 1 := by
  rw [fpAdd_of_finite hx hy, fpInt_of_not_sign hxs, fpInt_of_not_sign hys, ← Int.natCast_add, if_neg (by omega),
    decide_eq_false (by omega), Int.natAbs_natCast]

/-- A sample as a fraction of 255 lies in `[0, 1]`. -/
theorem sample_within (v : Byte) :
    Within 1 (fpDiv (fpOfNat v.toNat) (fpLit 255 1)) ∧ fpSign (fpDiv (fpOfNat v.toNat) (fpLit 255 1)) = false := by
  rw [fpDiv_sample (Nat.lt_trans v.isLt (by decide))]
  refine ⟨within_fpRound (by decide) (by positivity) ?_ _, fpSign_fpRound ..⟩
  rw [Nat.one_mul, Nat.mul_comm (2 ^ 1074) (255 * 2 ^ 1074)]
  exact Nat.mul_le_mul_right _ (Nat.mul_le_mul_right _ (Nat.le_of_lt_succ v.isLt))

/-- A value in `[0, 1]` plus 0.055 is at most 1.055, since `1.0 + 0.055` rounds to it. -/
theorem fpAdd_055_le {x : F64} (hx : Within 1 x) (hs : fpSign x = false) :
    fpIsFinite (fpAdd x (fpLit 55 1000)) = true ∧ fpSign (fpAdd x (fpLit 55 1000)) = false ∧
      fpUnits (fpAdd x (fpLit 55 1000)) ≤ fpUnits (fpLit 1055 1000) := by
  have hd : fpIsFinite (fpLit 1055 1000) = true := by decide +kernel
  have hend : fpRoundMag (1 * 2 ^ 1074 + fpUnits (fpLit 55 1000)) 1 = fpMag (fpLit 1055 1000) := by decide +kernel
  have hle : fpRoundMag (fpUnits x + fpUnits (fpLit 55 1000)) 1 ≤ fpMag (fpLit 1055 1000) := by
    rw [← hend]
    exact fpRoundMag_mono Nat.one_pos (Nat.add_le_add_right hx.units_le _)
  have hfin : fpIsFinite (fpRound false (fpUnits x + fpUnits (fpLit 55 1000)) 1) = true := by
    rw [fpIsFinite_iff, fpMag_fpRound]
    exact Nat.lt_of_le_of_lt hle (fpIsFinite_iff.mp hd)
  have hcs : fpSign (fpLit 55 1000) = false := fpSign_fpRound ..
  rw [fpAdd_of_not_sign hx.finite (by decide +kernel) hs hcs (by decide +kernel)]
  refine ⟨hfin, fpSign_fpRound .., ?_⟩
  rw [fpUnits_eq_magUnits hfin, fpUnits_eq_magUnits hd, fpMag_fpRound]
  exact magUnits_strictMono.monotone hle

/-- The base of the power branch lies in `[0, 1]` (41_gamma.md R140). -/
theorem gammaBase_inUnit {x : F64} (hx : Within 1 x) (hs : fpSign x = false) :
    fpInUnit (fpDiv (fpAdd x (fpLit 55 1000)) (fpLit 1055 1000)) = true := by
  obtain ⟨hfin, hsign, hle⟩ := fpAdd_055_le hx hs
  have hd : fpIsFinite (fpLit 1055 1000) = true := by decide +kernel
  have hd0 : fpUnits (fpLit 1055 1000) ≠ 0 := by decide +kernel
  have hds : fpSign (fpLit 1055 1000) = false := fpSign_fpRound ..
  refine (within_fpDiv hfin hd hd0 (by rwa [Nat.one_mul]) (by decide)).fpInUnit ?_
  rw [fpDiv_of_finite hfin hd hd0, fpSign_fpRound, hsign, hds, Bool.xor_false]

/-- Every entry of the table has at most the magnitude 1.0 (41_gamma.md R140). -/
theorem linLut_within (v : Byte) : Within 1 (linLut v) := by
  obtain ⟨hx, hs⟩ := sample_within v
  rw [linLut]
  split
  · exact hx.fpDiv (by decide +kernel) (by decide +kernel) (by decide)
  · exact within_one_of_fpInUnit (pow64_inUnit (gammaBase_inUnit hx hs) (by decide +kernel))

end Sys2Proof.Machine
end

section
/-! SUPPORT. The basis functions and the sums of the transforms stay finite (43_transform.md R162, R163): a basis product has at most
the magnitude 1.0, so a sum over `n` pixels has at most the magnitude `n`. -/

namespace Sys2Proof.Machine

/-! ### The basis -/

/-- An integer from 1 on, as a divisor. -/
theorem one_le_fpOfNat {n : Nat} (hn : 1 ≤ n) (hn' : n < 2 ^ 53) :
    fpIsFinite (fpOfNat n) = true ∧ 2 ^ 1074 ≤ fpUnits (fpOfNat n) := by
  obtain ⟨hfin, -, hunits⟩ := fpOfNat_exact hn'
  exact ⟨hfin, by rw [hunits]; exact Nat.le_mul_of_pos_left _ hn⟩

theorem within_fpDiv_fpOfNat {b n : Nat} {x : F64} (hx : Within b x) (hb : b < 2 ^ 53) (hn : 1 ≤ n) (hn' : n < 2 ^ 53) :
    Within b (fpDiv x (fpOfNat n)) := by
  obtain ⟨hfin, hone⟩ := one_le_fpOfNat hn hn'
  exact hx.fpDiv hfin hone hb

theorem pi64_within : Within 4 pi64 := ⟨by decide, by decide +kernel⟩

theorem cosTerm_within {u v n : Nat} (hu : u < 2 ^ 16) (hv : v < 2 ^ 16) (hn : 1 ≤ n) (hn' : n < 2 ^ 53) :
    Within 1 (cosTerm u v n) := by
  have huv : 4 * u * v ≤ 4 * 2 ^ 16 * 2 ^ 16 := Nat.mul_le_mul (Nat.mul_le_mul_left 4 hu.le) hv.le
  have hprod := (pi64_within.fpMul (within_fpOfNat (n := u) (by omega)) (by omega)).fpMul (within_fpOfNat (n := v) (by omega))
    (by omega)
  exact within_one_of_fpInSymUnit (cos64_inSymUnit (within_fpDiv_fpOfNat hprod (by omega) hn hn').finite)

/-- A product that is +0.0 makes the term `COS64(+0.0)`. -/
theorem cosTerm_of_zero {u v n : Nat} (h : fpMul (fpMul pi64 (fpOfNat u)) (fpOfNat v) = fpZero) (hn : 1 ≤ n)
    (hn' : n < 2 ^ 53) : cosTerm u v n = fpOne := by
  obtain ⟨hfin, hone⟩ := one_le_fpOfNat hn hn'
  have h0 : fpUnits (fpOfNat n) ≠ 0 := (Nat.lt_of_lt_of_le (pow_pos two_pos 1074) hone).ne'
  have hsign : fpSign (fpOfNat n) = false := fpSign_fpRound ..
  have harg : fpDiv fpZero (fpOfNat n) = fpZero := by
    rw [fpDiv_of_zero (by decide) fpUnits_fpZero hfin h0, hsign]
    decide
  rw [cosTerm, h, harg, cos64_zero]

theorem cosTerm_zero_left {v n : Nat} (hv : v < 2 ^ 53) (hn : 1 ≤ n) (hn' : n < 2 ^ 53) : cosTerm 0 v n = fpOne := by
  obtain ⟨hfin, hsign, -⟩ := fpOfNat_exact hv
  refine cosTerm_of_zero ?_ hn hn'
  rw [show fpMul pi64 (fpOfNat 0) = fpZero by decide +kernel, fpMul_of_zero (by decide) fpUnits_fpZero hfin, hsign]
  decide

theorem cosTerm_zero_right {u n : Nat} (hu : u < 2 ^ 16) (hn : 1 ≤ n) (hn' : n < 2 ^ 53) : cosTerm u 0 n = fpOne := by
  obtain ⟨hfin, hsign, -⟩ := fpOfNat_exact (n := u) (by omega)
  have hleft := pi64_within.fpMul (within_fpOfNat (n := u) (by omega)) (by omega)
  have hlsign : fpSign (fpMul pi64 (fpOfNat u)) = false := by
    rw [fpMul_of_finite pi64_within.finite hfin, fpSign_fpRound, hsign]
    decide
  refine cosTerm_of_zero ?_ hn hn'
  rw [show fpOfNat 0 = fpZero by decide +kernel, fpMul_of_finite hleft.finite (by decide), fpUnits_fpZero, Nat.mul_zero,
    fpRound, fpRoundMag_zero (pow_pos two_pos 1074), hlsign]
  decide

theorem fpMul_fpOne_fpOne : fpMul fpOne fpOne = fpOne := by decide +kernel

theorem fdctBasis_dc {x y W H : Nat} (hx : x < W) (hy : y < H) (hW : W < 2 ^ 16) (hH : H < 2 ^ 16) :
    fdctBasis 0 0 x y W H = fpOne := by
  rw [fdctBasis, cosTerm_zero_left (by omega) (by omega) (by omega), cosTerm_zero_left (by omega) (by omega) (by omega),
    fpMul_fpOne_fpOne]

theorem idctBasis_dc {x y W H : Nat} (hx : x < W) (hy : y < H) (hW : W < 2 ^ 16) (hH : H < 2 ^ 16) :
    idctBasis 0 0 x y W H = fpOne := by
  rw [idctBasis, cosTerm_zero_right (by omega) (by omega) (by omega), cosTerm_zero_right (by omega) (by omega) (by omega),
    fpMul_fpOne_fpOne]

theorem fdctBasis_within {i j x y W H : Nat} (hi : i < 2 ^ 16) (hj : j < 2 ^ 16) (hx : x < W) (hy : y < H) (hW : W ≤ 2 ^ 16)
    (hH : H ≤ 2 ^ 16) : Within 1 (fdctBasis i j x y W H) :=
  (cosTerm_within hi (by omega) (by omega) (by omega)).fpMul (cosTerm_within hj (by omega) (by omega) (by omega)) (by decide)

/-! ### The forward sums -/

/-- Every channel is finite and of magnitude at most `b`. -/
structure TripleWithin (b : Nat) (t : Triple) : Prop where
  r : Within b t.r
  g : Within b t.g
  b : Within b t.b

theorem tripleWithin_mk {n : Nat} {r g b : F64} (hr : Within n r) (hg : Within n g) (hb : Within n b) :
    TripleWithin n ⟨r, g, b⟩ := ⟨hr, hg, hb⟩

theorem TripleWithin.finite {b : Nat} {t : Triple} (h : TripleWithin b t) : finiteTriple t = true := by
  rw [finiteTriple, h.r.finite, h.g.finite, h.b.finite]
  rfl

/-- One pixel adds at most 1.0 to the magnitude of a sum: the basis and the samples have at most that. -/
theorem fdctAdd_within {b : Nat} {basis : F64} {t : Triple} (p : Word) (hbasis : Within 1 basis) (ht : TripleWithin b t)
    (hb : b + 1 < 2 ^ 53) : TripleWithin (b + 1) (fdctAdd basis p t) :=
  have term (c : Nat) : Within 1 (fpMul basis (linLut (pixSample p c))) := hbasis.fpMul (linLut_within _) (by decide)
  ⟨ht.r.fpAdd (term 0) hb, ht.g.fpAdd (term 1) hb, ht.b.fpAdd (term 2) hb⟩

theorem foldl_fdctAdd_within {basis : Nat → F64} (l : List (Word × Nat)) {b : Nat} {t : Triple}
    (hbasis : ∀ pk ∈ l, Within 1 (basis pk.2)) (ht : TripleWithin b t) (hb : b + l.length < 2 ^ 53) :
    TripleWithin (b + l.length) (l.foldl (fun t pk => fdctAdd (basis pk.2) pk.1 t) t) := by
  induction l generalizing b t with
  | nil => exact ht
  | cons pk l ih =>
    obtain ⟨hhead, htail⟩ := List.forall_mem_cons.mp hbasis
    rw [List.length_cons, Nat.add_comm l.length 1, ← Nat.add_assoc] at hb ⊢
    exact ih htail (fdctAdd_within pk.1 hhead ht (by omega)) hb

/-- A sum of R162 over the pixels of an image has at most the magnitude of their number. -/
theorem fdctSums_within {px : List Word} {i j W H : Nat} (hlen : px.length = W * H) (hi : i < 2 ^ 16) (hj : j < 2 ^ 16)
    (hW : W ≤ 2 ^ 16) (hH : H ≤ 2 ^ 16) : TripleWithin (W * H) (fdctSums px i j W H) := by
  have hsize : W * H ≤ 2 ^ 16 * 2 ^ 16 := Nat.mul_le_mul hW hH
  have hbasis : ∀ pk ∈ px.zipIdx, Within 1 (fdctBasis i j (pk.2 % W) (pk.2 / W) W H) := by
    intro pk hpk
    have hk : pk.2 < W * H := hlen ▸ List.snd_lt_of_mem_zipIdx hpk
    have hWpos : 0 < W := Nat.pos_of_mul_pos_right (Nat.zero_lt_of_lt hk)
    exact fdctBasis_within hi hj (Nat.mod_lt _ hWpos) (Nat.div_lt_of_lt_mul hk) hW hH
  have hzero : Within 0 fpZero := within_fpPack_zero false
  have hfold := foldl_fdctAdd_within (basis := fun k => fdctBasis i j (k % W) (k / W) W H) px.zipIdx hbasis
    (t := zeroTriple) (b := 0) ⟨hzero, hzero, hzero⟩ (by rw [List.length_zipIdx]; omega)
  rwa [List.length_zipIdx, hlen, Nat.zero_add] at hfold

/-- The scale is at most 2.0. -/
theorem fdctScale_within {W H : Nat} (i j : Nat) (hpos : 1 ≤ W * H) (hsize : W * H < 2 ^ 53) : Within 2 (fdctScale i j W H) := by
  have hnorm : Within 2 (if i = 0 ∧ j = 0 then fpOne else fpLit 2 1) := by
    split
    · exact ⟨by decide, by decide +kernel⟩
    · exact ⟨by decide +kernel, by decide +kernel⟩
  exact within_fpDiv_fpOfNat hnorm (by decide) hpos hsize

/-- Every component of the grid of an image is finite (43_transform.md R162). -/
theorem fdctEntry_finite {px : List Word} {i j W H : Nat} (hlen : px.length = W * H) (hi : i < 2 ^ 16) (hj : j < 2 ^ 16)
    (hW : 1 ≤ W) (hW' : W ≤ 2 ^ 16) (hH : 1 ≤ H) (hH' : H ≤ 2 ^ 16) : finiteTriple (fdctEntry px i j W H) = true := by
  have hsize : W * H ≤ 2 ^ 16 * 2 ^ 16 := Nat.mul_le_mul hW' hH'
  have hscale := fdctScale_within i j (Nat.mul_pos hW hH) (by omega)
  obtain ⟨hr, hg, hb⟩ := fdctSums_within hlen hi hj hW' hH'
  exact TripleWithin.finite
    ⟨hr.fpMul hscale (by omega), hg.fpMul hscale (by omega), hb.fpMul hscale (by omega)⟩

theorem fdctGrid_finite {px : List Word} {X Y W H : Nat} (hlen : px.length = W * H) (hX : 1 ≤ X) (hX9 : X ≤ 9) (hY : 1 ≤ Y)
    (hY9 : Y ≤ 9) (hW : 1 ≤ W) (hW' : W ≤ 2 ^ 16) (hH : 1 ≤ H) (hH' : H ≤ 2 ^ 16) :
    ∀ t ∈ (fdctGrid px X Y W H).dc :: (fdctGrid px X Y W H).ac, finiteTriple t = true := by
  rw [fdctGrid_entries hX hY]
  intro t ht
  obtain ⟨k, hk, rfl⟩ := List.mem_map.mp ht
  have hi : k % X < X := Nat.mod_lt _ hX
  have hj : k / X < Y := Nat.div_lt_of_lt_mul (List.mem_range.mp hk)
  exact fdctEntry_finite hlen (by omega) (by omega) hW hW' hH hH'

end Sys2Proof.Machine
end

section
/-! SUPPORT. What the hash decoder answers is finite (44_hash_codec.md R174): the factor of a level and the normalisation value are
bounded, whatever PUNCH holds. -/

namespace Sys2Proof.Machine

theorem levelFactor_within {q : Nat} (hq : q ≤ 19) : Within (10 * 10) (levelFactor q) := by
  have hz : Within 10 (fpOfInt ((q : Int) - 9)) := (within_fpOfInt (by omega)).mono (by omega)
  have ht : Within 10 (fpDiv (fpOfInt ((q : Int) - 9)) (fpLit 9 1)) :=
    hz.fpDiv (by decide +kernel) (by decide +kernel) (by decide)
  exact ht.fpMul ht.fpAbs (by decide)

theorem dqf_within {q b : Nat} {m : F64} (hq : q ≤ 19) (hm : Within b m) (hb : 10 * 10 * b < 2 ^ 53) :
    Within (10 * 10 * b) (dqf q m) := by
  rw [dqf_eq]
  exact (levelFactor_within hq).fpMul hm hb

/-- The three levels in a field of two digits are at most 19. -/
theorem acd_within {v b : Nat} {m : F64} (hv : v < 83 ^ 2) (hm : Within b m) (hb : 10 * 10 * b < 2 ^ 53) :
    TripleWithin (10 * 10 * b) (acd v m) := by
  rw [acd]
  exact tripleWithin_mk (dqf_within (by omega) hm hb) (dqf_within (by omega) hm hb) (dqf_within (by omega) hm hb)

theorem dcd_within (v : Nat) : TripleWithin 1 (dcd v) := by
  rw [dcd]
  exact tripleWithin_mk (linLut_within _) (linLut_within _) (linLut_within _)

theorem maxv_within {q : Nat} (hq : q ≤ 82) : Within 83 (maxv q) :=
  ((within_fpOfNat (n := q + 1) (by omega)).mono (by omega)).fpDiv (by decide +kernel) (by decide +kernel) (by decide)

theorem punchValue_natAbs_le (s : State) : (punchValue s).natAbs ≤ 2 ^ 31 := by
  have hlt := BitVec.toInt_lt (x := s.punch)
  have hle := BitVec.le_toInt (x := s.punch)
  rw [punchValue]
  split <;> omega

/-- The normalisation value scaled by PUNCH. -/
theorem punched_within {q : Nat} (hq : q ≤ 82) (s : State) : Within (83 * 2 ^ 31) (fpMul (maxv q) (fpOfInt (punchValue s))) := by
  have hle := punchValue_natAbs_le s
  exact (maxv_within hq).fpMul ((within_fpOfInt (by omega)).mono hle) (by decide)

/-- A value read from HASH fits in its digits. -/
theorem hashValue_lt {s : State} {k L v : Nat} (h : hashValue s k L 0 = .ok v) : v < 83 ^ L := by
  obtain ⟨ds, rfl, hds, rfl⟩ := (hashValue_eq_ok s k L 0 v).mp h
  refine foldl_digits_lt fun d hd => ?_
  obtain ⟨j, hj, rfl⟩ := List.getElem_of_mem hd
  obtain ⟨_, -, hb⟩ := (hashDigit_eq_ok s _ _).mp (hds j hj)
  exact digit_lt hb

/-- Every AC entry is a dequantized field of two digits. -/
theorem mem_acEntries {s : State} {m : F64} {k n : Nat} {ts : List Triple} (h : acEntries s m k n = .ok ts) :
    ∀ t ∈ ts, ∃ v, v < 83 ^ 2 ∧ t = acd v m := by
  induction n generalizing k ts with
  | zero =>
    simp only [acEntries, Except.ok.injEq] at h
    subst h
    nofun
  | succ n ih =>
    simp only [acEntries, except_bind_eq_ok, Except.ok.injEq] at h
    obtain ⟨v, hv, us, hus, rfl⟩ := h
    exact List.forall_mem_cons.mpr ⟨⟨v, hashValue_lt hv, rfl⟩, ih hus⟩

theorem qdecf_finite {s : State} {out : HashIn} (h : qdecf s = .ok out) :
    ∀ t ∈ out.grid.dc :: out.grid.ac, finiteTriple t = true := by
  have hq := qdecf_q_le h
  obtain ⟨-, -, hm, dc, -, -, hdc, hac⟩ := (qdecf_eq_ok s out).mp h
  have hscale : Within (83 * 2 ^ 31) out.m := hm ▸ punched_within hq s
  refine List.forall_mem_cons.mpr ⟨hdc ▸ (dcd_within dc).finite, fun t ht => ?_⟩
  obtain ⟨v, hv, rfl⟩ := mem_acEntries hac t ht
  exact (acd_within hv hscale (by decide)).finite

end Sys2Proof.Machine
end

section
/-! SUPPORT. The checks of the counts and dimensions, and the first channel of a grid that does not pass (43_transform.md R160, R161,
R163, 44_hash_codec.md R173). -/

namespace Sys2Proof.Machine

variable {s : State} {e : Stop}

/-! ### CHKCOMP and CHKDIM -/

theorem chkComp_of_bad_xc (h : s.xc.toNat < 1 ∨ 9 < s.xc.toNat) :
    chkComp s = .error (.raise .invalidParameter (BitVec.ofNat 32 s.xc.toNat)) := by
  rw [chkComp, if_pos (by simpa only [Bool.or_eq_true, decide_eq_true_eq] using h), Nat.zero_mul, Nat.zero_add, raise]

theorem chkComp_of_bad_yc (hX : 1 ≤ s.xc.toNat) (hX9 : s.xc.toNat ≤ 9) (h : s.yc.toNat < 1 ∨ 9 < s.yc.toNat) :
    chkComp s = .error (.raise .invalidParameter (BitVec.ofNat 32 (256 + s.yc.toNat))) := by
  have hxc : ¬(s.xc.toNat < 1 || 9 < s.xc.toNat) = true := by
    simp only [Bool.or_eq_true, decide_eq_true_eq]
    omega
  rw [chkComp, if_neg hxc, if_pos (by simpa only [Bool.or_eq_true, decide_eq_true_eq] using h), Nat.one_mul, raise]

theorem chkDim_of_no_width (h : s.width.toNat = 0) : chkDim s = .error (.raise .invalidDimension (BitVec.ofNat 32 0)) := by
  simp only [chkDim, h, if_true, raise]

theorem chkDim_of_no_height (hW : 1 ≤ s.width.toNat) (h : s.height.toNat = 0) :
    chkDim s = .error (.raise .invalidDimension (BitVec.ofNat 32 1)) := by
  simp only [chkDim, if_neg (Nat.pos_iff_ne_zero.mp hW), h, if_true, raise]

theorem chkDim_of_capacity (hW : 1 ≤ s.width.toNat) (hH : 1 ≤ s.height.toNat)
    (h : Config.pixCap < s.width.toNat * s.height.toNat) :
    chkDim s = .error (.raise .invalidDimension (BitVec.ofNat 32 2)) := by
  simp only [chkDim, if_neg (Nat.pos_iff_ne_zero.mp hW), if_neg (Nat.pos_iff_ne_zero.mp hH), if_pos h, raise]

/-- CHKDIM fails with INVALID_DIMENSION only. -/
theorem chkDim_error (h : chkDim s = .error e) : ∃ info, e = .raise .invalidDimension info := by
  unfold chkDim raise at h
  split at h
  · exact ⟨_, (Except.error.inj h).symm⟩
  · split at h
    · exact ⟨_, (Except.error.inj h).symm⟩
    · split at h
      · exact ⟨_, (Except.error.inj h).symm⟩
      · cases h

/-- The commands that take the counts check them first. -/
theorem runOf_of_chkComp_error {i : Instr} (hi : i ∈ [Instr.fdct, .idct, .qenc, .encode]) (h : chkComp s = .error e) :
    runOf i s = .error e := by
  simp only [List.mem_cons, List.not_mem_nil, or_false] at hi
  rcases hi with rfl | rfl | rfl | rfl
  · simp [runOf, fdctRun, h]
  · simp [runOf, idctRun, h]
  · simp [runOf, qencRun, h]
  · simp [runOf, encodeRun, h]

/-- Those that take the dimensions check them next. -/
theorem runOf_of_chkDim_error {i : Instr} {X Y : Nat} (hi : i ∈ [Instr.fdct, .idct, .encode]) (hcomp : chkComp s = .ok (X, Y))
    (h : chkDim s = .error e) : runOf i s = .error e := by
  simp only [List.mem_cons, List.not_mem_nil, or_false] at hi
  rcases hi with rfl | rfl | rfl
  · simp [runOf, fdctRun, hcomp, h]
  · simp [runOf, idctRun, hcomp, h]
  · simp [runOf, encodeRun, hcomp, h]

/-! ### Channels in ascending index -/

/-- Channel `l`, counted over the whole grid as `3k + c` (60_exceptions.md R201), read and checked. -/
def channelOperand (s : State) (l : Nat) : Except Stop F64 := compOperand s (l / 3) (l % 3)

theorem channelOperand_of_finite {l : Nat} {x : F64} (h : compRead s (l / 3) (l % 3) = .ok x) (hx : ¬expAllOnes x) :
    channelOperand s l = .ok x :=
  (compOperand_eq_ok s _ _ x).mpr ⟨h, fpIsFinite_iff_not_expAllOnes.mpr hx⟩

theorem channelOperand_of_not_finite {l : Nat} {x : F64} (h : compRead s (l / 3) (l % 3) = .ok x) (hx : expAllOnes x) :
    channelOperand s l = .error (.raise .operand (BitVec.ofNat 32 (0x100 + l))) := by
  have hindex : compIndex (l / 3) (l % 3) = 0x100 + l := by
    rw [compIndex]
    omega
  simp [channelOperand, compOperand, h, finiteOperand_of_expAllOnes _ hx, hindex, raise]

theorem channelOperand_of_uninitRead {l : Nat} (h : compRead s (l / 3) (l % 3) = .error .uninitRead) :
    channelOperand s l = .error .uninitRead := by
  simp [channelOperand, compOperand, h]

theorem entryOperand_eq_channels (s : State) (k : Nat) :
    entryOperand s k =
      channelOperand s (3 * k) >>= fun r => channelOperand s (3 * k + 1) >>= fun g => channelOperand s (3 * k + 2) >>= fun b =>
        .ok ⟨r, g, b⟩ := by
  have hchannel (c : Nat) (hc : c < 3) : channelOperand s (3 * k + c) = compOperand s k c := by
    rw [channelOperand, show (3 * k + c) / 3 = k by omega, show (3 * k + c) % 3 = c by omega]
  rw [entryOperand, ← hchannel 0 (by decide), ← hchannel 1 (by decide), ← hchannel 2 (by decide), Nat.add_zero]

/-- Channel `j` is the first from entry `k` on that does not pass: its read or its check ends with `e`. -/
structure FirstBadChannel (s : State) (k j : Nat) (e : Stop) : Prop where
  le : 3 * k ≤ j
  passes : ∀ l, 3 * k ≤ l → l < j → ∃ x, channelOperand s l = .ok x
  stop : channelOperand s j = .error e

theorem FirstBadChannel.entryOperand {k j : Nat} (h : FirstBadChannel s k j e) (hj : j < 3 * k + 3) :
    entryOperand s k = .error e := by
  obtain ⟨hle, hpasses, hstop⟩ := h
  rw [entryOperand_eq_channels]
  obtain rfl | rfl | rfl : j = 3 * k ∨ j = 3 * k + 1 ∨ j = 3 * k + 2 := by omega
  · simp [hstop]
  · obtain ⟨r, hr⟩ := hpasses (3 * k) (by omega) (by omega)
    simp [hr, hstop]
  · obtain ⟨r, hr⟩ := hpasses (3 * k) (by omega) (by omega)
    obtain ⟨g, hg⟩ := hpasses (3 * k + 1) (by omega) (by omega)
    simp [hr, hg, hstop]

/-- An entry whose channels all come before the bad one passes. -/
theorem FirstBadChannel.next {k j : Nat} (h : FirstBadChannel s k j e) (hj : 3 * k + 3 ≤ j) :
    (∃ t, Machine.entryOperand s k = .ok t) ∧ FirstBadChannel s (k + 1) j e := by
  obtain ⟨r, hr⟩ := h.passes (3 * k) (by omega) (by omega)
  obtain ⟨g, hg⟩ := h.passes (3 * k + 1) (by omega) (by omega)
  obtain ⟨b, hb⟩ := h.passes (3 * k + 2) (by omega) (by omega)
  refine ⟨⟨⟨r, g, b⟩, ?_⟩, by omega, fun l hl hlj => h.passes l (by omega) hlj, h.stop⟩
  simp [entryOperand_eq_channels, hr, hg, hb]

theorem FirstBadChannel.entryOperands {k j n : Nat} (h : FirstBadChannel s k j e) (hj : j < 3 * (k + n)) :
    entryOperands s k n = .error e := by
  induction n generalizing k with
  | zero => exact absurd h.le (by omega)
  | succ n ih =>
    rcases Nat.lt_or_ge j (3 * k + 3) with hhere | hlater
    · simp [Machine.entryOperands, h.entryOperand hhere]
    · obtain ⟨⟨t, ht⟩, hnext⟩ := h.next hlater
      simp [Machine.entryOperands, ht, ih hnext (by omega)]

/-- The grid operand ends where its first bad channel does. -/
theorem FirstBadChannel.gridOperand {j n : Nat} (h : FirstBadChannel s 0 j e) (hj : j < 3 * n) : gridOperand s n = .error e := by
  rcases Nat.lt_or_ge j 3 with hhere | hlater
  · simp [Machine.gridOperand, h.entryOperand hhere]
  · obtain ⟨⟨t, ht⟩, hnext⟩ := h.next hlater
    simp [Machine.gridOperand, ht, hnext.entryOperands (n := n - 1) (by omega)]

/-- QENC, and IDCT once the dimensions passed, end where the grid operand does. -/
theorem runOf_of_gridOperand_error {i : Instr} {X Y : Nat} (hcomp : chkComp s = .ok (X, Y))
    (hi : i = .qenc ∨ (i = .idct ∧ ∃ d, chkDim s = .ok d)) (h : gridOperand s (X * Y) = .error e) : runOf i s = .error e := by
  rcases hi with rfl | ⟨rfl, d, hd⟩
  · simp [runOf, qencRun, hcomp, h]
  · simp [runOf, idctRun, hcomp, hd, h]

end Sys2Proof.Machine
end

section
/-! SUPPORT. A hash string in HASH is decoded field by field, and DECODE stores its grid and its pixels in windows that do not meet
(44_hash_codec.md R170, R174, R177). -/

namespace Sys2Proof.Machine

/-- HASH holds a hash string of R170 with legal counts and fields, and HASHLEN its length. -/
structure HoldsHash (s : State) (X Y q dc : Nat) (acs : List Nat) : Prop where
  one_le_X : 1 ≤ X
  X_le : X ≤ 9
  one_le_Y : 1 ≤ Y
  Y_le : Y ≤ 9
  q_lt : q < 83
  dc_le : dc ≤ 0xFFFFFF
  size : acs.length + 1 = X * Y
  acs_lt : ∀ v ∈ acs, v < 6889
  hashlen : s.hashlen.toNat = 4 + 2 * (X * Y)
  bytes : HoldsBytes s.mem 0x100 (hashString X Y q dc acs)

/-- The AC fields are read back, two digits each. -/
theorem acEntries_of_fields {s : State} (m : F64) {k : Nat} {acs : List Nat} (hv : ∀ v ∈ acs, v < 83 ^ 2)
    (h : HoldsBytes s.mem (0x100 + (4 + 2 * k)) (acs.flatMap fun v => b83Digits v 2)) :
    acEntries s m k acs.length = .ok (acs.map fun v => acd v m) := by
  induction acs generalizing k with
  | nil => rfl
  | cons v acs ih =>
    obtain ⟨hhead, htail⟩ := List.forall_mem_cons.mp hv
    rw [List.flatMap_cons, holdsBytes_append, b83Digits_length, Nat.add_assoc 0x100] at h
    obtain ⟨hfirst, hrest⟩ := h
    rw [show 4 + 2 * k + 2 = 4 + 2 * (k + 1) by omega] at hrest
    simp [acEntries, hashValue_of_b83Digits hhead hfirst, ih htail hrest]

theorem punchValue_eq (s : State) : punchValue s = if s.punch = 0 then 1 else s.punch.toInt := by
  have hzero : s.punch.toInt = 0 ↔ s.punch = 0 := BitVec.toInt_inj (y := 0)
  simp only [punchValue, hzero]

/-- The decoder answers the fields of the string. -/
theorem HoldsHash.qdecf {s : State} {X Y q dc : Nat} {acs : List Nat} (h : HoldsHash s X Y q dc acs) {m : F64}
    (hm : m = fpMul (maxv q) (fpOfInt (if s.punch = 0 then 1 else s.punch.toInt))) :
    qdecf s = .ok ⟨X, Y, q, m, dcd dc, acs.map fun v => acd v m⟩ := by
  have hsize := h.size
  have hbytes := h.bytes
  have hX9 := h.X_le
  have hY9 := h.Y_le
  have hdc := h.dc_le
  simp only [hashString, holdsBytes_append, List.length_append, b83Digits_length] at hbytes
  obtain ⟨⟨⟨hflag, hmax⟩, hvalue⟩, hfields⟩ := hbytes
  have hp := parseHdr_of_flag h.one_le_X hX9 h.one_le_Y hY9 h.hashlen (hashDigit_of_b83Digits (k := 0) (by omega) hflag)
  have hac := acEntries_of_fields (k := 1) m h.acs_lt hfields
  refine (qdecf_eq_ok s _).mpr ⟨hp, hashDigit_of_b83Digits h.q_lt hmax, ?_, dc,
    hashValue_of_b83Digits (by omega) hvalue, hdc, rfl, ?_⟩
  · rw [punchValue_eq, hm]
  · rwa [show X * Y - 1 = acs.length by omega]

/-- A store in PIXRAM leaves the entries of COMPRAM as they are: they end below PIXRAM (20_memory.md R72). -/
theorem holdsEntries_pixStore_gridStore (s : State) (m : Memory) (g : Grid) (ps : List Word) (h : g.ac.length + 1 ≤ 81) :
    HoldsEntries { s with mem := pixStore (gridStore m g) ps } (g.dc :: g.ac) := by
  have hgrid : HoldsBytes (gridStore m g) (compAddr 0 0) ((g.dc :: g.ac).flatMap tripleBytes) := holdsBytes_memWriteBytes _ _ _
  have hboth : HoldsBytes (pixStore (gridStore m g) ps) (compAddr 0 0) ((g.dc :: g.ac).flatMap tripleBytes) := by
    refine holdsBytes_of_sameOutside hgrid (sameOutside_pixStore _ ps) (.inl ?_)
    rw [tripleBytes_flatMap_length, List.length_cons]
    simp only [compAddr, compBase, pixBase]
    omega
  intro k hk c hc
  have hread := compRead_of_holdsBytes { s with mem := pixStore (gridStore m g) ps } 0 _ hboth k hk c hc
  rwa [Nat.zero_add] at hread

/-- DECODE checks the dimensions after the hash. -/
theorem decodeRun_of_chkDim_error {s : State} {out : HashIn} {e : Stop} (hq : qdecf s = .ok out) (h : chkDim s = .error e) :
    runOf .decode s = .error e := by
  simp [runOf, decodeRun, hq, h]

end Sys2Proof.Machine
end

section
/-! SUPPORT. ENCODE is FDCT and then QENC, DECODE is QDEC and then IDCT (44_hash_codec.md R176, R177): the second command finds in the
windows what the first one stored, every channel of it finite. -/

namespace Sys2Proof.Machine

/-! ### Acceptance changes no operand -/

section acceptance

variable (w : Word) (s : State)

@[simp] theorem chkComp_acceptCommand : chkComp (acceptCommand w s) = chkComp s := rfl

@[simp] theorem chkDim_acceptCommand : chkDim (acceptCommand w s) = chkDim s := rfl

@[simp] theorem pixRead_acceptCommand (k : Nat) : pixRead (acceptCommand w s) k = pixRead s k := rfl

@[simp] theorem pixReads_acceptCommand (k n : Nat) : pixReads (acceptCommand w s) k n = pixReads s k n := by
  induction n generalizing k with
  | zero => rfl
  | succ n ih => simp only [pixReads, pixRead_acceptCommand, ih]

@[simp] theorem parseHdr_acceptCommand : parseHdr (acceptCommand w s) = parseHdr s := rfl

@[simp] theorem hashDigit_acceptCommand (k : Nat) : hashDigit (acceptCommand w s) k = hashDigit s k := rfl

@[simp] theorem hashValue_acceptCommand (k L v : Nat) : hashValue (acceptCommand w s) k L v = hashValue s k L v := by
  induction L generalizing k v with
  | zero => rfl
  | succ L ih => simp only [hashValue, hashDigit_acceptCommand, ih]

@[simp] theorem acEntries_acceptCommand (m : F64) (k n : Nat) : acEntries (acceptCommand w s) m k n = acEntries s m k n := by
  induction n generalizing k with
  | zero => rfl
  | succ n ih => simp only [acEntries, hashValue_acceptCommand, ih]

@[simp] theorem punchValue_acceptCommand : punchValue (acceptCommand w s) = punchValue s := rfl

@[simp] theorem qdecf_acceptCommand : qdecf (acceptCommand w s) = qdecf s := by
  simp only [qdecf, parseHdr_acceptCommand, hashDigit_acceptCommand, hashValue_acceptCommand, acEntries_acceptCommand,
    punchValue_acceptCommand]

end acceptance

/-! ### One command after another -/

/-- New contents of the windows, every register as it is. -/
def storeWindows (m : Memory) (s : State) : State := { s with mem := m }

section sequence

variable (w w' w'' : Word) (s : State) (m : Memory)

@[simp] theorem storeWindows_mem : (storeWindows m s).mem = m := rfl

@[simp] theorem chkComp_storeWindows : chkComp (storeWindows m s) = chkComp s := rfl

@[simp] theorem chkComp_completed : chkComp (completed s) = chkComp s := rfl

@[simp] theorem chkDim_completed : chkDim (completed s) = chkDim s := rfl

@[simp] theorem chkDim_storeDecoded (out : HashIn) : chkDim (storeDecoded out s) = chkDim s := rfl

@[simp] theorem completed_mem : (completed s).mem = s.mem := rfl

/-- The stores of QENC after FDCT are those of ENCODE: of the completion in between only DONE stays, which acceptance
clears. -/
theorem completed_storeHash_sequence (X Y : Nat) (out : HashOut) :
    completed (storeHash X Y out (acceptCommand w (completed (storeWindows m (acceptCommand w' s))))) =
      completed (storeHash X Y out (storeWindows m (acceptCommand w'' s))) := rfl

/-- The results of DECODE field by field (10_state.md R57). -/
theorem storeWindows_storeDecoded (out : HashIn) :
    storeWindows m (storeDecoded out s) =
      { s with
        mem := m, xc := BitVec.ofNat 4 out.X, yc := BitVec.ofNat 4 out.Y, maxq := BitVec.ofNat 7 out.q, maxval := out.m } := rfl

/-- The stores of IDCT after QDEC are those of DECODE. -/
theorem completed_storeWindows_sequence (out : HashIn) :
    completed (storeWindows m (acceptCommand w (completed (storeDecoded out (acceptCommand w' s))))) =
      completed (storeWindows m (storeDecoded out (acceptCommand w'' s))) := rfl

end sequence

/-! ### Commands that end early -/

section early

variable {i j : Instr} {s t u : State} {e : Stop}

/-- Accepted commands that end early in the same way leave the same outcome: an error keeps everything but the engine and the flags,
which both completions set alike (60_exceptions.md R203). -/
theorem exec_accepted_of_same_stop (hi : runOf i (accepted i s) = .error e) (hj : runOf j (accepted j s) = .error e) :
    exec i (accepted i s) = exec j (accepted j s) := by
  rw [exec_of_stop hi, exec_of_stop hj]
  cases e <;> rfl

theorem done_of_stop (h : runOf i t = .error e) (ht : t.done = false) (hu : exec i t = .next u) : u.done = false := by
  rcases (exec_eq_next i t u).mp hu with ⟨v, hv, -⟩ | ⟨e', info, -, rfl⟩
  · rw [h] at hv
    cases hv
  · exact ht

end early

/-! ### Commands in a row -/

section row

variable {i j k : Instr} {s t u : State}

/-- Where `k` succeeds with the final state of `j` after `i`, it succeeds exactly if they do, with their final state. -/
theorem done_iff_of_row (hi : exec i (accepted i s) = .next t) (ht : t.done = true) (hk : exec k (accepted k s) = .next u)
    (hj : exec j (accepted j t) = .next u) (v : State) :
    (exec k (accepted k s) = .next v ∧ v.done = true) ↔
      ∃ t, exec i (accepted i s) = .next t ∧ t.done = true ∧ exec j (accepted j t) = .next v ∧ v.done = true := by
  constructor
  · rintro ⟨hv, hd⟩
    exact ⟨t, hi, ht, by rw [hj, ← hk, hv], hd⟩
  · rintro ⟨t', ht', -, hv, hd⟩
    obtain rfl : t = t' := Host.Outcome.next.inj (hi.symm.trans ht')
    exact ⟨by rw [hk, ← hj, hv], hd⟩

/-- An accepted command that succeeds sets no error. -/
theorem err_of_done (hk : exec k (accepted k s) = .next t) (ht : t.done = true) (hu : exec k (accepted k s) = .next u) :
    u.err = false := by
  obtain rfl : t = u := Host.Outcome.next.inj (hk.symm.trans hu)
  simpa [ht] using done_eq_not_err_of_exec hk

/-- A command that ends early as the first of two does succeeds exactly if the two do: never. -/
theorem done_iff_of_first_stops {e : Stop} (hk : runOf k (accepted k s) = .error e) (hi : runOf i (accepted i s) = .error e)
    (v : State) :
    (exec k (accepted k s) = .next v ∧ v.done = true) ↔
      ∃ t, exec i (accepted i s) = .next t ∧ t.done = true ∧ exec j (accepted j t) = .next v ∧ v.done = true := by
  constructor
  · rintro ⟨hv, hd⟩
    rw [done_of_stop hk rfl hv] at hd
    cases hd
  · rintro ⟨t, ht, hd, -⟩
    rw [done_of_stop hi rfl ht] at hd
    cases hd

end row

/-! ### ENCODE -/

/-- What FDCT and ENCODE read before they compute: the counts, the dimensions and the pixel words. -/
def imageOperand (s : State) : Except Stop ((Nat × Nat) × (Nat × Nat) × List Word) := do
  let c ← chkComp s
  let d ← chkDim s
  let px ← pixReads s 0 (d.1 * d.2)
  .ok (c, d, px)

theorem imageOperand_eq_ok {s : State} {X Y W H : Nat} {px : List Word} :
    imageOperand s = .ok ((X, Y), (W, H), px) ↔
      chkComp s = .ok (X, Y) ∧ chkDim s = .ok (W, H) ∧ pixReads s 0 (W * H) = .ok px := by
  unfold imageOperand
  simp only [except_bind_eq_ok, Except.ok.injEq]
  constructor
  · rintro ⟨c, hc, d, hd, px', hpx, h⟩
    cases h
    exact ⟨hc, hd, hpx⟩
  · rintro ⟨hc, hd, hpx⟩
    exact ⟨_, hc, _, hd, _, hpx, rfl⟩

@[simp] theorem imageOperand_acceptCommand (w : Word) (s : State) : imageOperand (acceptCommand w s) = imageOperand s := by
  simp only [imageOperand, chkComp_acceptCommand, chkDim_acceptCommand, pixReads_acceptCommand]

theorem fdctRun_eq_bind (s : State) :
    fdctRun s = imageOperand s >>= fun r =>
      .ok (storeWindows (gridStore s.mem (fdctGrid r.2.2 r.1.1 r.1.2 r.2.1.1 r.2.1.2)) s) := by
  simp only [fdctRun, imageOperand, bind_assoc, ok_bind, storeWindows]

theorem encodeRun_eq_bind (s : State) :
    encodeRun s = imageOperand s >>= fun r => qencf r.1.1 r.1.2 (fdctGrid r.2.2 r.1.1 r.1.2 r.2.1.1 r.2.1.2) >>= fun out =>
      .ok (storeHash r.1.1 r.1.2 out
        (storeWindows (gridStore s.mem (fdctGrid r.2.2 r.1.1 r.1.2 r.2.1.1 r.2.1.2)) s)) := by
  simp only [encodeRun, imageOperand, bind_assoc, ok_bind, storeWindows]

/-- Where reading the image ends early, both commands end so. -/
theorem runOf_encode_of_imageOperand_error {s : State} {e : Stop} (h : imageOperand s = .error e) :
    runOf .encode (accepted .encode s) = .error e ∧ runOf .fdct (accepted .fdct s) = .error e := by
  refine ⟨?_, ?_⟩
  · rw [runOf, encodeRun_eq_bind, accepted, imageOperand_acceptCommand, h, error_bind]
  · rw [runOf, fdctRun_eq_bind, accepted, imageOperand_acceptCommand, h, error_bind]

/-- What an image is that passes the checks. -/
theorem imageOperand_legal {s : State} {X Y W H : Nat} {px : List Word} (h : imageOperand s = .ok ((X, Y), (W, H), px)) :
    (1 ≤ X ∧ X ≤ 9) ∧ (1 ≤ Y ∧ Y ≤ 9) ∧ (1 ≤ W ∧ W ≤ 2 ^ 16) ∧ (1 ≤ H ∧ H ≤ 2 ^ 16) ∧ px.length = W * H := by
  obtain ⟨hcomp, hdim, hpx⟩ := imageOperand_eq_ok.mp h
  obtain ⟨-, hX, hY⟩ := (chkComp_eq_ok s X Y).mp hcomp
  obtain ⟨⟨rfl, rfl⟩, hW, hH, -⟩ := (chkDim_eq_ok s W H).mp hdim
  obtain ⟨hlen, -⟩ := (pixReads_eq_ok s 0 _ px).mp hpx
  exact ⟨hX, hY, ⟨hW, s.width.isLt.le⟩, ⟨hH, s.height.isLt.le⟩, hlen⟩

/-- A grid of finite entries that was stored is the operand of the next command. -/
theorem gridOperand_of_stored {s : State} {m : Memory} {g : Grid} {n : Nat} (hmem : s.mem = gridStore m g)
    (hn : g.ac.length + 1 = n) (hfin : ∀ t ∈ g.dc :: g.ac, finiteTriple t = true) : gridOperand s n = .ok g := by
  obtain ⟨hdc, hac⟩ := List.forall_mem_cons.mp hfin
  exact (gridOperand_eq_ok s n g).mpr ⟨by omega, holdsEntries_gridStore s g m hmem, hdc, hac⟩

/-- Of an image that is read, ENCODE ends as QENC does after FDCT. -/
theorem exec_encode_of_imageOperand_ok {s : State} {r : (Nat × Nat) × (Nat × Nat) × List Word} (h : imageOperand s = .ok r) :
    ∃ t u, exec .fdct (accepted .fdct s) = .next t ∧ t.done = true ∧ exec .encode (accepted .encode s) = .next u ∧
      u.done = true ∧ exec .qenc (accepted .qenc t) = .next u := by
  obtain ⟨⟨X, Y⟩, ⟨W, H⟩, px⟩ := r
  obtain ⟨⟨hX, hX9⟩, ⟨hY, hY9⟩, ⟨hW, hW'⟩, ⟨hH, hH'⟩, hlen⟩ := imageOperand_legal h
  obtain ⟨hcomp, -, -⟩ := imageOperand_eq_ok.mp h
  have hfin := fdctGrid_finite hlen hX hX9 hY hY9 hW hW' hH hH'
  have hsize := fdctGrid_length hX hY px W H
  obtain ⟨out, hq⟩ := qencf_of_legal hX9 hY9 (fdctGrid px X Y W H)
  have hfdct : runOf .fdct (accepted .fdct s) =
      .ok (storeWindows (gridStore s.mem (fdctGrid px X Y W H)) (accepted .fdct s)) := by
    rw [runOf, fdctRun_eq_bind, accepted, imageOperand_acceptCommand, h, ok_bind, acceptCommand_mem]
  have hencode : runOf .encode (accepted .encode s) =
      .ok (storeHash X Y out (storeWindows (gridStore s.mem (fdctGrid px X Y W H)) (accepted .encode s))) := by
    rw [runOf, encodeRun_eq_bind, accepted, imageOperand_acceptCommand, h, ok_bind, hq, ok_bind, acceptCommand_mem]
  generalize fdctGrid px X Y W H = g at *
  have hqenc (t : State) (ht : t.mem = gridStore s.mem g) (hc : chkComp t = .ok (X, Y)) :
      exec .qenc (accepted .qenc t) = .next (completed (storeHash X Y out (accepted .qenc t))) :=
    exec_of_results ((qencRun_eq_ok _ _).mpr ⟨X, Y, g, out, hc, gridOperand_of_stored ht hsize hfin, hq, rfl⟩)
  refine ⟨_, _, exec_of_results hfdct, rfl, exec_of_results hencode, rfl, ?_⟩
  refine (hqenc _ ?_ ?_).trans (congrArg _ (completed_storeHash_sequence ..))
  · rw [completed_mem, storeWindows_mem]
  · rw [chkComp_completed, chkComp_storeWindows, accepted, chkComp_acceptCommand, hcomp]

/-! ### DECODE -/

theorem runOf_qdec_accepted {s : State} {out : HashIn} (h : qdecf s = .ok out) :
    runOf .qdec (accepted .qdec s) = .ok (storeDecoded out (accepted .qdec s)) :=
  (qdecRun_eq_ok _ _).mpr ⟨out, by rw [accepted, qdecf_acceptCommand, h], rfl⟩

/-- Where the hash decoder ends early, both commands end so. -/
theorem runOf_decode_of_qdecf_error {s : State} {e : Stop} (h : qdecf s = .error e) :
    runOf .decode (accepted .decode s) = .error e ∧ runOf .qdec (accepted .qdec s) = .error e := by
  have hq (w : Word) : qdecf (acceptCommand w s) = .error e := by rw [qdecf_acceptCommand, h]
  exact ⟨runOf_of_qdecf_error (by decide) (hq _), runOf_of_qdecf_error (by decide) (hq _)⟩

/-- The counts of a hash that is decoded pass CHKCOMP after QDEC stored them. -/
theorem chkComp_storeDecoded {s : State} {out : HashIn} (h : qdecf s = .ok out) (t : State) :
    chkComp (storeDecoded out t) = .ok (out.X, out.Y) := by
  obtain ⟨hp, -⟩ := (qdecf_eq_ok s out).mp h
  obtain ⟨d, -, -, hd, -, hX, hY⟩ := (parseHdr_eq_ok s out.X out.Y).mp hp
  refine (chkComp_eq_ok _ _ _).mpr ⟨?_, by omega, by omega⟩
  simp only [storeDecoded_xc, storeDecoded_yc, BitVec.toNat_ofNat]
  omega

/-- After QDEC, IDCT fails at the dimensions where DECODE does. -/
theorem exec_decode_of_chkDim_error {s : State} {out : HashIn} {e : Stop} (hq : qdecf s = .ok out) (h : chkDim s = .error e) :
    ∃ t info, exec .qdec (accepted .qdec s) = .next t ∧ t.done = true ∧
      exec .decode (accepted .decode s) = .next (raiseError .invalidDimension info (accepted .decode s)) ∧
      exec .idct (accepted .idct t) = .next (raiseError .invalidDimension info (accepted .idct t)) := by
  obtain ⟨info, rfl⟩ := chkDim_error h
  have hdecode : runOf .decode (accepted .decode s) = .error (.raise .invalidDimension info) :=
    decodeRun_of_chkDim_error (by rw [accepted, qdecf_acceptCommand, hq]) (by rw [accepted, chkDim_acceptCommand, h])
  have hidct (t : State) (hc : chkComp t = .ok (out.X, out.Y)) (hd : chkDim t = chkDim s) :
      runOf .idct (accepted .idct t) = .error (.raise .invalidDimension info) :=
    runOf_of_chkDim_error (i := .idct) (by decide) (by rw [accepted, chkComp_acceptCommand, hc])
      (by rw [accepted, chkDim_acceptCommand, hd, h])
  refine ⟨_, info, exec_of_results (runOf_qdec_accepted hq), rfl, exec_of_stop hdecode, exec_of_stop (hidct _ ?_ ?_)⟩
  · rw [chkComp_completed, chkComp_storeDecoded hq]
  · rw [chkDim_completed, chkDim_storeDecoded, accepted, chkDim_acceptCommand]

theorem runOf_decode_of_ok {s : State} {out : HashIn} {W H : Nat} (hq : qdecf s = .ok out) (h : chkDim s = .ok (W, H)) :
    runOf .decode s =
      .ok (storeWindows (pixStore (gridStore s.mem out.grid) (idctPixels out.grid out.X W H)) (storeDecoded out s)) :=
  (decodeRun_eq_ok s _).mpr ⟨out, W, H, hq, h, by rw [storeWindows, storeDecoded_mem]⟩

/-- Of a hash and dimensions that pass, DECODE ends as IDCT does after QDEC. -/
theorem exec_decode_of_ok {s : State} {out : HashIn} {W H : Nat} (hq : qdecf s = .ok out) (h : chkDim s = .ok (W, H)) :
    ∃ t u, exec .qdec (accepted .qdec s) = .next t ∧ t.done = true ∧ exec .decode (accepted .decode s) = .next u ∧
      u.done = true ∧ exec .idct (accepted .idct t) = .next u := by
  have hfin := qdecf_finite hq
  obtain ⟨hp, -, -, -, -, -, -, hac⟩ := (qdecf_eq_ok s out).mp hq
  obtain ⟨-, hpos, -⟩ := parseHdr_counts hp
  have hlen := acEntries_length s _ _ _ _ hac
  have hdecode := runOf_decode_of_ok (s := accepted .decode s) (by rw [accepted, qdecf_acceptCommand, hq])
    (by rw [accepted, chkDim_acceptCommand, h])
  rw [accepted, acceptCommand_mem] at hdecode
  have hidct (t : State) (hm : t.mem = gridStore s.mem out.grid) (hc : chkComp t = .ok (out.X, out.Y))
      (hd : chkDim t = chkDim s) :
      runOf .idct (accepted .idct t) =
        .ok (storeWindows (pixStore (gridStore s.mem out.grid) (idctPixels out.grid out.X W H)) (accepted .idct t)) := by
    refine (idctRun_eq_ok _ _).mpr ⟨out.X, out.Y, W, H, out.grid, by rw [accepted, chkComp_acceptCommand, hc],
      by rw [accepted, chkDim_acceptCommand, hd, h], gridOperand_of_stored hm (by omega) hfin, ?_⟩
    rw [storeWindows, accepted, acceptCommand_mem, hm]
  refine ⟨_, _, exec_of_results (runOf_qdec_accepted hq), rfl, exec_of_results hdecode, rfl,
    (exec_of_results (hidct _ ?_ ?_ ?_)).trans (congrArg _ (completed_storeWindows_sequence ..))⟩
  · rw [completed_mem, storeDecoded_mem, accepted, acceptCommand_mem]
  · rw [chkComp_completed, chkComp_storeDecoded hq]
  · rw [chkDim_completed, chkDim_storeDecoded, accepted, chkDim_acceptCommand]

end Sys2Proof.Machine
end

section
/-! The statements of 43_transform.md, and those of DECODE, and of ENCODE and DECODE as two commands in a row. -/

namespace Sys2Proof.Transform

open Sys2Proof.Machine

/-- Settles O27: the products with index 0 are +0.0, of which COS64 is 1.0 (R8). -/
theorem dcBasisIsOne : Obligations.DcBasisIsOne :=
  fun _ _ _ _ hx hy hW hH => ⟨fdctBasis_dc hx hy hW hH, idctBasis_dc hx hy hW hH⟩

/-- Settles O31: each command ends at its first check that fails. -/
theorem countsThenDimensionsAreChecked : Obligations.CountsThenDimensionsAreChecked := by
  intro s i hi
  refine ⟨fun hX => ?_, fun hX hX9 hY => ?_, fun hne hX hX9 hY hY9 => ?_⟩
  · exact exec_of_stop (runOf_of_chkComp_error hi (chkComp_of_bad_xc hX))
  · exact exec_of_stop (runOf_of_chkComp_error hi (chkComp_of_bad_yc hX hX9 hY))
  · have hcomp := (chkComp_eq_ok s _ _).mpr ⟨⟨rfl, rfl⟩, ⟨hX, hX9⟩, hY, hY9⟩
    have hi' : i ∈ [Instr.fdct, .idct, .encode] := by
      simp only [List.mem_cons, List.not_mem_nil, or_false] at hi ⊢
      tauto
    have ends {e : Stop} (h : chkDim s = .error e) : exec i s = finish s (.error e) :=
      exec_of_stop (runOf_of_chkDim_error hi' hcomp h)
    exact ⟨fun hW => ends (chkDim_of_no_width hW), fun hW hH => ends (chkDim_of_no_height hW hH),
      fun hW hH hcap => ends (chkDim_of_capacity hW hH hcap)⟩

/-- Settles O32: the grid operand is read and checked channel by channel. -/
theorem firstBadChannelIsReported : Obligations.FirstBadChannelIsReported := by
  intro s i j x hi hX hX9 hY hY9 hj hbefore
  have hcomp := (chkComp_eq_ok s _ _).mpr ⟨⟨rfl, rfl⟩, ⟨hX, hX9⟩, hY, hY9⟩
  have ends {e : Stop} (hstop : channelOperand s j = .error e) : exec i s = finish s (.error e) := by
    have hfirst : FirstBadChannel s 0 j e := by
      refine ⟨Nat.zero_le j, fun l _ hl => ?_, hstop⟩
      obtain ⟨y, hy, hfin⟩ := hbefore l hl
      exact ⟨y, channelOperand_of_finite hy hfin⟩
    exact exec_of_stop (runOf_of_gridOperand_error hcomp (hi.imp_right fun h => ⟨h.1, _, h.2⟩) (hfirst.gridOperand hj))
  exact ⟨fun hread hbad => ends (channelOperand_of_not_finite hread hbad),
    fun hread => ends (channelOperand_of_uninitRead hread)⟩

/-- Settles O39: the hash is decoded field by field, and the grid and the pixels are stored in windows that do not meet. -/
theorem decodeStoresGridAndPixels : Obligations.DecodeStoresGridAndPixels := by
  intro s X Y q dc acs hX hX9 hY hY9 hq hdc hsize hacs hlen hbytes hW hH hcap
  have hhash : HoldsHash s X Y q dc acs := ⟨hX, hX9, hY, hY9, hq, hdc, hsize, hacs, hlen, hbytes⟩
  have hdim := (chkDim_eq_ok s _ _).mpr ⟨⟨rfl, rfl⟩, hW, hH, hcap⟩
  have hle := grid_size_le hX9 hY9
  obtain ⟨v, hv⟩ : ∃ v, v = fpMul (maxv q) (fpOfInt (if s.punch = 0 then 1 else s.punch.toInt)) := ⟨_, rfl⟩
  obtain ⟨g, hg⟩ : ∃ g, g = Grid.mk (dcd dc) (acs.map fun a => acd a v) := ⟨_, rfl⟩
  have hdecode := hhash.qdecf hv
  rw [← hg] at hdecode
  have hglen : g.ac.length + 1 = X * Y := by rw [hg, List.length_map, hsize]
  have hrun := runOf_decode_of_ok hdecode hdim
  rw [storeWindows_storeDecoded] at hrun
  have hgrid := sameOutside_gridStore s.mem g
  have hpixels := sameOutside_pixStore (gridStore s.mem g) (idctPixels g X s.width.toNat s.height.toNat)
  rw [hglen] at hgrid
  rw [idctPixels_length] at hpixels
  exact ⟨_, v, g, hv, hg, exec_of_results hrun,
    holdsEntries_pixStore_gridStore s s.mem g _ (by omega), holdsPixels_withPixels s _ _,
    fun a hcomp hpix => (hpixels a hpix).trans (hgrid a hcomp)⟩

/-- Settles O40: a valid hash is decoded, and then the dimensions are checked. -/
theorem decodeChecksDimensionsLast : Obligations.DecodeChecksDimensionsLast := by
  intro s X Y q dc acs hX hX9 hY hY9 hq hdc hsize hacs hlen hbytes
  have hhash : HoldsHash s X Y q dc acs := ⟨hX, hX9, hY, hY9, hq, hdc, hsize, hacs, hlen, hbytes⟩
  have ends {e : Stop} (h : chkDim s = .error e) : exec .decode s = finish s (.error e) :=
    exec_of_stop (decodeRun_of_chkDim_error (hhash.qdecf rfl) h)
  exact ⟨fun hW => ends (chkDim_of_no_width hW), fun hW hH => ends (chkDim_of_no_height hW hH),
    fun hW hH hcap => ends (chkDim_of_capacity hW hH hcap)⟩

/-- Settles O41, by whether the image passes its checks and is written: if not, FDCT and ENCODE end alike; if so, the components are
finite, and QENC finds the grid that ENCODE quantizes. -/
theorem encodeIsFdctThenQenc : Obligations.EncodeIsFdctThenQenc := by
  intro s
  cases h : imageOperand s with
  | error e =>
    obtain ⟨hencode, hfdct⟩ := runOf_encode_of_imageOperand_error h
    refine ⟨done_iff_of_first_stops hencode hfdct, ?_⟩
    rw [exec_accepted_of_same_stop hencode hfdct]
    exact ⟨fun u hu _ => hu, fun f => Iff.rfl⟩
  | ok r =>
    obtain ⟨t, u, hfdct, htd, hencode, hud, hqenc⟩ := exec_encode_of_imageOperand_ok h
    refine ⟨done_iff_of_row hfdct htd hencode hqenc, fun v hv herr => ?_, fun f => ?_⟩
    · simp [err_of_done hencode hud hv] at herr
    · rw [hencode, hfdct]
      exact ⟨nofun, nofun⟩

/-- Settles O42, by whether the hash and then the dimensions pass: DECODE ends as QDEC, or with the error IDCT then meets, or with
the pixels IDCT computes, since every dequantized entry is finite. -/
theorem decodeIsQdecThenIdct : Obligations.DecodeIsQdecThenIdct := by
  intro s
  cases hq : qdecf s with
  | error e =>
    obtain ⟨hdecode, hqdec⟩ := runOf_decode_of_qdecf_error hq
    refine ⟨done_iff_of_first_stops hdecode hqdec, ?_⟩
    rw [exec_accepted_of_same_stop hdecode hqdec]
    exact ⟨fun u hu _ => .inl hu, fun f => Iff.rfl⟩
  | ok out =>
    cases hd : chkDim s with
    | error e =>
      obtain ⟨t, info, hqdec, htd, hdecode, hidct⟩ := exec_decode_of_chkDim_error hq hd
      simp only [hdecode, hqdec, Host.Outcome.next.injEq]
      refine ⟨fun u => ⟨?_, ?_⟩, ?_, fun f => ⟨nofun, nofun⟩⟩
      · rintro ⟨rfl, hdone⟩
        cases hdone
      · rintro ⟨_, rfl, -, hu, hdone⟩
        rw [hidct] at hu
        cases hu
        cases hdone
      · rintro _ rfl -
        exact .inr ⟨rfl, t, _, rfl, htd, hidct, rfl, rfl, rfl⟩
    | ok d =>
      obtain ⟨t, u, hqdec, htd, hdecode, hud, hidct⟩ := exec_decode_of_ok (W := d.1) (H := d.2) hq hd
      refine ⟨done_iff_of_row hqdec htd hdecode hidct, fun v hv herr => ?_, fun f => ?_⟩
      · simp [err_of_done hdecode hud hv] at herr
      · rw [hdecode, hqdec]
        exact ⟨nofun, nofun⟩

end Sys2Proof.Transform
end

section
/-! SUPPORT. The maximum over the AC channels (44_hash_codec.md R173): a running maximum of magnitudes, which no NaN enters. -/

namespace Sys2Proof.Machine

/-! ### One channel -/

theorem fpLe_refl {a : F64} (h : fpIsNan a = false) : fpLe a a = true := fpLe_iff.mpr ⟨h, h, le_rfl⟩

/-- The order of `<` and `<=` is total on values that are not NaN. -/
theorem fpLe_of_not_fpLt {a b : F64} (ha : fpIsNan a = false) (hb : fpIsNan b = false) (h : ¬fpLt a b = true) :
    fpLe b a = true := by
  rw [fpLt_iff] at h
  exact fpLe_iff.mpr ⟨hb, ha, by simpa [ha, hb] using h⟩

/-- The maximum is the larger of its operands; a NaN channel is passed over. -/
theorem maxAbs_cases (a x : F64) :
    (fpLt a (fpAbs x) = true ∧ maxAbs a x = fpAbs x) ∨ (¬fpLt a (fpAbs x) = true ∧ maxAbs a x = a) := by
  unfold maxAbs
  split
  · exact .inl ⟨‹_›, rfl⟩
  · exact .inr ⟨‹_›, rfl⟩

theorem fpLe_maxAbs_left {a : F64} (ha : fpIsNan a = false) (x : F64) : fpLe a (maxAbs a x) = true := by
  rcases maxAbs_cases a x with ⟨hlt, hmax⟩ | ⟨-, hmax⟩
  · rw [hmax]
    exact fpLe_of_fpLt hlt
  · rw [hmax]
    exact fpLe_refl ha

theorem fpLe_maxAbs_right {a x : F64} (ha : fpIsNan a = false) (hx : fpIsFinite x = true) :
    fpLe (fpAbs x) (maxAbs a x) = true := by
  obtain ⟨habs, -⟩ := fpAbs_of_finite hx
  have hnan := fpIsNan_of_finite habs
  rcases maxAbs_cases a x with ⟨-, hmax⟩ | ⟨hge, hmax⟩
  · rw [hmax]
    exact fpLe_refl hnan
  · rw [hmax]
    exact fpLe_of_not_fpLt ha hnan hge

/-! ### Many channels -/

/-- The running maximum lies above its start and above the magnitude of every finite channel. -/
theorem foldl_maxAbs_upper {a : F64} (ha : fpIsNan a = false) (xs : List F64) :
    fpLe a (xs.foldl maxAbs a) = true ∧ ∀ x ∈ xs, fpIsFinite x = true → fpLe (fpAbs x) (xs.foldl maxAbs a) = true := by
  induction xs generalizing a with
  | nil => exact ⟨fpLe_refl ha, nofun⟩
  | cons x xs ih =>
    have hstep := fpLe_maxAbs_left ha x
    obtain ⟨-, hnan, -⟩ := fpLe_iff.mp hstep
    obtain ⟨hstart, hrest⟩ := ih hnan
    rw [List.foldl_cons]
    exact ⟨fpLe_trans hstep hstart,
      List.forall_mem_cons.mpr ⟨fun hx => fpLe_trans (fpLe_maxAbs_right ha hx) hstart, hrest⟩⟩

/-- The running maximum is its start or the magnitude of a channel. -/
theorem foldl_maxAbs_attained (a : F64) (xs : List F64) :
    xs.foldl maxAbs a = a ∨ ∃ x ∈ xs, xs.foldl maxAbs a = fpAbs x := by
  induction xs generalizing a with
  | nil => exact .inl rfl
  | cons x xs ih =>
    rw [List.foldl_cons]
    rcases ih (maxAbs a x) with hkept | ⟨y, hy, hmax⟩
    · rcases maxAbs_cases a x with ⟨-, hmax⟩ | ⟨-, hmax⟩
      · exact .inr ⟨x, List.mem_cons_self, hkept.trans hmax⟩
      · exact .inl (hkept.trans hmax)
    · exact .inr ⟨y, List.mem_cons_of_mem x hy, hmax⟩

/-- The channels of a triple in the order R173 takes them. -/
def channels (t : Triple) : List F64 := [t.r, t.g, t.b]

theorem channels_eq_map_chan (t : Triple) : channels t = (List.range 3).map (chan t) := rfl

theorem mem_flatMap_channels {ac : List Triple} {x : F64} :
    x ∈ ac.flatMap channels ↔ ∃ t ∈ ac, ∃ c, c < 3 ∧ chan t c = x := by
  simp only [List.mem_flatMap, channels_eq_map_chan, List.mem_map, List.mem_range]

/-- The maximum of R173 is the running maximum over all channels of all triples. -/
theorem maxAc_eq_foldl (ac : List Triple) : maxAc ac = (ac.flatMap channels).foldl maxAbs fpZero := by
  rw [List.foldl_flatMap]
  rfl

theorem fpAbs_le_maxAc {ac : List Triple} {t : Triple} {c : Nat} (ht : t ∈ ac) (hc : c < 3)
    (hfin : fpIsFinite (chan t c) = true) : fpLe (fpAbs (chan t c)) (maxAc ac) = true := by
  obtain ⟨-, hupper⟩ := foldl_maxAbs_upper (show fpIsNan fpZero = false by decide) (ac.flatMap channels)
  rw [maxAc_eq_foldl]
  exact hupper _ (mem_flatMap_channels.mpr ⟨t, ht, c, hc, rfl⟩) hfin

theorem maxAc_attained (ac : List Triple) : maxAc ac = fpZero ∨ ∃ t ∈ ac, ∃ c, c < 3 ∧ maxAc ac = fpAbs (chan t c) := by
  rw [maxAc_eq_foldl]
  refine (foldl_maxAbs_attained fpZero _).imp_right fun ⟨x, hx, hmax⟩ => ?_
  obtain ⟨t, ht, c, hc, rfl⟩ := mem_flatMap_channels.mp hx
  exact ⟨t, ht, c, hc, hmax⟩

end Sys2Proof.Machine
end

section
/-! SUPPORT. The hash codec in HASH (44_hash_codec.md R172 to R176): what QENC and ENCODE leave there is a hash string of R170,
which COMPONENTS and QDEC read back. -/

namespace Sys2Proof.Machine

/-! ### Reading a hash -/

theorem exec_components {s : State} {X Y : Nat} (h : parseHdr s = .ok (X, Y)) :
    exec .components s = .next (completed (storeCounts X Y s)) :=
  exec_of_results ((componentsRun_eq_ok s _).mpr ⟨X, Y, h, rfl⟩)

/-- The results of QDEC field by field (10_state.md R57). -/
theorem exec_qdec {s : State} {out : HashIn} (h : qdecf s = .ok out) :
    exec .qdec s =
      .next (completed
        { s with
          mem := gridStore s.mem out.grid, xc := BitVec.ofNat 4 out.X, yc := BitVec.ofNat 4 out.Y,
          maxq := BitVec.ofNat 7 out.q, maxval := out.m }) := by
  have hrun : runOf .qdec s = .ok (storeDecoded out s) := (qdecRun_eq_ok s _).mpr ⟨out, h, rfl⟩
  rw [exec_of_results hrun, storeDecoded, storeMax, storeCounts]

theorem HoldsHash.parseHdr {s : State} {X Y q dc : Nat} {acs : List Nat} (h : HoldsHash s X Y q dc acs) :
    parseHdr s = .ok (X, Y) := by
  obtain ⟨hp, -⟩ := (qdecf_eq_ok s _).mp (h.qdecf rfl)
  exact hp

/-- A hash is a matter of HASH and HASHLEN alone. -/
theorem HoldsHash.congr {s t : State} {X Y q dc : Nat} {acs : List Nat} (h : HoldsHash s X Y q dc acs) (hmem : t.mem = s.mem)
    (hlen : t.hashlen = s.hashlen) : HoldsHash t X Y q dc acs :=
  { h with hashlen := hlen ▸ h.hashlen, bytes := hmem ▸ h.bytes }

/-- The counts that COMP holds already. -/
theorem storeCounts_eq_self {s : State} {X Y : Nat} (hX : s.xc.toNat = X) (hY : s.yc.toNat = Y) : storeCounts X Y s = s := by
  subst hX hY
  simp only [storeCounts, BitVec.ofNat_toNat, BitVec.setWidth_eq]

/-! ### Writing a hash -/

/-- The stores of the hash encoder leave a hash: every field is in its range (42_quantizer.md R156). -/
theorem holdsHash_storeHash {X Y : Nat} (hX : 1 ≤ X) (hX9 : X ≤ 9) (hY : 1 ≤ Y) (hY9 : Y ≤ 9) {g : Grid} {out : HashOut}
    (hsize : g.ac.length + 1 = X * Y) (h : qencf X Y g = .ok out) (s : State) :
    HoldsHash (storeHash X Y out s) X Y out.q (dcq g.dc) (g.ac.map fun t => acq t out.m) := by
  have hle := grid_size_le hX9 hY9
  obtain ⟨-, -, hbytes⟩ := qencf_result h
  refine ⟨hX, hX9, hY, hY9, Nat.lt_succ_of_le (qencf_q_le h), dcq_le g.dc,
    by rw [List.length_map, hsize], fun v hv => ?_, ?_, ?_⟩
  · obtain ⟨t, -, rfl⟩ := List.mem_map.mp hv
    exact Nat.lt_of_le_of_lt (acq_le t out.m) (by decide)
  · rw [storeHash_hashlen, BitVec.toNat_ofNat]
    omega
  · rw [storeHash_mem, ← hbytes]
    exact holdsBytes_hashStore s.mem 0 out.bytes

/-- A state that a successful QENC or ENCODE leaves: the answer of the hash encoder for a grid of as many entries as COMP says. -/
structure Encoded (t : State) (g : Grid) (out : HashOut) : Prop where
  size : g.ac.length + 1 = t.xc.toNat * t.yc.toNat
  answer : qencf t.xc.toNat t.yc.toNat g = .ok out
  maxq : t.maxq = BitVec.ofNat 7 out.q
  maxval : t.maxval = out.m
  hash : HoldsHash t t.xc.toNat t.yc.toNat out.q (dcq g.dc) (g.ac.map fun t => acq t out.m)

/-- QENC and ENCODE both store what the hash encoder answers for the grid; ENCODE stores the grid itself before (44_hash_codec.md R173,
R176). -/
theorem runOf_encoding {i : Instr} {s u : State} (hi : i ∈ [Instr.qenc, .encode]) (h : runOf i s = .ok u) :
    ∃ X Y g out m, chkComp s = .ok (X, Y) ∧ g.ac.length + 1 = X * Y ∧ qencf X Y g = .ok out ∧
      u = storeHash X Y out (storeWindows m s) := by
  simp only [List.mem_cons, List.not_mem_nil, or_false] at hi
  rcases hi with rfl | rfl
  · obtain ⟨X, Y, g, out, hcomp, hg, hq, rfl⟩ := (qencRun_eq_ok s u).mp h
    obtain ⟨-, ⟨hX, -⟩, hY, -⟩ := (chkComp_eq_ok s X Y).mp hcomp
    obtain ⟨hlen, -⟩ := (gridOperand_eq_ok s _ g).mp hg
    have hpos := Nat.mul_pos hX hY
    exact ⟨X, Y, g, out, s.mem, hcomp, by omega, hq, rfl⟩
  · obtain ⟨X, Y, W, H, px, out, hcomp, -, -, hq, rfl⟩ := (encodeRun_eq_ok s u).mp h
    obtain ⟨-, ⟨hX, -⟩, hY, -⟩ := (chkComp_eq_ok s X Y).mp hcomp
    exact ⟨X, Y, _, out, _, hcomp, fdctGrid_length hX hY px W H, hq, rfl⟩

theorem encoded_of_done {i : Instr} {s t : State} (hi : i ∈ [Instr.qenc, .encode]) (h : exec i (accepted i s) = .next t)
    (hd : t.done = true) : ∃ g out, Encoded t g out := by
  obtain ⟨u, hrun, rfl⟩ := exists_runOf_of_done h hd
  obtain ⟨X, Y, g, out, m, hcomp, hsize, hq, rfl⟩ := runOf_encoding hi hrun
  obtain ⟨⟨rfl, rfl⟩, ⟨hX, hX9⟩, hY, hY9⟩ := (chkComp_eq_ok _ X Y).mp hcomp
  exact ⟨g, out, hsize, hq, rfl, rfl, (holdsHash_storeHash hX hX9 hY hY9 hsize hq _).congr rfl rfl⟩

/-- After an accepted command succeeded, the acceptance and completion of another one change nothing by themselves (10_state.md R41
to R43). -/
theorem completed_acceptCommand_of_done {i : Instr} {w : Word} {s t : State} (h : exec i (acceptCommand w s) = .next t)
    (hd : t.done = true) (w' : Word) : completed (acceptCommand w' t) = t := by
  obtain ⟨u, hrun, rfl⟩ := exists_runOf_of_done h hd
  obtain ⟨m, x, y, len, q, v, r, -, rfl⟩ := runOf_frame hrun
  rfl

/-! ### The normalisation value -/

/-- Of a grid with AC terms the normalisation value is that of the quantized maximum, which MAXV gives back. -/
theorem acScale_snd_of_ne_nil {ac : List Triple} (h : ac ≠ []) : (acScale ac).2 = maxv (acScale ac).1 := by
  rw [acScale_of_ne_nil h]

theorem fpMul_comm_of_finite {x y : F64} (hx : fpIsFinite x = true) (hy : fpIsFinite y = true) : fpMul x y = fpMul y x := by
  rw [fpMul_of_finite hx hy, fpMul_of_finite hy hx, Bool.xor_comm, Nat.mul_comm]

theorem fpMul_fpOne_left {x : F64} (hx : fpIsFinite x = true) : fpMul fpOne x = x := by
  rw [fpMul_of_unit (by decide) fpUnits_fpOne hx, show fpSign fpOne = false by decide, Bool.false_xor, fpPack_sign_mag]

/-- With PUNCH = 1 the value is not scaled (44_hash_codec.md R174). -/
theorem fpMul_maxv_punch_one {q : Nat} (hq : q ≤ 82) {p : Word} (hp : p = 1) :
    fpMul (maxv q) (fpOfInt (if p = 0 then 1 else p.toInt)) = maxv q := by
  have hone : fpOfInt (if p = 0 then 1 else p.toInt) = fpOne := by
    subst hp
    decide +kernel
  rw [hone, fpMul_comm_of_finite (maxv_within hq).finite (by decide), fpMul_fpOne_left (maxv_within hq).finite]

end Sys2Proof.Machine
end

section
/-! The statements of 44_hash_codec.md about COMPONENTS, QENC and QDEC. -/

namespace Sys2Proof.HashCodec

open Sys2Proof.Machine

/-- Settles O33: the size flag gives the counts back. -/
theorem componentsWritesTheCounts : Obligations.ComponentsWritesTheCounts := by
  intro s X Y hX hX9 hY hY9 hlen hflag
  have hdigit : hashDigit s 0 = .ok ((X - 1) + (Y - 1) * 9) := hashDigit_of_alpha (by omega) hflag
  exact exec_components (parseHdr_of_flag hX hX9 hY hY9 hlen hdigit)

/-- Settles O35: the encoder answers on every legal grid, and its bytes are stored in HASH alone; the maximum is a running maximum
over all AC channels. -/
theorem qencWritesTheHash : Obligations.QencWritesTheHash := by
  refine ⟨fun s g hX hX9 hY hY9 hsize hentries hfin => ?_,
    fun ac => ⟨fun t ht c hc => fpAbs_le_maxAc ht hc, maxAc_attained ac⟩⟩
  obtain ⟨hdc, hac⟩ := List.forall_mem_cons.mp hfin
  have hcomp := (chkComp_eq_ok s _ _).mpr ⟨⟨rfl, rfl⟩, ⟨hX, hX9⟩, hY, hY9⟩
  have hg := (gridOperand_eq_ok s (s.xc.toNat * s.yc.toNat) g).mpr ⟨by omega, hentries, hdc, hac⟩
  obtain ⟨out, hq⟩ := qencf_of_legal hX9 hY9 g
  obtain ⟨hmax, hval, hstring⟩ := qencf_result hq
  have hheld := holdsBytes_hashStore s.mem 0 out.bytes
  have hframe := sameOutside_hashStore s.mem 0 out.bytes
  rw [qencf_bytes_length hq hsize] at hframe
  refine ⟨hashStore s.mem 0 out.bytes, out.q, out.m,
    exec_of_results ((qencRun_eq_ok s _).mpr ⟨_, _, g, out, hcomp, hg, hq, rfl⟩), fun hnil => ?_, fun hne => ?_, ?_, hframe⟩
  · rw [hmax, hval, acScale_of_nil hnil]
    exact ⟨rfl, rfl⟩
  · simp only [hmax, hval, acScale_of_ne_nil hne, and_self]
  · rw [← hstring]
    exact hheld

/-- Settles O36: the hash is decoded field by field, and its grid is stored in COMPRAM. -/
theorem qdecReadsTheHash : Obligations.QdecReadsTheHash := by
  intro s X Y q dc acs hX hX9 hY hY9 hq hdc hsize hacs hlen hbytes
  have hhash : HoldsHash s X Y q dc acs := ⟨hX, hX9, hY, hY9, hq, hdc, hsize, hacs, hlen, hbytes⟩
  obtain ⟨v, hv⟩ : ∃ v, v = fpMul (maxv q) (fpOfInt (if s.punch = 0 then 1 else s.punch.toInt)) := ⟨_, rfl⟩
  have hdecode := hhash.qdecf hv
  have hframe := sameOutside_gridStore s.mem ⟨dcd dc, acs.map fun a => acd a v⟩
  rw [List.length_map, hsize] at hframe
  exact ⟨_, v, hv, exec_qdec hdecode, holdsEntries_withGrid s s.mem _, hframe⟩

/-- Settles O43: the encoders leave a hash whose header gives the counts of COMP back. -/
theorem componentsAfterEncodingChangesNothing : Obligations.ComponentsAfterEncodingChangesNothing := by
  intro i s t hi h hd
  obtain ⟨g, out, henc⟩ := encoded_of_done hi h hd
  have hhash : HoldsHash (accepted .components t) t.xc.toNat t.yc.toNat _ _ _ := henc.hash.congr rfl rfl
  have hcounts : storeCounts t.xc.toNat t.yc.toNat (accepted .components t) = accepted .components t :=
    storeCounts_eq_self rfl rfl
  refine ⟨henc.hash.hashlen, ?_⟩
  calc exec .components (accepted .components t)
    _ = .next (completed (storeCounts t.xc.toNat t.yc.toNat (accepted .components t))) := exec_components hhash.parseHdr
    _ = .next (completed (accepted .components t)) := by rw [hcounts]
    _ = .next t := congrArg _ (completed_acceptCommand_of_done h hd _)

/-- Settles O44: QENC leaves a hash, which the decoder accepts; with PUNCH = 1 its normalisation value is MAXV of the quantized
maximum, as the encoder's is where there are AC terms. -/
theorem qdecAcceptsWhatQencWrites : Obligations.QdecAcceptsWhatQencWrites := by
  intro s t h hd
  obtain ⟨g, out, henc⟩ := encoded_of_done (by decide) h hd
  obtain ⟨hmax, hval, -⟩ := qencf_result henc.answer
  have hsize := henc.size
  obtain ⟨v, hv⟩ : ∃ v, v = fpMul (maxv out.q) (fpOfInt (if t.punch = 0 then 1 else t.punch.toInt)) := ⟨_, rfl⟩
  have hdecode := (qdecf_acceptCommand (Sys2Proof.encode .qdec) t).trans (henc.hash.qdecf hv)
  have hcount (x : BitVec 4) : BitVec.ofNat 4 x.toNat = x := by simp
  refine ⟨_, exec_qdec hdecode, rfl, henc.maxq.symm, hcount t.xc, hcount t.yc, fun hp => ?_⟩
  have hscaled : v = maxv out.q := hv.trans (fpMul_maxv_punch_one (qencf_q_le henc.answer) hp)
  refine ⟨fun hmany => ?_, fun hone => ?_⟩
  · have hne : g.ac ≠ [] := List.ne_nil_of_length_pos (by omega)
    calc v
      _ = maxv out.q := hscaled
      _ = out.m := by rw [hmax, hval, acScale_snd_of_ne_nil hne]
      _ = t.maxval := henc.maxval.symm
  · have hnil : g.ac = [] := List.length_eq_zero_iff.mp (by omega)
    rw [acScale_of_nil hnil] at hmax hval
    exact ⟨henc.maxval.trans hval, hscaled.trans (congrArg maxv hmax)⟩

end Sys2Proof.HashCodec
end

section
/-! SUPPORT. The acknowledge of a completion on the host port (45_system.md R192), and the interrupt line after it (60_exceptions.md
R210). -/

namespace Sys2Proof.Machine

/-- A write of STATUS, which is accepted whether or not a command runs (70_reset_and_hazards.md R241). -/
theorem hostWrite_status (v : Word) (s : State) : hostWrite (regOffset .status) 4 v s = (acknowledge v s, .okay 0) := by
  rw [hostWrite_performed v (accessOk_regOffset .status) (.inr rfl), storeAccepted_register]
  rfl

theorem hostTurn_write_status {s : State} (hreset : s.inReset = false) (v : Word) :
    hostTurn (.write 0x00C 4 v) s = .next { acknowledge v s with resp := some (.okay 0) } := by
  rw [hostTurn_write hreset, show (0x00C : BitVec 19).toNat = regOffset .status from rfl, hostWrite_status]

/-- The interrupt line needs DONE or ERR (10_state.md R56). -/
theorem irq_eq_false_of_flags {s : State} (hdone : s.done = false) (herr : s.err = false) : irq s = false := by
  rw [irq, hdone, herr, Bool.or_false, Bool.and_false]

/-- A flag is 0 after a write of STATUS whose bit for it is 1. -/
theorem clearedFlag_eq_false (flag : Bool) {bit : Bool} (hbit : bit = true) : (flag && !bit) = false := by
  rw [hbit, Bool.not_true, Bool.and_false]

end Sys2Proof.Machine
end

section
/-! The statements of 45_system.md. -/

namespace Sys2Proof.SystemControl

open Sys2Proof.Machine

/-- Settles O9: the results of NOP are the state it started from. -/
theorem nopOnlyCompletes : Obligations.NopOnlyCompletes := by
  intro s
  have hrun : runOf .nop s = .ok s := rfl
  exact exec_of_results hrun

/-- Settles O55: STATUS is one of the two registers that a running command leaves open to writes, and bits 1 to 3 of the
acknowledge word are 1. -/
theorem statusIsWriteOneToClear : Obligations.StatusIsWriteOneToClear := by
  intro s v hreset
  have hdone : (acknowledge 0x0000000E s).done = false := clearedFlag_eq_false s.done (by decide)
  have herr : (acknowledge 0x0000000E s).err = false := clearedFlag_eq_false s.err (by decide)
  have hwdrop : (acknowledge 0x0000000E s).wdrop = false := clearedFlag_eq_false s.wdrop (by decide)
  exact ⟨hostTurn_write_status hreset v, _, hostTurn_write_status hreset 0x0000000E, ⟨hdone, herr, hwdrop⟩,
    irq_eq_false_of_flags hdone herr⟩

end Sys2Proof.SystemControl
end

section
/-! SUPPORT. A command that fails (60_exceptions.md R200, R203). -/

namespace Sys2Proof.Machine

/-- A command's error is the failure with that code and payload (R200). -/
theorem raiseError_eq_failedWith (e : ErrCode) (info : Word) (s : State) :
    raiseError e info s = failedWith (errCodeBits e) info.toNat s := by
  rw [failedWith, BitVec.ofNat_toNat, BitVec.setWidth_eq]
  rfl

/-- The pseudocode of an accepted command that fails has raised an error, and the command ends with it: acceptance clears ERR and
no results set it (10_state.md R42). -/
theorem exists_runOf_of_err {i : Instr} {s t : State} (h : exec i (accepted i s) = .next t) (herr : t.err = true) :
    ∃ e info, runOf i (accepted i s) = .error (.raise e info) ∧ t = raiseError e info (accepted i s) := by
  rcases (exec_eq_next _ _ _).mp h with ⟨u, hrun, rfl⟩ | hraise
  · have hclear : (flagsDone u).err = false := runOf_err hrun
    rw [hclear] at herr
    cases herr
  · exact hraise

end Sys2Proof.Machine
end

section
/-! The statements of 60_exceptions.md. -/

namespace Sys2Proof.Exceptions

open Sys2Proof.Machine

/-- Settles O46: the error is the one the command's pseudocode raised, which is of the command's row of R202. -/
theorem failureCommitsNothing : Obligations.FailureCommitsNothing := by
  intro i s t h herr
  obtain ⟨e, info, hrun, rfl⟩ := exists_runOf_of_err h herr
  exact ⟨e, info.toNat, runOf_raisesOnly _ i e info hrun, raiseError_eq_failedWith e info _⟩

end Sys2Proof.Exceptions
end

section
/-! SUPPORT. Refusals (70_reset_and_hazards.md R230): where one can come from. The writes a running command leaves open (R241). -/

namespace Sys2Proof.Machine

/-! ### Refusals -/

/-- In reset a host transaction is refused; out of reset the port answers every transaction with a next state. -/
theorem hostTurn_eq_refused_iff (t : HostTxn) (s : State) (r : Refusal) :
    hostTurn t s = .refused r ↔ s.inReset = true ∧ r = .hostAccessInReset := by
  cases hreset : s.inReset with
  | true => simp [hostTurn, hreset, eq_comm]
  | false => cases t <;> simp [hostTurn_read hreset, hostTurn_write hreset]

theorem engineTurn_ne_refused (s : State) (r : Refusal) : engineTurn s ≠ .refused r := by
  intro hrefused
  rcases engineTurn_cases s with ⟨hturn, -⟩ | ⟨w, i, -, -, -, hturn⟩ | ⟨w, e, -, -, -, hturn⟩
  · cases hturn.symm.trans hrefused
  · exact exec_ne_refused i s r (hturn.symm.trans hrefused)
  · cases hturn.symm.trans hrefused

/-- Of the inputs, only a host transaction is ever refused. -/
theorem takeEvent_eq_refused {e : Event} {s : State} {r : Refusal} (h : takeEvent e s = .refused r) :
    ∃ t, e = .host t ∧ hostTurn t s = .refused r := by
  cases e with
  | host t => exact ⟨t, rfl, h⟩
  | complete => exact absurd h (engineTurn_ne_refused s r)
  | rstAssert => cases h
  | rstRelease => cases h

/-! ### Writes while a command runs -/

theorem writableBusy_eq_false {a : Nat} (hctrl : a ≠ regOffset .ctrl) (hstatus : a ≠ regOffset .status) :
    writableBusy a = false := by
  simp [writableBusy, hctrl, hstatus]

end Sys2Proof.Machine
end

section
/-! The statements of 70_reset_and_hazards.md on refused and dropped accesses. -/

namespace Sys2Proof.ResetAndHazards

open Sys2Proof.Machine

/-- Settles O8: a step without an input is the engine's turn, which is never refused, and of the inputs only a host transaction
is. -/
theorem onlyHostAccessInResetIsRefused : Obligations.OnlyHostAccessInResetIsRefused := by
  refine ⟨exec_ne_refused, fun s t hreset => (hostTurn_eq_refused_iff t s _).mpr ⟨hreset, rfl⟩, fun s r hstep => ?_⟩
  cases hp : s.pending with
  | nil =>
    rw [step_of_no_pending s hp] at hstep
    exact absurd hstep (engineTurn_ne_refused s r)
  | cons e es =>
    rw [step_of_pending s e es hp] at hstep
    obtain ⟨t, rfl, hturn⟩ := takeEvent_eq_refused hstep
    obtain ⟨hreset, hr⟩ := (hostTurn_eq_refused_iff t _ r).mp hturn
    exact ⟨hr, hreset, t, es, rfl⟩

/-- Settles O52: a write is dropped unless its offset is that of CTRL or STATUS, whose writes do not look at the engine, or the port
rejects it before. -/
theorem busyWritesAreDropped : Obligations.BusyWritesAreDropped := by
  intro s a n v hbusy
  refine ⟨fun hok hctrl hstatus => ?_, hostWrite_ctrl v s, hostWrite_status v s, hostWrite_rejected v s⟩
  exact hostWrite_dropped v hok hbusy (writableBusy_eq_false hctrl hstatus)

end Sys2Proof.ResetAndHazards
end
